-- ==== Sys2Proof/Word.lean ====
section
/-! DEFINITION. The plain data every layer speaks of. A value is a signed integer (R9: "All values are
integers"), so it has the type `Int`; the width of the machine is a parameter (R5) and is applied by
`wrap` (Machine/Arith.lean). -/

namespace Sys2Proof

/-- A token is a finite string of characters; the empty one means "absent" (R11). -/
abbrev Token := List Char

end Sys2Proof
end

