-- ==== Sys2Proof/Config.lean ====
section
/-! DEFINITION. The parameters of the hardware (R5) and the free value of what the spec leaves
without a result (93_implementation_defined.md U1, U6; entries 1, 5 and 6). -/

namespace Sys2Proof

/-- The implementation parameters of R5 that a model takes as arguments. They stand in the state
(entry 1), so that a statement about every state is about every value of them. -/
structure Config where
  /-- `XLEN`: the width in bits of every value; `none` is the spec's infinite width (R5, R9). -/
  xlen : Option Nat
  /-- `LSU_DELAY`: the extra cycles a memory instruction spends in stage 2 (R5, R190). -/
  lsuDelay : Nat
  /-- `CYCLE_CAP`: the most cycles the driver runs (R5, R140). -/
  cycleCap : Nat
  /-- `BR_WB_UNCOND`: whether a branch not taken at admission still writes `pc` (R5, R205). -/
  brWbUncond : Bool
deriving DecidableEq, Repr

/-- The values R5 gives: 32 bits, one cycle, 10000 cycles, the document's literal text. -/
def Config.standard : Config :=
  { xlen := some 32, lsuDelay := 1, cycleCap := 10000, brWbUncond := true }

/-- `LSU_DELAY` is at least 1 (R5, U9). A finite width has at least one bit (entry 14). -/
def Config.legal (c : Config) : Bool :=
  decide (1 ≤ c.lsuDelay) && decide (c.xlen ≠ some 0)

/-- The value of the k-th use of a result that the spec does not state: nothing constrains it
(DESIGN CHOICE, entries 5 and 6). -/
opaque Config.freeValue : Nat → Int

end Sys2Proof
end

