-- ==== Sys2Proof/Machine/Arith.lean ====
section
/-! DEFINITION. The arithmetic of R9 and R177: exact on the integers, then `wrap`. -/

namespace Sys2Proof

/-- `wrap(v)` of R9: the integer of the `XLEN`-bit signed range that is congruent to `v`; `v` itself
for an infinite width. -/
def wrap (xlen : Option Nat) (v : Int) : Int :=
  match xlen with
  | none => v
  | some n =>
    let r := v % ((2 ^ n : Nat) : Int)
    if r < ((2 ^ (n - 1) : Nat) : Int) then r else r - ((2 ^ n : Nat) : Int)

/-- The value is in the range of `wrap` (R9). -/
abbrev InRange (xlen : Option Nat) (v : Int) : Prop := wrap xlen v = v

/-- Left shift by a non-negative amount (R175): `wrap(v × 2^k)`; at a finite width and an amount of
at least the width "the result is 0". -/
def shiftLeft (xlen : Option Nat) (v : Int) (k : Nat) : Int :=
  match xlen with
  | none => v * ((2 ^ k : Nat) : Int)
  | some n => if n ≤ k then 0 else wrap (some n) (v * ((2 ^ k : Nat) : Int))

/-- Right shift by a non-negative amount (R176): `floor(v / 2^k)`, keeping the sign. -/
def shiftRight (v : Int) (k : Nat) : Int := v >>> k

/-- `slli` for every amount (R175): `none` where the amount is negative and no result is stated
(93_implementation_defined.md U1). -/
def shiftLeftBy (xlen : Option Nat) (v amount : Int) : Option Int :=
  if 0 ≤ amount then some (shiftLeft xlen v amount.toNat) else none

/-- `slri` for every amount (R176): `none` where the amount is negative (U1). -/
def shiftRightBy (v amount : Int) : Option Int :=
  if 0 ≤ amount then some (shiftRight v amount.toNat) else none

end Sys2Proof
end

