-- ==== Sys2Proof/Syntax.lean ====
section
/-! DEFINITION. What an instruction is: register names (R11, R21, R106), operands (R88, R105), the
thirteen rows of the opcode table (R91, R107), and the instruction record of the loader (R80). -/

namespace Sys2Proof

/-- The 19 named registers, `KNOWN` (R11, R21). -/
inductive Reg where
  | pc
  | x0 | x1 | x2 | x3 | x4 | x5
  | t0 | t1 | t2 | t3 | t4 | t5
  | s0 | s1 | s2 | s3 | s4 | s5
deriving DecidableEq, Repr

/-- A register name. Every token may name a register; only 19 of them are known (R11, R28). -/
inductive RegName where
  /-- One of the 19 registers. -/
  | known (r : Reg)
  /-- Number `19 + k` of the binary word: one distinct unknown name each (R106). -/
  | num (k : Fin 13)
  /-- Any other token used as a register name (R25, R26, R82). -/
  | tok (t : Token)
deriving DecidableEq, Repr

/-- An operand: a token after the classifier of R88, and one of the kinds of R105. The classes whose
content does not give the token back carry it in `text`, for the rules that take the token itself (R29,
R101, R202); a descriptor of a binary word has no token, and `text` is empty (R107). -/
inductive Operand where
  /-- The empty token. -/
  | absent
  /-- A register-class token (R82). -/
  | reg (n : RegName)
  /-- `off(base)` (R85, R86). -/
  | regOff (off : Int) (base : RegName) (text : Token := [])
  /-- A hexadecimal or decimal literal, before `wrap` (R83, R84, R90). -/
  | imm (v : Int) (text : Token := [])
  /-- A label reference with its `labelAddress` (R44, R87): `none` where it does not resolve. -/
  | label (target : Option Int) (text : Token := [])
deriving DecidableEq, Repr

/-- A member of the reservation set, "keyed by name string": any token is a name (R29, R101). -/
inductive ResName where
  /-- A name string, or an unknown number of a binary word, "its own name" (R106). -/
  | name (n : RegName)
  /-- A descriptor of a binary word that is no register and has no token (entry 8). -/
  | desc (o : Operand)
deriving DecidableEq, Repr

/-- One constructor per row of spec/opcode_table.json. The three operands are positional: `dst` is
the first whether or not the instruction writes it (R80). -/
inductive Instr where
  | add (dst op1 op2 : Operand)
  | addi (dst op1 op2 : Operand)
  | li (dst op1 op2 : Operand)
  | lw (dst op1 op2 : Operand)
  | slli (dst op1 op2 : Operand)
  | slri (dst op1 op2 : Operand)
  | sub (dst op1 op2 : Operand)
  | sw (dst op1 op2 : Operand)
  | jal (dst op1 op2 : Operand)
  | bge (dst op1 op2 : Operand)
  | ble (dst op1 op2 : Operand)
  /-- Every other mnemonic, binary `opc = 0` (R220). -/
  | other (dst op1 op2 : Operand)
  /-- Binary `opc = 12 + k`, reserved, decoded as "other" (R107). -/
  | otherReserved (k : Fin 4) (dst op1 op2 : Operand)
deriving DecidableEq, Repr

/-- The first operand (R80). -/
def Instr.dst : Instr → Operand
  | .add d _ _ => d
  | .addi d _ _ => d
  | .li d _ _ => d
  | .lw d _ _ => d
  | .slli d _ _ => d
  | .slri d _ _ => d
  | .sub d _ _ => d
  | .sw d _ _ => d
  | .jal d _ _ => d
  | .bge d _ _ => d
  | .ble d _ _ => d
  | .other d _ _ => d
  | .otherReserved _ d _ _ => d

/-- The second operand (R80). -/
def Instr.op1 : Instr → Operand
  | .add _ a _ => a
  | .addi _ a _ => a
  | .li _ a _ => a
  | .lw _ a _ => a
  | .slli _ a _ => a
  | .slri _ a _ => a
  | .sub _ a _ => a
  | .sw _ a _ => a
  | .jal _ a _ => a
  | .bge _ a _ => a
  | .ble _ a _ => a
  | .other _ a _ => a
  | .otherReserved _ _ a _ => a

/-- The third operand (R80). -/
def Instr.op2 : Instr → Operand
  | .add _ _ b => b
  | .addi _ _ b => b
  | .li _ _ b => b
  | .lw _ _ b => b
  | .slli _ _ b => b
  | .slri _ _ b => b
  | .sub _ _ b => b
  | .sw _ _ b => b
  | .jal _ _ b => b
  | .bge _ _ b => b
  | .ble _ _ b => b
  | .other _ _ b => b
  | .otherReserved _ _ _ b => b

/-- The loader's input, "(rawText, label?, mnemonic, dst?, op1?, op2?)" (R80). -/
structure RawRecord where
  text : Token
  label : Option Token
  mn : Token
  dst : Option Token
  op1 : Option Token
  op2 : Option Token
deriving DecidableEq, Repr

/-- The instruction record of R80, normalised as R81 says. -/
structure Record where
  text : Token
  label : Token
  mn : Token
  dst : Token
  op1 : Token
  op2 : Token
  /-- The 1-based sequence id (R98). -/
  id : Nat
deriving DecidableEq, Repr

/-- One index of the instruction buffer: a record (R80), or the binary word of one with the text
that a side table gives it (R104). -/
inductive Slot where
  | record (r : Record)
  | word (w : Nat) (text : Token)
deriving DecidableEq, Repr

end Sys2Proof
end

