-- ==== Sys2Proof/WellFormed.lean ====
section
/-! DEFINITION. The static check `WF` of R100 on the abstract record, and which instructions have a
binary word (R104 to R106). -/

namespace Sys2Proof

/-- The operand has class REG (R100). -/
def Operand.isReg : Operand → Bool
  | .reg _ => true
  | .absent => false
  | .regOff _ _ _ => false
  | .imm _ _ => false
  | .label _ _ => false

/-- The operand has class REGOFF (R100). -/
def Operand.isRegOff : Operand → Bool
  | .regOff _ _ _ => true
  | .absent => false
  | .reg _ => false
  | .imm _ _ => false
  | .label _ _ => false

/-- The operand has class DEC or HEX (R100). -/
def Operand.isImm : Operand → Bool
  | .imm _ _ => true
  | .absent => false
  | .reg _ => false
  | .regOff _ _ _ => false
  | .label _ _ => false

/-- The operand has class LABEL and resolves (R100). -/
def Operand.isTarget : Operand → Bool
  | .label t _ => t.isSome
  | .absent => false
  | .reg _ => false
  | .regOff _ _ _ => false
  | .imm _ _ => false

/-- `EVAL(tok)` of R100: the operand has a value. -/
def Operand.eval : Operand → Bool
  | .reg _ => true
  | .regOff _ _ _ => true
  | .imm _ _ => true
  | .label t _ => t.isSome
  | .absent => false

/-- `WF(I)` of R100. -/
def Instr.wf : Instr → Bool
  | .li d a _ => d.isReg && a.eval
  | .add d a b => d.isReg && a.eval && b.eval
  | .addi d a b => d.isReg && a.eval && b.eval
  | .sub d a b => d.isReg && a.eval && b.eval
  | .slli d a b => d.isReg && a.eval && b.eval
  | .slri d a b => d.isReg && a.eval && b.eval
  | .lw d a _ => d.isReg && a.eval
  | .sw d a _ => d.eval && !d.isRegOff && a.eval
  | .jal d a _ => d.isReg && a.eval
  | .bge d a b => d.isReg && a.isImm && b.isTarget
  | .ble d a b => d.isReg && a.isImm && b.isTarget
  | .other _ _ _ => true
  | .otherReserved _ _ _ _ => true

/-- The name has a register number (R106): every name but a loader's unknown token. -/
def RegName.numbered : RegName → Bool
  | .known _ => true
  | .num _ => true
  | .tok _ => false

/-- `v` is a two's-complement value of `n` bits (R105). -/
def fitsVal (n : Nat) (v : Int) : Bool :=
  decide (-((2 ^ (n - 1) : Nat) : Int) ≤ v) && decide (v < ((2 ^ (n - 1) : Nat) : Int))

/-- The operand has a descriptor at width `n` that says all of it (R105): its name has a number, its value
fits, and it carries no token, of which a descriptor has no image (R107). -/
def Operand.encodable (n : Nat) : Operand → Bool
  | .absent => true
  | .reg m => m.numbered
  | .regOff off m text => m.numbered && fitsVal n off && text.isEmpty
  | .imm v text => fitsVal n v && text.isEmpty
  | .label none text => text.isEmpty
  | .label (some t) text => fitsVal n t && text.isEmpty

/-- The instruction has a binary word at width `n` that says all of it (R104). -/
def Instr.encodable (n : Nat) (i : Instr) : Bool :=
  i.dst.encodable n && i.op1.encodable n && i.op2.encodable n

end Sys2Proof
end

