-- ==== Sys2Proof/Decode.lean ====
section
/-! DEFINITION. The binary instruction word (R104 to R107): its fields, the decoder, total on every
word and rejecting by name, and the encoder. `n` is a finite `XLEN`; the table's words are those of
`n = 32`. -/

namespace Sys2Proof

/-- Why a slot of the buffer has no instruction. -/
inductive DecodeError where
  /-- A descriptor of kind 6 or 7: reserved, not well-formed (R105, U7). -/
  | reservedKind (kind : Nat)
  /-- A bit above the three descriptors is not 0: not well-formed (R104, U7). -/
  | nonzeroTop
  /-- There is no binary word at an infinite width (R104). -/
  | noBinaryWord
  /-- A record with an empty mnemonic: `append` never puts one into the buffer (R96). -/
  | emptyMnemonic
deriving DecidableEq, Repr

/-- The width of a descriptor, `8 + XLEN` (R105). -/
def descBits (n : Nat) : Nat := 8 + n

/-- `w[lo + len - 1 : lo]` as an unsigned integer (R10). -/
def bitField (w lo len : Nat) : Nat := w / 2 ^ lo % 2 ^ len

/-- Where a descriptor's bit 0 stands: 4 for `D`, then one descriptor further each (R104). -/
def descLo (n : Nat) (k : Nat) : Nat := 4 + k * descBits n

/-- The register a number stands for (R106). -/
def regOfNumber (k : Nat) : RegName :=
  match k with
  | 0 => .known .pc
  | 1 => .known .x0
  | 2 => .known .x1
  | 3 => .known .x2
  | 4 => .known .x3
  | 5 => .known .x4
  | 6 => .known .x5
  | 7 => .known .t0
  | 8 => .known .t1
  | 9 => .known .t2
  | 10 => .known .t3
  | 11 => .known .t4
  | 12 => .known .t5
  | 13 => .known .s0
  | 14 => .known .s1
  | 15 => .known .s2
  | 16 => .known .s3
  | 17 => .known .s4
  | 18 => .known .s5
  | k + 19 => .num (Fin.ofNat 13 k)

/-- `sext` of a `val` subfield (R10, R105). -/
def sextVal (n : Nat) (v : Nat) : Int := wrap (some n) (v : Int)

/-- The operand that a descriptor describes (R105): `kind` in bits 2..0, `reg` in bits 7..3, `val`
above. A subfield the kind does not use is not looked at (entry 9). -/
def decodeOperand (n : Nat) (desc : Nat) : Except DecodeError Operand :=
  let kind := bitField desc 0 3
  let reg := bitField desc 3 5
  let val := bitField desc 8 n
  match kind with
  | 0 => .ok .absent
  | 1 => .ok (.reg (regOfNumber reg))
  | 2 => .ok (.regOff (sextVal n val) (regOfNumber reg))
  | 3 => .ok (.imm (sextVal n val))
  | 4 => .ok (.label (some (sextVal n val)))
  | 5 => .ok (.label none)
  | k + 6 => .error (.reservedKind (k + 6))

/-- The instruction of an opcode number (R107): 12 to 15 are reserved and decode as "other". -/
def instrOfOpc (opc : Nat) (d a b : Operand) : Instr :=
  match opc with
  | 0 => .other d a b
  | 1 => .add d a b
  | 2 => .addi d a b
  | 3 => .li d a b
  | 4 => .lw d a b
  | 5 => .slli d a b
  | 6 => .slri d a b
  | 7 => .sub d a b
  | 8 => .sw d a b
  | 9 => .jal d a b
  | 10 => .bge d a b
  | 11 => .ble d a b
  | k + 12 => .otherReserved (Fin.ofNat 4 k) d a b

/-- The instruction of a binary word at width `n` (R104, R107). -/
def decodeWord (n : Nat) (w : Nat) : Except DecodeError Instr :=
  if w / 2 ^ descLo n 3 ≠ 0 then .error .nonzeroTop
  else
    match decodeOperand n (bitField w (descLo n 0) (descBits n)) with
    | .error e => .error e
    | .ok d =>
      match decodeOperand n (bitField w (descLo n 1) (descBits n)) with
      | .error e => .error e
      | .ok a =>
        match decodeOperand n (bitField w (descLo n 2) (descBits n)) with
        | .error e => .error e
        | .ok b => .ok (instrOfOpc (bitField w 0 4) d a b)

/-- The number of a known register (R106). -/
def Reg.number : Reg → Nat
  | .pc => 0
  | .x0 => 1
  | .x1 => 2
  | .x2 => 3
  | .x3 => 4
  | .x4 => 5
  | .x5 => 6
  | .t0 => 7
  | .t1 => 8
  | .t2 => 9
  | .t3 => 10
  | .t4 => 11
  | .t5 => 12
  | .s0 => 13
  | .s1 => 14
  | .s2 => 15
  | .s3 => 16
  | .s4 => 17
  | .s5 => 18

/-- The number of a register name (R106); an unknown token has none, the assembler numbers it first
(Machine/Loader.lean). -/
def RegName.number : RegName → Nat
  | .known r => r.number
  | .num k => 19 + k.val
  | .tok _ => 31

/-- The `val` subfield of a value (R105): its two's-complement bits. -/
def valBits (n : Nat) (v : Int) : Nat := (v % ((2 ^ n : Nat) : Int)).toNat

/-- A descriptor from its three subfields (R105). -/
def packDesc (kind reg val : Nat) : Nat := kind + 8 * reg + 256 * val

/-- The descriptor of an operand (R105). -/
def encodeOperand (n : Nat) : Operand → Nat
  | .absent => 0
  | .reg m => packDesc 1 m.number 0
  | .regOff off m _ => packDesc 2 m.number (valBits n off)
  | .imm v _ => packDesc 3 0 (valBits n v)
  | .label (some t) _ => packDesc 4 0 (valBits n t)
  | .label none _ => packDesc 5 0 0

/-- The opcode number of an instruction (R107). -/
def Instr.opc : Instr → Nat
  | .other _ _ _ => 0
  | .add _ _ _ => 1
  | .addi _ _ _ => 2
  | .li _ _ _ => 3
  | .lw _ _ _ => 4
  | .slli _ _ _ => 5
  | .slri _ _ _ => 6
  | .sub _ _ _ => 7
  | .sw _ _ _ => 8
  | .jal _ _ _ => 9
  | .bge _ _ _ => 10
  | .ble _ _ _ => 11
  | .otherReserved k _ _ _ => 12 + k.val

/-- The binary word of an instruction at width `n` (R104). -/
def encode (n : Nat) (i : Instr) : Nat :=
  i.opc + 2 ^ descLo n 0 * encodeOperand n i.dst + 2 ^ descLo n 1 * encodeOperand n i.op1
    + 2 ^ descLo n 2 * encodeOperand n i.op2

/-- The decoder on a word of the opcode table: `nbits` bits of `w`, every further bit of the 128 is 0.
`none` where the decoder refuses, and where `w` is not a number of `nbits` bits or `nbits` is more
than the word has. -/
def decodeTableWord (nbits w : Nat) : Option Instr :=
  if 128 < nbits ∨ 2 ^ nbits ≤ w then none
  else
    match decodeWord 32 w with
    | .ok i => some i
    | .error _ => none

end Sys2Proof
end

