-- ==== Sys2Proof/Machine/CaseFold.lean ====
section
/-! DEFINITION. The case folding of R81, letter by letter: the simple lower-case mapping of Unicode 14.0
as runs of codes (entry 20). -/

namespace Sys2Proof

/-- The codes `first`, `first + step`, ..., `last`, each with a lower-case form at the code
`n + up - down`. -/
structure CaseRun where
  first : Nat
  last : Nat
  step : Nat
  up : Nat
  down : Nat
deriving DecidableEq, Repr

/-- The run holds this code. -/
def CaseRun.covers (r : CaseRun) (n : Nat) : Bool :=
  Nat.ble r.first n && Nat.ble n r.last && Nat.beq ((n - r.first) % r.step) 0

/-- The lower-case form of a code of the run. -/
def CaseRun.image (r : CaseRun) (n : Nat) : Nat := n + r.up - r.down

/-- The runs from code 192 to 494. -/
def caseRunsA : List CaseRun := [
  ⟨192, 214, 1, 32, 0⟩, ⟨216, 222, 1, 32, 0⟩, ⟨256, 302, 2, 1, 0⟩, ⟨304, 304, 2, 0, 199⟩,
  ⟨306, 310, 2, 1, 0⟩, ⟨313, 327, 2, 1, 0⟩, ⟨330, 374, 2, 1, 0⟩, ⟨376, 376, 2, 0, 121⟩,
  ⟨377, 381, 2, 1, 0⟩, ⟨385, 385, 2, 210, 0⟩, ⟨386, 388, 2, 1, 0⟩, ⟨390, 390, 2, 206, 0⟩,
  ⟨391, 391, 2, 1, 0⟩, ⟨393, 394, 1, 205, 0⟩, ⟨395, 395, 2, 1, 0⟩, ⟨398, 398, 2, 79, 0⟩,
  ⟨399, 399, 2, 202, 0⟩, ⟨400, 400, 2, 203, 0⟩, ⟨401, 401, 2, 1, 0⟩, ⟨403, 403, 2, 205, 0⟩,
  ⟨404, 404, 2, 207, 0⟩, ⟨406, 406, 2, 211, 0⟩, ⟨407, 407, 2, 209, 0⟩, ⟨408, 408, 2, 1, 0⟩,
  ⟨412, 412, 2, 211, 0⟩, ⟨413, 413, 2, 213, 0⟩, ⟨415, 415, 2, 214, 0⟩, ⟨416, 420, 2, 1, 0⟩,
  ⟨422, 422, 2, 218, 0⟩, ⟨423, 423, 2, 1, 0⟩, ⟨425, 425, 2, 218, 0⟩, ⟨428, 428, 2, 1, 0⟩,
  ⟨430, 430, 2, 218, 0⟩, ⟨431, 431, 2, 1, 0⟩, ⟨433, 434, 1, 217, 0⟩, ⟨435, 437, 2, 1, 0⟩,
  ⟨439, 439, 2, 219, 0⟩, ⟨440, 440, 2, 1, 0⟩, ⟨444, 444, 2, 1, 0⟩, ⟨452, 452, 2, 2, 0⟩,
  ⟨453, 453, 2, 1, 0⟩, ⟨455, 455, 2, 2, 0⟩, ⟨456, 456, 2, 1, 0⟩, ⟨458, 458, 2, 2, 0⟩,
  ⟨459, 475, 2, 1, 0⟩, ⟨478, 494, 2, 1, 0⟩]

/-- The runs from code 497 to 7354. -/
def caseRunsB : List CaseRun := [
  ⟨497, 497, 2, 2, 0⟩, ⟨498, 500, 2, 1, 0⟩, ⟨502, 502, 2, 0, 97⟩, ⟨503, 503, 2, 0, 56⟩,
  ⟨504, 542, 2, 1, 0⟩, ⟨544, 544, 2, 0, 130⟩, ⟨546, 562, 2, 1, 0⟩, ⟨570, 570, 2, 10795, 0⟩,
  ⟨571, 571, 2, 1, 0⟩, ⟨573, 573, 2, 0, 163⟩, ⟨574, 574, 2, 10792, 0⟩, ⟨577, 577, 2, 1, 0⟩,
  ⟨579, 579, 2, 0, 195⟩, ⟨580, 580, 2, 69, 0⟩, ⟨581, 581, 2, 71, 0⟩, ⟨582, 590, 2, 1, 0⟩,
  ⟨880, 882, 2, 1, 0⟩, ⟨886, 886, 2, 1, 0⟩, ⟨895, 895, 2, 116, 0⟩, ⟨902, 902, 2, 38, 0⟩,
  ⟨904, 906, 1, 37, 0⟩, ⟨908, 908, 2, 64, 0⟩, ⟨910, 911, 1, 63, 0⟩, ⟨913, 929, 1, 32, 0⟩,
  ⟨931, 939, 1, 32, 0⟩, ⟨975, 975, 2, 8, 0⟩, ⟨984, 1006, 2, 1, 0⟩, ⟨1012, 1012, 2, 0, 60⟩,
  ⟨1015, 1015, 2, 1, 0⟩, ⟨1017, 1017, 2, 0, 7⟩, ⟨1018, 1018, 2, 1, 0⟩, ⟨1021, 1023, 1, 0, 130⟩,
  ⟨1024, 1039, 1, 80, 0⟩, ⟨1040, 1071, 1, 32, 0⟩, ⟨1120, 1152, 2, 1, 0⟩, ⟨1162, 1214, 2, 1, 0⟩,
  ⟨1216, 1216, 2, 15, 0⟩, ⟨1217, 1229, 2, 1, 0⟩, ⟨1232, 1326, 2, 1, 0⟩, ⟨1329, 1366, 1, 48, 0⟩,
  ⟨4256, 4293, 1, 7264, 0⟩, ⟨4295, 4295, 2, 7264, 0⟩, ⟨4301, 4301, 2, 7264, 0⟩,
  ⟨5024, 5103, 1, 38864, 0⟩, ⟨5104, 5109, 1, 8, 0⟩, ⟨7312, 7354, 1, 0, 3008⟩]

/-- The runs from code 7357 to 11381. -/
def caseRunsC : List CaseRun := [
  ⟨7357, 7359, 1, 0, 3008⟩, ⟨7680, 7828, 2, 1, 0⟩, ⟨7838, 7838, 2, 0, 7615⟩, ⟨7840, 7934, 2, 1, 0⟩,
  ⟨7944, 7951, 1, 0, 8⟩, ⟨7960, 7965, 1, 0, 8⟩, ⟨7976, 7983, 1, 0, 8⟩, ⟨7992, 7999, 1, 0, 8⟩,
  ⟨8008, 8013, 1, 0, 8⟩, ⟨8025, 8031, 2, 0, 8⟩, ⟨8040, 8047, 1, 0, 8⟩, ⟨8072, 8079, 1, 0, 8⟩,
  ⟨8088, 8095, 1, 0, 8⟩, ⟨8104, 8111, 1, 0, 8⟩, ⟨8120, 8121, 1, 0, 8⟩, ⟨8122, 8123, 1, 0, 74⟩,
  ⟨8124, 8124, 2, 0, 9⟩, ⟨8136, 8139, 1, 0, 86⟩, ⟨8140, 8140, 2, 0, 9⟩, ⟨8152, 8153, 1, 0, 8⟩,
  ⟨8154, 8155, 1, 0, 100⟩, ⟨8168, 8169, 1, 0, 8⟩, ⟨8170, 8171, 1, 0, 112⟩, ⟨8172, 8172, 2, 0, 7⟩,
  ⟨8184, 8185, 1, 0, 128⟩, ⟨8186, 8187, 1, 0, 126⟩, ⟨8188, 8188, 2, 0, 9⟩, ⟨8486, 8486, 2, 0, 7517⟩,
  ⟨8490, 8490, 2, 0, 8383⟩, ⟨8491, 8491, 2, 0, 8262⟩, ⟨8498, 8498, 2, 28, 0⟩, ⟨8544, 8559, 1, 16, 0⟩,
  ⟨8579, 8579, 2, 1, 0⟩, ⟨9398, 9423, 1, 26, 0⟩, ⟨11264, 11311, 1, 48, 0⟩, ⟨11360, 11360, 2, 1, 0⟩,
  ⟨11362, 11362, 2, 0, 10743⟩, ⟨11363, 11363, 2, 0, 3814⟩, ⟨11364, 11364, 2, 0, 10727⟩,
  ⟨11367, 11371, 2, 1, 0⟩, ⟨11373, 11373, 2, 0, 10780⟩, ⟨11374, 11374, 2, 0, 10749⟩,
  ⟨11375, 11375, 2, 0, 10783⟩, ⟨11376, 11376, 2, 0, 10782⟩, ⟨11378, 11378, 2, 1, 0⟩,
  ⟨11381, 11381, 2, 1, 0⟩]

/-- The runs from code 11390 to 125217. -/
def caseRunsD : List CaseRun := [
  ⟨11390, 11391, 1, 0, 10815⟩, ⟨11392, 11490, 2, 1, 0⟩, ⟨11499, 11501, 2, 1, 0⟩,
  ⟨11506, 11506, 2, 1, 0⟩, ⟨42560, 42604, 2, 1, 0⟩, ⟨42624, 42650, 2, 1, 0⟩, ⟨42786, 42798, 2, 1, 0⟩,
  ⟨42802, 42862, 2, 1, 0⟩, ⟨42873, 42875, 2, 1, 0⟩, ⟨42877, 42877, 2, 0, 35332⟩,
  ⟨42878, 42886, 2, 1, 0⟩, ⟨42891, 42891, 2, 1, 0⟩, ⟨42893, 42893, 2, 0, 42280⟩,
  ⟨42896, 42898, 2, 1, 0⟩, ⟨42902, 42920, 2, 1, 0⟩, ⟨42922, 42922, 2, 0, 42308⟩,
  ⟨42923, 42923, 2, 0, 42319⟩, ⟨42924, 42924, 2, 0, 42315⟩, ⟨42925, 42925, 2, 0, 42305⟩,
  ⟨42926, 42926, 2, 0, 42308⟩, ⟨42928, 42928, 2, 0, 42258⟩, ⟨42929, 42929, 2, 0, 42282⟩,
  ⟨42930, 42930, 2, 0, 42261⟩, ⟨42931, 42931, 2, 928, 0⟩, ⟨42932, 42946, 2, 1, 0⟩,
  ⟨42948, 42948, 2, 0, 48⟩, ⟨42949, 42949, 2, 0, 42307⟩, ⟨42950, 42950, 2, 0, 35384⟩,
  ⟨42951, 42953, 2, 1, 0⟩, ⟨42960, 42960, 2, 1, 0⟩, ⟨42966, 42968, 2, 1, 0⟩, ⟨42997, 42997, 2, 1, 0⟩,
  ⟨65313, 65338, 1, 32, 0⟩, ⟨66560, 66599, 1, 40, 0⟩, ⟨66736, 66771, 1, 40, 0⟩,
  ⟨66928, 66938, 1, 39, 0⟩, ⟨66940, 66954, 1, 39, 0⟩, ⟨66956, 66962, 1, 39, 0⟩,
  ⟨66964, 66965, 1, 39, 0⟩, ⟨68736, 68786, 1, 64, 0⟩, ⟨71840, 71871, 1, 32, 0⟩,
  ⟨93760, 93791, 1, 32, 0⟩, ⟨125184, 125217, 1, 34, 0⟩]

/-- Every run beyond ASCII, rising. -/
def caseRuns : List CaseRun := caseRunsA ++ caseRunsB ++ caseRunsC ++ caseRunsD

/-- The code of the lower-case form of a letter, and the code itself where it has none (R81): A to Z in
ASCII, the runs beyond it. -/
def lowerCode (n : Nat) : Nat :=
  if n < 128 then (if 65 ≤ n ∧ n ≤ 90 then n + 32 else n)
  else
    match caseRuns.find? (fun r => r.covers n) with
    | some r => r.image n
    | none => n

/-- The lower-case form of a character (R81). -/
def lowerChar (c : Char) : Char := Char.ofNat (lowerCode c.toNat)

/-- A token after R81. -/
def lowerToken (t : Token) : Token := t.map lowerChar

end Sys2Proof
end

