-- ==== Sys2Proof/Machine/Tokens.lean ====
section
/-! DEFINITION. The operand classifier and the decoding of an instruction record (R81 to R91): from
tokens to the operands and the instruction of Syntax.lean, and back from an operand to its token and to
the name it is in the reservation set (R29). -/

namespace Sys2Proof

/-- `[0-9]`. -/
def isDigitChar (c : Char) : Bool := decide (48 ≤ c.toNat) && decide (c.toNat ≤ 57)

/-- `[a-z]`. -/
def isLowerChar (c : Char) : Bool := decide (97 ≤ c.toNat) && decide (c.toNat ≤ 122)

/-- `[0-9a-f]`. -/
def isHexChar (c : Char) : Bool := isDigitChar c || (decide (97 ≤ c.toNat) && decide (c.toNat ≤ 102))

/-- `isRegister(tok)` (R82): `pc`, or one of t, x, s followed by one or more digits. -/
def isRegister : Token → Bool
  | [] => false
  | ['p', 'c'] => true
  | c :: ds => (c = 't' || c = 'x' || c = 's') && !ds.isEmpty && ds.all isDigitChar

/-- `isDecimalImmediate(tok)` (R83). -/
def isDecimalImmediate (t : Token) : Bool := !t.isEmpty && t.all isDigitChar

/-- `isHexImmediate(tok)` (R84). -/
def isHexImmediate : Token → Bool
  | '0' :: 'x' :: ds => !ds.isEmpty && ds.all isHexChar
  | _ => false

/-- The value of a digit in base 10 or 16 (R90). -/
def digitValue (c : Char) : Nat := if isDigitChar c then c.toNat - 48 else c.toNat - 87

/-- The value of a digit string in a base (R90). -/
def digitsValue (base : Nat) (ds : Token) : Nat := ds.foldl (fun v c => v * base + digitValue c) 0

/-- An identifier of R85: `[a-z_][a-z0-9_]*`. -/
def isIdentifier : Token → Bool
  | [] => false
  | c :: cs => (isLowerChar c || c = '_') && cs.all (fun x => isLowerChar x || isDigitChar x || x = '_')

/-- The minus sign in front of an offset, if any, and the rest (R85). -/
def splitSign : Token → Bool × Token
  | '-' :: t => (true, t)
  | t => (false, t)

/-- The identifier between the parentheses, where the token is `(` identifier `)` (R85). -/
def parenthesised : Token → Option Token
  | '(' :: r =>
    match r.reverse with
    | ')' :: rev => if isIdentifier rev.reverse then some rev.reverse else none
    | _ => none
  | _ => none

/-- `parseRegisterOffset(tok)` (R86), and with it `isRegisterOffset(tok)` (R85): `none` for a token
that does not match. -/
def parseRegisterOffset (t : Token) : Option (Int × Token) :=
  let body := (splitSign t).2
  let ds := body.takeWhile isDigitChar
  if ds.isEmpty then none
  else
    match parenthesised (body.dropWhile isDigitChar) with
    | none => none
    | some base =>
      let v : Int := (digitsValue 10 ds : Int)
      some (if (splitSign t).1 then -v else v, base)

/-- `isRegisterOffset(tok)` (R85). -/
def isRegisterOffset (t : Token) : Bool := (parseRegisterOffset t).isSome

/-- The register name a token is (R21): one of the 19 names, compared as strings (R82), or any other
token. -/
def regNameOf (t : Token) : RegName :=
  match t with
  | ['p', 'c'] => .known .pc
  | ['x', '0'] => .known .x0
  | ['x', '1'] => .known .x1
  | ['x', '2'] => .known .x2
  | ['x', '3'] => .known .x3
  | ['x', '4'] => .known .x4
  | ['x', '5'] => .known .x5
  | ['t', '0'] => .known .t0
  | ['t', '1'] => .known .t1
  | ['t', '2'] => .known .t2
  | ['t', '3'] => .known .t3
  | ['t', '4'] => .known .t4
  | ['t', '5'] => .known .t5
  | ['s', '0'] => .known .s0
  | ['s', '1'] => .known .s1
  | ['s', '2'] => .known .s2
  | ['s', '3'] => .known .s3
  | ['s', '4'] => .known .s4
  | ['s', '5'] => .known .s5
  | _ => .tok t

/-- `labelAddress(l)` (R44): case-insensitive, `none` if absent. -/
def labelAddress (lbl : List (Token × Nat)) (l : Token) : Option Int :=
  (lbl.lookup (lowerToken l)).map (fun j => (j : Int))

/-- `class(tok)` (R88) with what the class carries: register, register-offset, hex, decimal, label, in
this order, the first match wins. -/
def operandOf (lbl : List (Token × Nat)) (t : Token) : Operand :=
  if t.isEmpty then .absent
  else if isRegister t then .reg (regNameOf t)
  else
    match parseRegisterOffset t with
    | some (off, base) => .regOff off (regNameOf base) t
    | none =>
      if isHexImmediate t then .imm (digitsValue 16 (t.drop 2) : Int) t
      else if isDecimalImmediate t then .imm (digitsValue 10 t : Int) t
      else .label (labelAddress lbl t) t

/-! ### From an operand back to its token -/

/-- The name of a register (R21). -/
def Reg.token : Reg → Token
  | .pc => ['p', 'c']
  | .x0 => ['x', '0']
  | .x1 => ['x', '1']
  | .x2 => ['x', '2']
  | .x3 => ['x', '3']
  | .x4 => ['x', '4']
  | .x5 => ['x', '5']
  | .t0 => ['t', '0']
  | .t1 => ['t', '1']
  | .t2 => ['t', '2']
  | .t3 => ['t', '3']
  | .t4 => ['t', '4']
  | .t5 => ['t', '5']
  | .s0 => ['s', '0']
  | .s1 => ['s', '1']
  | .s2 => ['s', '2']
  | .s3 => ['s', '3']
  | .s4 => ['s', '4']
  | .s5 => ['s', '5']

/-- The name string of a register name; an unknown number of a binary word has none (R106). -/
def RegName.token : RegName → Option Token
  | .known r => some r.token
  | .tok t => some t
  | .num _ => none

/-- The token of a class that carries it: a descriptor of a binary word has none (R107). -/
def carriedToken (text : Token) : Option Token := if text.isEmpty then none else some text

/-- The token an operand was written with, if it was written (R80, R88). -/
def Operand.token : Operand → Option Token
  | .absent => some []
  | .reg n => n.token
  | .regOff _ _ text => carriedToken text
  | .imm _ text => carriedToken text
  | .label _ text => carriedToken text

/-- The name of an operand in the reservation set: its token (R29, R101). A binary word's register is its
number's name (R106); its other descriptors stand for themselves (entry 8). -/
def nameOf (o : Operand) : ResName :=
  match o with
  | .reg n => .name n
  | .absent | .regOff _ _ _ | .imm _ _ | .label _ _ =>
    match o.token with
    | some t => .name (regNameOf t)
    | none => .desc o

/-- The instruction a mnemonic selects (R91): string equality with one of eleven names, otherwise the
class "other". -/
def instrOfMnemonic (mn : Token) (d a b : Operand) : Instr :=
  match mn with
  | ['a', 'd', 'd'] => .add d a b
  | ['a', 'd', 'd', 'i'] => .addi d a b
  | ['l', 'i'] => .li d a b
  | ['l', 'w'] => .lw d a b
  | ['s', 'l', 'l', 'i'] => .slli d a b
  | ['s', 'l', 'r', 'i'] => .slri d a b
  | ['s', 'u', 'b'] => .sub d a b
  | ['s', 'w'] => .sw d a b
  | ['j', 'a', 'l'] => .jal d a b
  | ['b', 'g', 'e'] => .bge d a b
  | ['b', 'l', 'e'] => .ble d a b
  | _ => .other d a b

/-- The instruction of a record, its labels resolved (R88, R91, R97 (f)). -/
def decodeRecord (lbl : List (Token × Nat)) (r : Record) : Except DecodeError Instr :=
  if r.mn.isEmpty then .error .emptyMnemonic
  else .ok (instrOfMnemonic r.mn (operandOf lbl r.dst) (operandOf lbl r.op1) (operandOf lbl r.op2))

/-- The instruction of a slot of the buffer: of its record, or of its binary word at the width the
machine has (R107). -/
def slotInstr (xlen : Option Nat) (lbl : List (Token × Nat)) : Slot → Except DecodeError Instr
  | .record r => decodeRecord lbl r
  | .word w _ =>
    match xlen with
    | some n => decodeWord n w
    | none => .error .noBinaryWord

end Sys2Proof
end

