-- ==== Sys2Proof/Machine/Image.lean ====
section
/-! DEFINITION. The binary word of a record (R104 to R107): the numbers the assembler gives to the unknown
names of a program, and a record's instruction with its names numbered and its values wrapped. -/

namespace Sys2Proof.Machine

/-- The unknown register name of an operand, if it has one (R106). -/
def unknownName (o : Operand) : List Token :=
  match o with
  | .reg (.tok t) => [t]
  | .regOff _ (.tok t) _ => [t]
  | _ => []

/-- The distinct unknown names in order of first appearance, operand by operand (R106, entry 26). -/
def unknownNames (is : List Instr) : List Token :=
  (is.flatMap (fun i => unknownName i.dst ++ unknownName i.op1 ++ unknownName i.op2)).foldl
    (fun acc t => if t ∈ acc then acc else acc ++ [t]) []

/-- An unknown name gets its number (R106). -/
def numberName (names : List Token) (n : RegName) : RegName :=
  match n with
  | .tok t => .num (Fin.ofNat 13 (names.idxOf t))
  | .known r => .known r
  | .num k => .num k

/-- The operand as a descriptor has it: its name numbered, its value brought into the width, its token left
out (R90, R105, R107). -/
def numberOperand (n : Nat) (names : List Token) (o : Operand) : Operand :=
  match o with
  | .reg m => .reg (numberName names m)
  | .regOff off m _ => .regOff (wrap (some n) off) (numberName names m)
  | .imm v _ => .imm (wrap (some n) v)
  | .label (some t) _ => .label (some (wrap (some n) t))
  | .label none _ => .label none
  | .absent => .absent

/-- Replace the operands of an instruction, keeping its row. -/
def mapOperands (f : Operand → Operand) : Instr → Instr
  | .add d a b => .add (f d) (f a) (f b)
  | .addi d a b => .addi (f d) (f a) (f b)
  | .li d a b => .li (f d) (f a) (f b)
  | .lw d a b => .lw (f d) (f a) (f b)
  | .slli d a b => .slli (f d) (f a) (f b)
  | .slri d a b => .slri (f d) (f a) (f b)
  | .sub d a b => .sub (f d) (f a) (f b)
  | .sw d a b => .sw (f d) (f a) (f b)
  | .jal d a b => .jal (f d) (f a) (f b)
  | .bge d a b => .bge (f d) (f a) (f b)
  | .ble d a b => .ble (f d) (f a) (f b)
  | .other d a b => .other (f d) (f a) (f b)
  | .otherReserved k d a b => .otherReserved k (f d) (f a) (f b)

/-- A program whose unknown names are these has a binary image: they are at most 13 (R106, U8). -/
def hasImage (names : List Token) : Bool := decide (names.length ≤ 13)

/-- The word of an instruction in a program whose unknown names are these (R104 to R106). -/
def imageWord (n : Nat) (names : List Token) (i : Instr) : Nat := encode n (mapOperands (numberOperand n names) i)

end Sys2Proof.Machine
end

