-- ==== Sys2Proof/Machine/Flags.lean ====
section
/-! DEFINITION. The behaviour flags of R92. The machine has no status flags and no condition codes
(R41): these three are static attributes of a mnemonic, and the only flags of the spec. -/

namespace Sys2Proof

/-- `writesBackRegister` (R92). -/
def Instr.wb : Instr → Bool
  | .add _ _ _ => true
  | .addi _ _ _ => true
  | .li _ _ _ => true
  | .slli _ _ _ => true
  | .slri _ _ _ => true
  | .sub _ _ _ => true
  | .lw _ _ _ => true
  | .sw _ _ _ => false
  | .jal _ _ _ => false
  | .bge _ _ _ => false
  | .ble _ _ _ => false
  | .other _ _ _ => false
  | .otherReserved _ _ _ _ => false

/-- `isMemoryStore` (R92). -/
def Instr.st : Instr → Bool
  | .sw _ _ _ => true
  | .add _ _ _ => false
  | .addi _ _ _ => false
  | .li _ _ _ => false
  | .slli _ _ _ => false
  | .slri _ _ _ => false
  | .sub _ _ _ => false
  | .lw _ _ _ => false
  | .jal _ _ _ => false
  | .bge _ _ _ => false
  | .ble _ _ _ => false
  | .other _ _ _ => false
  | .otherReserved _ _ _ _ => false

/-- `isMemoryLoad` (R92). -/
def Instr.ld : Instr → Bool
  | .lw _ _ _ => true
  | .add _ _ _ => false
  | .addi _ _ _ => false
  | .li _ _ _ => false
  | .slli _ _ _ => false
  | .slri _ _ _ => false
  | .sub _ _ _ => false
  | .sw _ _ _ => false
  | .jal _ _ _ => false
  | .bge _ _ _ => false
  | .ble _ _ _ => false
  | .other _ _ _ => false
  | .otherReserved _ _ _ _ => false

end Sys2Proof
end

