-- ==== Sys2Proof/Machine/State.lean ====
section
/-! DEFINITION. The state of the machine (R20), whole and as plain data, the reasons a step can stop,
and the state after reset (R47). -/

namespace Sys2Proof.Machine

/-- A decoded instruction (R35): a handle to a slot of the buffer and the state of one traversal. A
value field is `none` where the spec writes `⊥` (R36). -/
structure Decoded where
  /-- The handle: the buffer index. -/
  idx : Int
  dstV : Option Int
  op1V : Option Int
  op2V : Option Int
  /-- "pending memory value": what a load read. -/
  memV : Option Int
  /-- "computed result". -/
  res : Option Int
  /-- The names reserved on its behalf. -/
  reserved : List ResName
  /-- Set while a memory access is counting down. -/
  stalled : Bool
deriving DecidableEq, Repr

/-- Where in the pipe a meaning is called: the plug-in points of R127 and the operand fetch of R132. -/
inductive Point where
  /-- Step N1 admits the instruction (R126). -/
  | atAdmission
  /-- Step P1 reads its operands (R132). -/
  | atOperands
  /-- Step P2 does its stage 2 work (R130, R131). -/
  | atExecute
  /-- Step P3 commits and retires it (R129). -/
  | atCommit
deriving DecidableEq, Repr

/-- What the core sends to its sinks. -/
inductive Event where
  /-- The clock signal takes a level: 0 at negedge, 1 at posedge (R245). -/
  | clk (level : Bool)
  /-- The retire event: the cycle and the index of the retiring instruction (R244). -/
  | retire (cycle : Nat) (idx : Int)
deriving DecidableEq, Repr

/-- Why the machine stops. The hardware raises no exception (R230): each of these is a stop of the
model where the spec gives no effect. -/
inductive Fault where
  /-- A rule needs a value that is `⊥`: an absent operand or an unresolved label used as a source, an
  address, store data or a target. Raised at the point of use by the stage 2 work and the commit
  actions (93_implementation_defined.md U3). Safe: the model stops. -/
  | noValue
  /-- A latch holds a handle outside the buffer. Raised by the pipeline steps; no run from reset
  reaches it (entry 17). Safe. -/
  | danglingHandle
  /-- A meaning is called at a plug-in point whose latch is empty. Raised by a meaning called outside
  the pipeline steps only; no step reaches it (entry 17). Safe. -/
  | emptyStage
deriving DecidableEq, Repr

/-- What the model has no meaning for. -/
inductive Refusal where
  /-- An instruction without a meaning, raised by `exec`; no arm of this model raises it. Safe. -/
  | notModelled (mnemonic : String)
  /-- The candidate of step N1, or an instruction in a latch, has no instruction: a reserved word, a
  word at an infinite width or an empty mnemonic. Raised by the pipeline steps
  (93_implementation_defined.md U7, "refuse"). Safe. -/
  | undecodable (why : DecodeError)
  /-- A parameter outside its range (93_implementation_defined.md U9, "refuse"). Raised by `step`.
  Safe. -/
  | illegalParameter
deriving DecidableEq, Repr

/-- The state of the core (R20), the inputs of a run that a step reads, what the driver and the
interface own, and two fields of the model's own. -/
structure State where
  /-- `R`, by register number (R21, R106). -/
  regs : Vector Int 19
  /-- `RES`, each name at most once (R29). -/
  res : List ResName
  /-- The six latches (R34). -/
  s1In : Option Decoded
  s1Out : Option Decoded
  s2In : Option Decoded
  s2Out : Option Decoded
  s3In : Option Decoded
  s3Out : Option Decoded
  /-- `lsu_cnt` (R37). -/
  lsuCnt : Nat
  /-- `retired` (R38). -/
  retired : Nat
  /-- `M`: the cells that do not hold 0, addresses strictly rising (R39, entry 15). -/
  mem : List (Int × Int)
  /-- `IB` (R42). -/
  ib : List Slot
  /-- `LBL` (R42). -/
  lbl : List (Token × Nat)
  /-- The parameters (R5, entry 1). -/
  cfg : Config
  /-- The driver's cycle number `c` (R242). -/
  cycle : Nat
  /-- The reset pin (R263, entry 18). -/
  rst : Bool
  /-- The events sent to the sinks, oldest first (R244, R245, entry 19). -/
  events : List Event
  /-- The model's own: where in the pipe the running meaning stands (entry 2). -/
  point : Point
  /-- The model's own: how many free values have been used (entry 5). -/
  freeCtr : Nat
deriving DecidableEq, Repr

/-- The machine right after reset (R47), the standard parameters, no program loaded (entry 12). -/
def State.reset : State :=
  { regs := Vector.replicate 19 0
    res := []
    s1In := none
    s1Out := none
    s2In := none
    s2Out := none
    s3In := none
    s3Out := none
    lsuCnt := 0
    retired := 0
    mem := []
    ib := []
    lbl := []
    cfg := Config.standard
    cycle := 0
    rst := false
    events := []
    point := .atAdmission
    freeCtr := 0 }

end Sys2Proof.Machine
end

