-- ==== Sys2Proof/Machine/Ops.lean ====
section
/-! DEFINITION. The named operations over registers, reservations, memory, latches and events, and
what the instructions share at their admission, in stage 2 and at their commit. The hardware takes no
exception and returns from none (R230, R238, R239): no operation here saves a pc or a status. -/

namespace Sys2Proof.Machine

/-- The outcome of a meaning, of a pipeline step and of a cycle. -/
abbrev Out := Host.Outcome State Fault Refusal

/-- Sequencing: a later part runs on the state an earlier one left (R7). -/
def andThen (o : Out) (f : State → Out) : Out :=
  match o with
  | .next s => f s
  | .fault r => .fault r
  | .refused r => .refused r

/-- The next state of an outcome, if it has one. -/
def nextState (o : Out) : Option State :=
  match o with
  | .next s => some s
  | .fault _ => none
  | .refused _ => none

/-- Reset puts every piece of state of R20 to the value of R47 and leaves the program store and the
parameters alone (R260). A new run begins: the driver counts from 0 again (R140) and the sinks have
received nothing (entry 18). -/
def State.toReset (s : State) : State :=
  { s with
    regs := Vector.replicate 19 0
    res := []
    s1In := none
    s1Out := none
    s2In := none
    s2Out := none
    s3In := none
    s3Out := none
    lsuCnt := 0
    retired := 0
    mem := []
    cycle := 0
    events := [] }

/-- A decoded instruction at its creation (R36). -/
def Decoded.fresh (idx : Int) (reserved : List ResName) : Decoded :=
  { idx := idx, dstV := none, op1V := none, op2V := none, memV := none, res := none,
    reserved := reserved, stalled := false }

/-! ### Registers (R21 to R28) -/

/-- The index of a register in the register file. -/
theorem reg_number_lt (r : Reg) : r.number < 19 := by
  cases r <;> decide

/-- The value of one of the 19 registers. -/
def State.reg (s : State) (r : Reg) : Int := s.regs[r.number]'(reg_number_lt r)

/-- One of the 19 registers becomes `wrap(v)` (R26). -/
def State.setReg (s : State) (r : Reg) (v : Int) : State :=
  { s with regs := s.regs.set r.number (wrap s.cfg.xlen v) (reg_number_lt r) }

/-- `x[n]` (R25): an unknown register reads as 0. -/
def State.read (s : State) (n : RegName) : Int :=
  match n with
  | .known r => s.reg r
  | .num _ => 0
  | .tok _ => 0

/-- `x[n] <- v` (R26): a write to an unknown register changes nothing. -/
def State.write (s : State) (n : RegName) (v : Int) : State :=
  match n with
  | .known r => s.setReg r v
  | .num _ => s
  | .tok _ => s

/-- `increment(n, k)` (R27). -/
def State.increment (s : State) (n : RegName) (k : Int) : State := s.write n (s.read n + k)

/-- The register named by an operand, read: an operand that is no register names none, and reads as 0
(R25, R107). -/
def State.readNamed (s : State) (o : Operand) : Int :=
  match o with
  | .reg n => s.read n
  | .absent => 0
  | .regOff _ _ _ => 0
  | .imm _ _ => 0
  | .label _ _ => 0

/-- The register named by an operand, written: an operand that is no register names none, and the
write is dropped (R26, R107). -/
def State.writeNamed (s : State) (o : Operand) (v : Int) : State :=
  match o with
  | .reg n => s.write n v
  | .absent => s
  | .regOff _ _ _ => s
  | .imm _ _ => s
  | .label _ _ => s

/-- The value of `pc` (R23). -/
def State.pcV (s : State) : Int := s.reg .pc

/-- `pc` as a name in the reservation set. -/
def pcName : ResName := .name (.known .pc)

/-! ### The reservation set (R29 to R32) -/

/-- `RES ∪ {n}`: a name already there is not added again (R30). -/
def addName (res : List ResName) (n : ResName) : List ResName := if n ∈ res then res else res ++ [n]

/-- `reserve(L)` (R30). -/
def State.reserve (s : State) (l : List ResName) : State := { s with res := l.foldl addName s.res }

/-- `release(L)` (R31). -/
def State.release (s : State) (l : List ResName) : State :=
  { s with res := s.res.filter (fun n => decide (n ∉ l)) }

/-- `isReserved(L)` (R32). -/
def State.isReserved (s : State) (l : List ResName) : Bool := l.any (fun n => decide (n ∈ s.res))

/-! ### The data memory (R60 to R63) -/

/-- What a cell that is not listed reads as (R39, R62). -/
def unwrittenCell : Int := 0

/-- `M[a]` over the list of cells. -/
def readCell : List (Int × Int) → Int → Int
  | [], _ => unwrittenCell
  | (b, v) :: m, a => if b = a then v else readCell m a

/-- `M[a] <- v` over the list of cells, keeping the addresses rising and no cell that reads as an
unlisted one. -/
def writeCell : List (Int × Int) → Int → Int → List (Int × Int)
  | [], a, v => if v = unwrittenCell then [] else [(a, v)]
  | (b, w) :: m, a, v =>
    if b < a then (b, w) :: writeCell m a v
    else if b = a then (if v = unwrittenCell then m else (a, v) :: m)
    else if v = unwrittenCell then (b, w) :: m
    else (a, v) :: (b, w) :: m

/-- The canonical form: addresses strictly rising, no cell holding what an unlisted one reads as. -/
abbrev Memory.wf (m : List (Int × Int)) : Prop :=
  List.Pairwise (fun p q => p.1 < q.1) m ∧ ∀ p ∈ m, p.2 ≠ unwrittenCell

/-- `MemRead(a, 1)` (R62). -/
def State.memRead (s : State) (a : Int) : Int := readCell s.mem a

/-- `MemWrite(a, 1, v)` (R63). -/
def State.memWrite (s : State) (a : Int) (v : Int) : State := { s with mem := writeCell s.mem a v }

/-! ### The instruction buffer (R42 to R45) -/

/-- `size()` (R45). -/
def State.size (s : State) : Nat := s.ib.length

/-- `fetch(a)` (R43): the slot at an index, `none` if out of range or negative. -/
def State.fetch (s : State) (a : Int) : Option Slot :=
  if 0 ≤ a then s.ib[a.toNat]? else none

/-- The instruction of a slot, as this machine decodes it. -/
def State.decode (s : State) (slot : Slot) : Except DecodeError Instr :=
  slotInstr s.cfg.xlen s.lbl slot

/-- Do something with `I(d)`, the instruction a handle stands for (R13, R35). -/
def withInstr (s : State) (idx : Int) (k : Instr → Out) : Out :=
  match s.fetch idx with
  | none => .fault .danglingHandle
  | some slot =>
    match s.decode slot with
    | .error e => .refused (.undecodable e)
    | .ok i => k i

/-! ### Events and free values -/

/-- Send an event to the sinks (R244, R245). -/
def State.emit (s : State) (e : Event) : State := { s with events := s.events ++ [e] }

/-- The value of a result that the spec does not state, in the range of `wrap` (entry 5). -/
def State.free (s : State) : Int := wrap s.cfg.xlen (Config.freeValue s.freeCtr)

/-- The next use of a free value is another one. -/
def State.useFree (s : State) : State := { s with freeCtr := s.freeCtr + 1 }

/-! ### Admission (R126) -/

/-- A new decoded instruction for the record at `a`, its names reserved, into stage 1 (R126, R36). -/
def State.place (s : State) (a : Int) (rl : List ResName) : State :=
  { s.reserve rl with s1In := some (Decoded.fresh a rl) }

/-- AK_WB (R126): reserve `dst`, increment `pc`. -/
def akWb (dst : Operand) (s : State) : Out :=
  .next ((s.increment (.known .pc) 1).place s.pcV [nameOf dst])

/-- AK_PLAIN (R126): increment `pc`, reserve nothing. -/
def akPlain (s : State) : Out :=
  .next ((s.increment (.known .pc) 1).place s.pcV [])

/-- AK_JUMP (R126): reserve `dst` and `pc`, leave `pc` alone. -/
def akJump (dst : Operand) (s : State) : Out :=
  .next (s.place s.pcV [nameOf dst, pcName])

/-- What a branch reserves at its admission (R126, R202). -/
def branchNames (taken : Bool) (dst : Operand) : List ResName :=
  if taken then [nameOf dst, pcName] else []

/-- The `pc` after the admission of a branch: left alone when taken, incremented when not (R126). -/
def State.pastBranch (s : State) (taken : Bool) : State :=
  { s with regs := if taken then s.regs else (s.increment (.known .pc) 1).regs }

/-- AK_BRANCH (R126): the condition is decided now. -/
def akBranch (taken : Bool) (dst : Operand) (s : State) : Out :=
  .next ((s.pastBranch taken).place s.pcV (branchNames taken dst))

/-! ### Stage 2 (R130, R131, R190) -/

/-- Completion (R131): into the output latch, the input latch emptied. -/
def State.finish (s : State) (d : Decoded) : State := { s with s2Out := some d, s2In := none }

/-- The peek (R131): the instruction stays in the input latch and shows in the output latch. -/
def State.peek (s : State) (d : Decoded) : State := { s with s2Out := some d, s2In := some d }

/-- Completion of an instruction without a result (R131, `wb` false). -/
def finishPlain (d : Decoded) (s : State) : Out := .next (s.finish d)

/-- Completion with a result (R131); one the spec does not state is a free value (entry 5). -/
def State.finishWith (s : State) (d : Decoded) (r : Option Int) : State :=
  match r with
  | some v => s.finish { d with res := some v }
  | none => s.useFree.finish { d with res := some s.free }

/-- The stage 2 work of an instruction whose `Result` is a function of `op1V` (R171). -/
def aluOne (f : Int → Option Int) (d : Decoded) (s : State) : Out :=
  match d.op1V with
  | some x => .next (s.finishWith d (f x))
  | none => .fault .noValue

/-- The stage 2 work of an instruction whose `Result` is a function of `op1V` and `op2V` (R172 to R176),
at the width of the machine. -/
def aluTwo (f : Option Nat → Int → Int → Option Int) (d : Decoded) (s : State) : Out :=
  match d.op1V, d.op2V with
  | some x, some y => .next (s.finishWith d (f s.cfg.xlen x y))
  | _, _ => .fault .noValue

/-- `LsuStep(d)` (R190): the first visit starts the countdown, a later one counts down, and the access
is performed on the edge that brings the count to 0. -/
def lsuVisit (access : Decoded → State → Out) (d : Decoded) (s : State) : Out :=
  if d.stalled then
    if s.lsuCnt - 1 = 0 then access { d with stalled := false } { s with lsuCnt := 0 }
    else .next ({ s with lsuCnt := s.lsuCnt - 1 }.peek d)
  else .next ({ s with lsuCnt := s.cfg.lsuDelay }.peek { d with stalled := true })

/-- The access of a load and its `Result` (R190, R191). -/
def loadAccess (d : Decoded) (s : State) : Out :=
  match d.op1V with
  | some a => .next (s.finish { d with memV := some (s.memRead a), res := some (s.memRead a) })
  | none => .fault .noValue

/-- The access of a store (R190, R192). -/
def storeAccess (d : Decoded) (s : State) : Out :=
  match d.op1V, d.dstV with
  | some a, some v => .next ((s.memWrite a v).finish d)
  | _, _ => .fault .noValue

/-! ### Commit and retirement (R129) -/

/-- What every instruction does at the end of step P3 (R129): release its names, emit the retire event,
count, empty both latches of stage 3. -/
def State.retire (s : State) (d : Decoded) : State :=
  let t := (s.release d.reserved).emit (.retire s.cycle d.idx)
  { t with retired := t.retired + 1, s3Out := none, s3In := none }

/-- CK_WB (R129): write `resultant` into `dst`. -/
def ckWb (dst : Operand) (d : Decoded) (s : State) : Out :=
  match d.res with
  | some v => .next ((s.writeNamed dst v).retire d)
  | none => .fault .noValue

/-- CK_NONE (R129). -/
def ckNone (d : Decoded) (s : State) : Out := .next (s.retire d)

/-- CK_JAL (R201): the target into `dst`, then into `pc`. -/
def ckJal (dst : Operand) (d : Decoded) (s : State) : Out :=
  match d.op1V with
  | some t => .next (((s.writeNamed dst t).write (.known .pc) t).retire d)
  | none => .fault .noValue

/-- `labelAddress` of an operand: what a label resolves to, and for a token of any other class the direct
lookup of that token (R89, R202). A descriptor of a binary word has no token to look up (R107). -/
def State.targetOf (s : State) (o : Operand) : Option Int :=
  match o with
  | .label t _ => t
  | .absent | .reg _ | .regOff _ _ _ | .imm _ _ => o.token.bind (labelAddress s.lbl)

/-- CK_BRANCH (R202, R205): the target into the register named by `op1`, then into `pc`; nothing for a
branch not taken at admission where `BR_WB_UNCOND` is false. -/
def ckBranch (op1 op2 : Operand) (d : Decoded) (s : State) : Out :=
  if s.cfg.brWbUncond || decide (pcName ∈ d.reserved) then
    match s.targetOf op2 with
    | some t => .next (((s.writeNamed op1 t).write (.known .pc) t).retire d)
    | none => .fault .noValue
  else .next (s.retire d)

end Sys2Proof.Machine
end

