-- ==== Sys2Proof/Machine/Operands.lean ====
section
/-! DEFINITION. The operand forms: what an operand contributes to the hazard check (R94), its value
(R136), the bound of a branch (R90, R126), the operand fetch (R132), and the way every instruction goes
through the pipe (R127, R170). -/

namespace Sys2Proof.Machine

/-- `regs(tok)` of R94: the register, or the base register, an operand reads. -/
def regsOf (o : Operand) : List ResName :=
  match o with
  | .reg n => [.name n]
  | .regOff _ b _ => [.name b]
  | .absent => []
  | .imm _ _ => []
  | .label _ _ => []

/-- What `dst` contributes to `hazardReadRegisters` (R94): itself, where it is a register and the
instruction does not write back. -/
def dstHazard (wb : Bool) (dst : Operand) : List ResName :=
  if wb then [] else
    match dst with
    | .reg n => [.name n]
    | .absent => []
    | .regOff _ _ _ => []
    | .imm _ _ => []
    | .label _ _ => []

/-- `I.haz`, `hazardReadRegisters` (R94). -/
def hazardReadRegisters (i : Instr) : List ResName :=
  dstHazard i.wb i.dst ++ regsOf i.op1 ++ regsOf i.op2

/-- `imm(tok)` (R90): `none` where it is undefined, which is every class but DEC and HEX. -/
def immOf (xlen : Option Nat) (o : Operand) : Option Int :=
  match o with
  | .imm v _ => some (wrap xlen v)
  | .absent => none
  | .reg _ => none
  | .regOff _ _ _ => none
  | .label _ _ => none

/-- `val(tok)` (R136), `none` for `⊥`. A label's address is brought into the range of a value (R9,
entry 13). -/
def State.val (s : State) (o : Operand) : Option Int :=
  match o with
  | .reg n => some (s.read n)
  | .regOff off b _ => some (wrap s.cfg.xlen (s.read b + off))
  | .imm v _ => some (wrap s.cfg.xlen v)
  | .label (some t) _ => some (wrap s.cfg.xlen t)
  | .label none _ => none
  | .absent => none

/-- The bound a branch compares with (R126): `imm(op1)`, a free value where that is undefined
(entry 6). -/
def State.bound (s : State) (op1 : Operand) : Int := (immOf s.cfg.xlen op1).getD s.free

/-- The state after the bound is read: a free value is used up. -/
def State.afterBound (s : State) (op1 : Operand) : State :=
  if (immOf s.cfg.xlen op1).isSome then s else s.useFree

/-- The admission of `bge` and `ble` (R202): compare the register named by `dst` with the bound. -/
def akCompare (holds : Int → Int → Bool) (dst op1 : Operand) (s : State) : Out :=
  akBranch (holds (s.readNamed dst) (s.bound op1)) dst (s.afterBound op1)

/-- Step P1's work (R132): the three values, read now, and on to the output latch. -/
def latchOperands (dst op1 op2 : Operand) (s : State) : Out :=
  match s.s1In with
  | some d =>
    .next { s with
      s1Out := some { d with dstV := s.val dst, op1V := s.val op1, op2V := s.val op2 }
      s1In := none }
  | none => .fault .emptyStage

/-- The common path (R127, R170): what an instruction does at the plug-in point the state stands at.
Stage 2 works on the instruction in `s2_in`, the commit on the one in `s3_in`. -/
def alongThePipe (dst op1 op2 : Operand) (admission : State → Out)
    (execute commit : Decoded → State → Out) (s : State) : Out :=
  match s.point with
  | .atAdmission => admission s
  | .atOperands => latchOperands dst op1 op2 s
  | .atExecute =>
    match s.s2In with
    | some d => execute d s
    | none => .fault .emptyStage
  | .atCommit =>
    match s.s3In with
    | some d => commit d s
    | none => .fault .emptyStage

end Sys2Proof.Machine
end

