-- ==== Sys2Proof/Machine/Alu.lean ====
section
/-! DEFINITION. The ALU family (R170 to R177). -/

namespace Sys2Proof.Machine

/-- `add dst, op1, op2` (R172): `Result(d) = wrap(op1V + op2V)`. -/
def execAdd (dst op1 op2 : Operand) (s : State) : Out :=
  alongThePipe dst op1 op2 (akWb dst) (aluTwo (fun n x y => some (wrap n (x + y)))) (ckWb dst) s

/-- `addi dst, op1, op2` (R173): the same formula as `add`. -/
def execAddi (dst op1 op2 : Operand) (s : State) : Out :=
  alongThePipe dst op1 op2 (akWb dst) (aluTwo (fun n x y => some (wrap n (x + y)))) (ckWb dst) s

/-- `li dst, op1` (R171): `Result(d) = op1V`. -/
def execLi (dst op1 op2 : Operand) (s : State) : Out :=
  alongThePipe dst op1 op2 (akWb dst) (aluOne (fun x => some x)) (ckWb dst) s

/-- `slli dst, op1, op2` (R175): `Result(d) = wrap(op1V × 2^op2V)`; a negative amount has no stated
result (U1). -/
def execSlli (dst op1 op2 : Operand) (s : State) : Out :=
  alongThePipe dst op1 op2 (akWb dst) (aluTwo (fun n x y => shiftLeftBy n x y)) (ckWb dst) s

/-- `slri dst, op1, op2` (R176): `Result(d) = floor(op1V / 2^op2V)`; a negative amount has no stated
result (U1). -/
def execSlri (dst op1 op2 : Operand) (s : State) : Out :=
  alongThePipe dst op1 op2 (akWb dst) (aluTwo (fun _ x y => shiftRightBy x y)) (ckWb dst) s

/-- `sub dst, op1, op2` (R174): `Result(d) = wrap(op1V - op2V)`. -/
def execSub (dst op1 op2 : Operand) (s : State) : Out :=
  alongThePipe dst op1 op2 (akWb dst) (aluTwo (fun n x y => some (wrap n (x - y)))) (ckWb dst) s

end Sys2Proof.Machine
end

