-- ==== Sys2Proof/Machine/Control.lean ====
section
/-! DEFINITION. The control family (R200 to R206). -/

namespace Sys2Proof.Machine

/-- `jal dst, op1` (R201): `dst` and `pc` receive the target. -/
def execJal (dst op1 op2 : Operand) (s : State) : Out :=
  alongThePipe dst op1 op2 (akJump dst) finishPlain (ckJal dst) s

/-- `bge dst, op1, op2` (R202, R203): taken at admission where `x[dst] ≥ imm(op1)`. -/
def execBge (dst op1 op2 : Operand) (s : State) : Out :=
  alongThePipe dst op1 op2 (akCompare (fun x b => decide (b ≤ x)) dst op1) finishPlain (ckBranch op1 op2) s

/-- `ble dst, op1, op2` (R202, R204): taken at admission where `x[dst] ≤ imm(op1)`. -/
def execBle (dst op1 op2 : Operand) (s : State) : Out :=
  alongThePipe dst op1 op2 (akCompare (fun x b => decide (x ≤ b)) dst op1) finishPlain (ckBranch op1 op2) s

end Sys2Proof.Machine
end

