-- ==== Sys2Proof/Machine/LoadStore.lean ====
section
/-! DEFINITION. The memory family (R190 to R194). -/

namespace Sys2Proof.Machine

/-- `lw dst, op1` (R191). -/
def execLw (dst op1 op2 : Operand) (s : State) : Out :=
  alongThePipe dst op1 op2 (akWb dst) (lsuVisit loadAccess) (ckWb dst) s

/-- `sw dst, op1` (R192): `dst` is the value stored. -/
def execSw (dst op1 op2 : Operand) (s : State) : Out :=
  alongThePipe dst op1 op2 akPlain (lsuVisit storeAccess) ckNone s

end Sys2Proof.Machine
end

