-- ==== Sys2Proof/Machine/Other.lean ====
section
/-! DEFINITION. The class "other" (R220, R221): every other mnemonic passes through and retires. -/

namespace Sys2Proof.Machine

/-- Any mnemonic outside the eleven (R220): `pc` is incremented, nothing else is written. -/
def execOther (dst op1 op2 : Operand) (s : State) : Out :=
  alongThePipe dst op1 op2 akPlain finishPlain ckNone s

/-- The reserved opcode numbers 12 to 15 (R107): they decode as "other". -/
def execOtherReserved (_k : Fin 4) (dst op1 op2 : Operand) (s : State) : Out :=
  alongThePipe dst op1 op2 akPlain finishPlain ckNone s

end Sys2Proof.Machine
end

