-- ==== Sys2Proof/Machine/Dispatch.lean ====
section
/-! DEFINITION. The dispatch: one arm per constructor of `Instr`, each one direct call of its meaning. -/

namespace Sys2Proof.Machine

def exec (i : Instr) (s : State) : Host.Outcome State Fault Refusal :=
  match i with
  | .add dst op1 op2 => Sys2Proof.Machine.execAdd dst op1 op2 s
  | .addi dst op1 op2 => Sys2Proof.Machine.execAddi dst op1 op2 s
  | .li dst op1 op2 => Sys2Proof.Machine.execLi dst op1 op2 s
  | .lw dst op1 op2 => Sys2Proof.Machine.execLw dst op1 op2 s
  | .slli dst op1 op2 => Sys2Proof.Machine.execSlli dst op1 op2 s
  | .slri dst op1 op2 => Sys2Proof.Machine.execSlri dst op1 op2 s
  | .sub dst op1 op2 => Sys2Proof.Machine.execSub dst op1 op2 s
  | .sw dst op1 op2 => Sys2Proof.Machine.execSw dst op1 op2 s
  | .jal dst op1 op2 => Sys2Proof.Machine.execJal dst op1 op2 s
  | .bge dst op1 op2 => Sys2Proof.Machine.execBge dst op1 op2 s
  | .ble dst op1 op2 => Sys2Proof.Machine.execBle dst op1 op2 s
  | .other dst op1 op2 => Sys2Proof.Machine.execOther dst op1 op2 s
  | .otherReserved k dst op1 op2 => Sys2Proof.Machine.execOtherReserved k dst op1 op2 s

end Sys2Proof.Machine
end

