-- ==== Sys2Proof/Machine/Pipeline.lean ====
section
/-! DEFINITION. The pipeline controller (R120 to R132): the hazard check, the six steps of a cycle and
the two edges. Every step reads the state as the step before it left it (R7). -/

namespace Sys2Proof.Machine

/-- The hazard check (R125): `pc` is reserved, or the candidate writes back to a reserved register, or
a register it reads is reserved. -/
def State.blocked (s : State) (i : Instr) : Bool :=
  s.isReserved [pcName] || (i.wb && s.isReserved [nameOf i.dst]) || s.isReserved (hazardReadRegisters i)

/-- The meaning of an instruction at a plug-in point (R127); the field that says where the meaning
stands is the model's own and is put back (entry 2). -/
def callAt (p : Point) (i : Instr) (s : State) : Out :=
  andThen (exec i { s with point := p }) (fun t => .next { t with point := s.point })

/-- Step N3 (R122). -/
def stepN3 (s : State) : State :=
  if s.s3In = none ∧ s.lsuCnt = 0 ∧ s.s2Out ≠ none then { s with s3In := s.s2Out, s2Out := none } else s

/-- Step N2 (R123). -/
def stepN2 (s : State) : State :=
  if s.s2In = none ∧ s.s1Out ≠ none then { s with s2In := s.s1Out, s1Out := none } else s

/-- Step N1 for the slot at `x[pc]` (R124): admit the candidate unless it is blocked. A slot without an
instruction is refused where it would be admitted (entry 10). -/
def considerSlot (slot : Slot) (s : State) : Out :=
  match s.decode slot with
  | .error e => if s.isReserved [pcName] then .next s else .refused (.undecodable e)
  | .ok i => if s.blocked i then .next s else callAt .atAdmission i s

/-- Step N1 (R124): nothing where stage 1 is occupied or there is no candidate. -/
def stepN1 (s : State) : Out :=
  if s.s1In = none then
    match s.fetch s.pcV with
    | none => .next s
    | some slot => considerSlot slot s
  else .next s

/-- `negedge(c)` (R121): N3, N2, N1; the clock is 0 (R245). -/
def negedge (s : State) : Out := stepN1 (stepN2 (stepN3 (s.emit (.clk false))))

/-- Step P3 (R129): commit and retire what stage 3 holds. -/
def stepP3 (s : State) : Out :=
  match s.s3In with
  | some d => withInstr s d.idx (fun i => callAt .atCommit i s)
  | none => .next s

/-- Step P2 (R130): the stage 2 work of what stage 2 holds. -/
def stepP2 (s : State) : Out :=
  match s.s2In with
  | some d => withInstr s d.idx (fun i => callAt .atExecute i s)
  | none => .next s

/-- Step P1 (R132): read the operands of what stage 1 holds, if no output is waiting. -/
def stepP1 (s : State) : Out :=
  match s.s1In, s.s1Out with
  | some d, none => withInstr s d.idx (fun i => callAt .atOperands i s)
  | _, _ => .next s

/-- `posedge(c)` (R128): P3, P2, P1; the clock is 1 (R245). So an operand fetch sees what is committed on the
same edge (R266), a shadow instruction behind a branch not taken among them; R270 (c) reads otherwise there
(entry 30). -/
def posedge (s : State) : Out :=
  andThen (andThen (stepP3 (s.emit (.clk true))) stepP2) stepP1

/-- The driver gives the next cycle its number (R140, R242). -/
def State.nextCycle (s : State) : State := { s with cycle := s.cycle + 1 }

/-- One cycle (R120): `negedge(c)`, then `posedge(c)`. -/
def clockCycle (s : State) : Out := andThen (negedge s.nextCycle) posedge

end Sys2Proof.Machine
end

