-- ==== Sys2Proof/Machine/Driver.lean ====
section
/-! DEFINITION. The driver loop (R138 to R142), the report after a run, the ports (R263) and the text
form of the retire events (R244). -/

namespace Sys2Proof.Machine

/-- `emptyPipe()` (R138). -/
def State.emptyPipe (s : State) : Bool :=
  decide ((s.size : Int) ≤ s.pcV) && s.s1Out.isNone && s.s2Out.isNone

/-- The run is over (R140, R141): no program (R233), drained, or capped. -/
def State.ended (s : State) : Bool :=
  decide (s.size = 0) || s.emptyPipe || decide (s.cfg.cycleCap ≤ s.cycle)

/-- A drained run (R141). -/
def State.drained (s : State) : Bool := decide (s.size ≠ 0) && s.emptyPipe

/-- A capped run (R141). -/
def State.capped (s : State) : Bool :=
  decide (s.size ≠ 0) && !s.emptyPipe && decide (s.cfg.cycleCap ≤ s.cycle)

/-- One step of the machine under its driver. While `rst` is 1 the state is held at reset and edges do
nothing (R263). After the end of a run the core holds its state (R247, entry 3). Otherwise one cycle. A
parameter outside its range is refused (U9, entry 14). -/
def driverStep (s : State) : Out :=
  if s.cfg.legal then
    if s.rst then .next s.toReset
    else if s.ended then .next s
    else clockCycle s
  else .refused .illegalParameter

/-- The report of the driver (R142): "no program" (R233), or the cycles, the retired instructions and
the cycles per instruction, which is not defined where none retired (R234, R243). -/
inductive Report where
  | noProgram
  | ran (cycles retired : Nat) (cpi : Option Rat)
deriving DecidableEq, Repr

/-- The report after the run has stopped in this state (R142). -/
def State.report (s : State) : Report :=
  if s.size = 0 then .noProgram
  else .ran s.cycle s.retired (if s.retired = 0 then none else some ((s.cycle : Rat) / (s.retired : Rat)))

/-- The index of the instruction retired in a cycle, if one did (R244). -/
def retiredIn (c : Nat) : List Event → Option Int
  | [] => none
  | .clk _ :: es => retiredIn c es
  | .retire k idx :: es => if k = c then some idx else retiredIn c es

/-- The instructions of the buffer. -/
def State.instrs (s : State) : List Instr := s.ib.filterMap (fun x => (s.decode x).toOption)

/-- The word on `ib_word` for a slot (R263): the binary word at it, or the word the assembler writes for its
record (R104 to R106), where there is one: not at an infinite width, nor in a program with more than 13
unknown names. -/
def State.slotWord (s : State) (slot : Slot) : Option Nat :=
  match slot with
  | .word w _ => some w
  | .record _ =>
    match s.cfg.xlen, s.decode slot with
    | some n, .ok i =>
      if hasImage (unknownNames s.instrs) then some (imageWord n (unknownNames s.instrs) i) else none
    | _, _ => none

/-- The outputs of the core and the answer of the buffer to its fetch address (R263), between cycles. -/
structure Ports where
  ibAddr : Int
  ibHit : Bool
  ibWord : Option Nat
  retValid : Bool
  retIdx : Option Int
  retired : Nat
  empty : Bool
deriving DecidableEq, Repr

/-- The ports after a rising edge (R263). -/
def State.ports (s : State) : Ports :=
  { ibAddr := s.pcV
    ibHit := (s.fetch s.pcV).isSome
    ibWord := (s.fetch s.pcV).bind s.slotWord
    retValid := (retiredIn s.cycle s.events).isSome
    retIdx := retiredIn s.cycle s.events
    retired := s.retired
    empty := s.emptyPipe }

/-- The source text of the slot at an index (R244): of the record, or of the side table (R104). -/
def State.textAt (s : State) (idx : Int) : Option Token :=
  (s.fetch idx).map fun slot =>
    match slot with
    | .record r => r.text
    | .word _ t => t

/-- A cycle number right-aligned in a field of five characters (R244, entry 27). -/
def padFive (c : Nat) : Token :=
  List.replicate (5 - (Nat.toDigits 10 c).length) ' ' ++ Nat.toDigits 10 c

/-- The reference textual format of a retire event (R244, entry 27). -/
def retireLine (c : Nat) (text : Token) : Token :=
  ['C', 'Y', 'C', 'L', 'E', '='] ++ padFive c ++ [' ', ':', ':', ' '] ++ text ++ ['\n']

end Sys2Proof.Machine
end

