-- ==== Sys2Proof/Machine/Step.lean ====
section
/-! DEFINITION. The step of the machine, one clock cycle under the driver, and the placing of a word
where the next step fetches. -/

namespace Sys2Proof.Machine

/-- One step: one cycle under the driver (R120, R140). -/
def step (s : State) : Host.Outcome State Fault Refusal := driverStep s

/-- A slot at an index of the buffer; indices in between get the word 0, the "other" of three absent
operands. -/
def putSlot : List Slot → Nat → Slot → List Slot
  | [], 0, x => [x]
  | [], k + 1, x => .word 0 [] :: putSlot [] k x
  | _ :: l, 0, x => x :: l
  | y :: l, k + 1, x => y :: putSlot l k x

/-- A program with this word at `pc` is loaded, and nothing keeps it from being admitted in the very
next cycle: a width at which the word is read, the reset pin released, stage 1 free, nothing reserved, a
cycle left, a legal delay, a `pc` that is an index (entry 12). On the reset state only the buffer
changes. -/
def State.withFetchWord (s : State) (nbits w : Nat) : State :=
  { s with
    ib := putSlot s.ib s.pcV.toNat (.word (w % 2 ^ min nbits 128) [])
    regs := if 0 ≤ s.pcV then s.regs else (s.setReg .pc 0).regs
    cfg := { s.cfg with
      xlen := some 32
      lsuDelay := max 1 s.cfg.lsuDelay
      cycleCap := max s.cfg.cycleCap (s.cycle + 1) }
    rst := false
    s1In := none
    res := [] }

end Sys2Proof.Machine
end

