-- ==== Sys2Proof/Machine/Loader.lean ====
section
/-! DEFINITION. The loader's side of the core: construction of records (R80, R81), the buffer and the
label map (R96 to R98), the refusal of a program that is not well-formed (R100, R101, R262), and the
assembler of the binary image (R104 to R107). The text of a source line is tokenised outside (R4). -/

namespace Sys2Proof.Machine

/-- `IB` and `LBL` while they are built (R42). -/
structure Program where
  ib : List Record
  lbl : List (Token × Nat)
deriving DecidableEq, Repr

/-- The empty buffer. -/
def Program.empty : Program := { ib := [], lbl := [] }

/-- An absent field is the empty string, every other one is lower-cased (R81). -/
def fieldToken (t : Option Token) : Token := (t.map lowerToken).getD []

/-- The record of a line (R80, R81), with its sequence id (R98). The text is kept as it is (entry 20). -/
def construct (r : RawRecord) (id : Nat) : Record :=
  { text := r.text
    label := fieldToken r.label
    mn := lowerToken r.mn
    dst := fieldToken r.dst
    op1 := fieldToken r.op1
    op2 := fieldToken r.op2
    id := id }

/-- A label bound to an index; a reused label maps to the latest one (R96, R97 (c)). -/
def bindLabel (lbl : List (Token × Nat)) (l : Token) (j : Nat) : List (Token × Nat) :=
  if l.isEmpty then lbl else (l, j) :: lbl.filter (fun p => decide (p.1 ≠ l))

/-- `append(I)` (R96): a record with an empty mnemonic is dropped together with its label. -/
def Program.append (p : Program) (r : RawRecord) : Program :=
  if r.mn.isEmpty then p
  else
    let c := construct r (p.ib.length + 1)
    { ib := p.ib ++ [c], lbl := bindLabel p.lbl c.label p.ib.length }

/-- The buffer of a whole source (R96). -/
def Program.ofRecords (rs : List RawRecord) : Program := rs.foldl Program.append Program.empty

/-- `WF` of a slot against the label map (R100): it has an instruction, and that is well-formed. A
reserved word has none (R107). -/
def slotWf (xlen : Option Nat) (lbl : List (Token × Nat)) (x : Slot) : Bool :=
  match slotInstr xlen lbl x with
  | .ok i => i.wf
  | .error _ => false

/-- Why a program is not loaded. -/
inductive LoadError where
  /-- `size = 0` (R233). -/
  | noProgram
  /-- The record or the word at this index fails `WF` (R100, R101, R107, U4, U7). -/
  | notWellFormed (idx : Nat)
  /-- A parameter outside its range (U9). -/
  | illegalParameter
deriving DecidableEq, Repr

/-- The index of the first slot that fails `WF`. -/
def firstIllFormed (xlen : Option Nat) (lbl : List (Token × Nat)) (ib : List Slot) : Option Nat :=
  ib.findIdx? (fun x => !slotWf xlen lbl x)

/-- The machine right after reset with this buffer and these labels (R260), or the reason why the program is
rejected before cycle 1 (R233, R262, U4, U7, U9). -/
def loadSlots (c : Config) (ib : List Slot) (lbl : List (Token × Nat)) : Except LoadError State :=
  if c.legal then
    if ib.isEmpty then .error .noProgram
    else
      match firstIllFormed c.xlen lbl ib with
      | some j => .error (.notWellFormed j)
      | none => .ok { State.reset with cfg := c, ib := ib, lbl := lbl }
  else .error .illegalParameter

/-- Load a source, record by record (R96, R262). -/
def load (c : Config) (rs : List RawRecord) : Except LoadError State :=
  loadSlots c ((Program.ofRecords rs).ib.map Slot.record) (Program.ofRecords rs).lbl

/-! ### The binary image (R104 to R107) -/

/-- Why a program has no binary image. -/
inductive AssembleError where
  /-- More than 13 distinct unknown names (R106, U8). -/
  | tooManyUnknownNames
deriving DecidableEq, Repr

/-- The instructions of a program, its labels resolved (R97 (f)). -/
def Program.instrs (p : Program) : List Instr :=
  p.ib.map (fun r => instrOfMnemonic r.mn (operandOf p.lbl r.dst) (operandOf p.lbl r.op1) (operandOf p.lbl r.op2))

/-- The binary image at width `n`, one word per index (R104). -/
def assemble (n : Nat) (p : Program) : Except AssembleError (List Nat) :=
  if hasImage (unknownNames p.instrs) then .ok (p.instrs.map (imageWord n (unknownNames p.instrs)))
  else .error .tooManyUnknownNames

/-- Load a binary image, each word with the text a side table gives it (R104, R107). Its labels have been
used up. -/
def loadWords (c : Config) (ws : List (Nat × Token)) : Except LoadError State :=
  loadSlots c (ws.map (fun p => Slot.word p.1 p.2)) []

end Sys2Proof.Machine
end

