-- ==== Sys2Proof/Machine/Sequential.lean ====
section
/-! DEFINITION. The plain sequential interpreter of R145, which executes one instruction at a time. It
is no part of the step: statements compare the pipeline with it. -/

namespace Sys2Proof.Machine

/-- `pc <- pc + 1` (R145). -/
def State.advance (s : State) : State := s.increment (.known .pc) 1

/-- `x[dst] <- Result`; a result the spec does not state is a free value (entry 5). -/
def State.writeResult (s : State) (dst : Operand) (r : Option Int) : State :=
  match r with
  | some v => s.writeNamed dst v
  | none => s.useFree.writeNamed dst s.free

/-- An instruction whose result is a function of two operands, read after `pc` was advanced (R145). -/
def seqTwo (f : Option Nat → Int → Int → Option Int) (dst op1 op2 : Operand) (s : State) : Out :=
  match s.advance.val op1, s.advance.val op2 with
  | some x, some y => .next (s.advance.writeResult dst (f s.cfg.xlen x y))
  | _, _ => .fault .noValue

/-- A branch (R145): its target where the condition holds, the next index where it does not. -/
def seqBranch (holds : Bool) (op2 : Operand) (s : State) : Out :=
  if holds then
    match s.targetOf op2 with
    | some t => .next (s.write (.known .pc) t)
    | none => .fault .noValue
  else .next s.advance

/-- The effect of one instruction on the registers and the memory (R145). -/
def seqEffect (i : Instr) (s : State) : Out :=
  match i with
  | .add d a b => seqTwo (fun n x y => some (wrap n (x + y))) d a b s
  | .addi d a b => seqTwo (fun n x y => some (wrap n (x + y))) d a b s
  | .sub d a b => seqTwo (fun n x y => some (wrap n (x - y))) d a b s
  | .slli d a b => seqTwo (fun n x y => shiftLeftBy n x y) d a b s
  | .slri d a b => seqTwo (fun _ x y => shiftRightBy x y) d a b s
  | .li d a _ =>
    match s.advance.val a with
    | some x => .next (s.advance.writeNamed d x)
    | none => .fault .noValue
  | .lw d a _ =>
    match s.advance.val a with
    | some x => .next (s.advance.writeNamed d (s.memRead x))
    | none => .fault .noValue
  | .sw d a _ =>
    match s.advance.val a, s.advance.val d with
    | some x, some v => .next (s.advance.memWrite x v)
    | _, _ => .fault .noValue
  | .jal d a _ =>
    match s.val a with
    | some t => .next ((s.writeNamed d t).write (.known .pc) t)
    | none => .fault .noValue
  | .bge d a b => seqBranch (decide (s.bound a ≤ s.readNamed d)) b (s.afterBound a)
  | .ble d a b => seqBranch (decide (s.readNamed d ≤ s.bound a)) b (s.afterBound a)
  | .other _ _ _ => .next s.advance
  | .otherReserved _ _ _ _ => .next s.advance

/-- One step of the sequential interpreter: the effect, and one instruction more is retired (R145). -/
def sequential (i : Instr) (s : State) : Out :=
  andThen (seqEffect i s) (fun t => .next { t with retired := t.retired + 1 })

end Sys2Proof.Machine
end

