-- ==== Sys2Proof/Safety.lean ====
section
/-! DEFINITION. The terms the statements use: well-formed programs, what is in flight, the invariants of
R143, and what it means to retire and to be quiet. -/

namespace Sys2Proof.Machine

/-- The instruction a handle stands for, if it stands for one (R13). -/
def State.instrAt (s : State) (idx : Int) : Option Instr :=
  match s.fetch idx with
  | none => none
  | some x =>
    match s.decode x with
    | .ok i => some i
    | .error _ => none

/-- Every record or word of the program is well-formed (R100, R107, R262). -/
abbrev State.ProgramWf (s : State) : Prop := ∀ x ∈ s.ib, slotWf s.cfg.xlen s.lbl x = true

/-- The driver calls the next cycle: out of reset, parameters in range, the run not over (R140). -/
abbrev State.Running (s : State) : Prop := s.cfg.legal = true ∧ s.rst = false ∧ s.ended = false

/-- Nothing is in flight, nothing is reserved, no access is outstanding. -/
abbrev State.Quiet (s : State) : Prop :=
  s.s1In = none ∧ s.s1Out = none ∧ s.s2In = none ∧ s.s2Out = none ∧ s.s3In = none ∧ s.s3Out = none ∧
    s.res = [] ∧ s.lsuCnt = 0

/-- The instructions in flight (R16), oldest last; the peek of stage 2 is not a second one (R131). -/
def State.inFlight (s : State) : List Decoded :=
  s.s1In.toList ++ s.s1Out.toList ++ s.s2In.toList ++
    (if s.s2In.isSome then [] else s.s2Out.toList) ++ s.s3In.toList

/-- Everything a latch holds. -/
def State.latched (s : State) : List Decoded :=
  s.s1In.toList ++ s.s1Out.toList ++ s.s2In.toList ++ s.s2Out.toList ++ s.s3In.toList ++ s.s3Out.toList

/-- The instruction at an index is a load or a store. -/
def State.memoryAt (s : State) (idx : Int) : Bool :=
  match s.instrAt idx with
  | some i => i.st || i.ld
  | none => false

/-- The invariant of the latches and the countdown between cycles (R143 (a) to (d), R37). -/
structure PipeInv (s : State) : Prop where
  /-- R143 (a). -/
  stage3Empty : s.s3In = none
  /-- R34: `s3_out` holds nothing. -/
  stage3OutEmpty : s.s3Out = none
  /-- R143 (b). -/
  stage1Waits : s.s1In ≠ none → s.s1Out ≠ none
  /-- R143 (c): an instruction stays in stage 2 only while its access counts down, and shows as a peek. -/
  stage2Waits : ∀ d, s.s2In = some d →
    0 < s.lsuCnt ∧ s.s2Out = some d ∧ d.stalled = true ∧ s.memoryAt d.idx = true
  /-- R143 (c): the countdown runs only then. -/
  countdownIdle : s.s2In = none → s.lsuCnt = 0
  /-- R37. -/
  countdownBound : s.lsuCnt ≤ s.cfg.lsuDelay
  /-- Before stage 2 no access has been started. -/
  fresh1 : ∀ d, s.s1In = some d → d.stalled = false
  fresh2 : ∀ d, s.s1Out = some d → d.stalled = false

/-- The invariant of the reservations (R143 (e), R33): the set is the disjoint union of what the
instructions in flight reserved, each name once. -/
structure ReservationInv (s : State) : Prop where
  once : s.res.Nodup
  union : ∀ n, n ∈ s.res ↔ ∃ d ∈ s.inFlight, n ∈ d.reserved
  disjoint : s.inFlight.Pairwise (fun d e => ∀ n ∈ d.reserved, n ∉ e.reserved)

/-- Every value a decoded instruction holds is in the range of `wrap`. -/
abbrev Decoded.AllInRange (xlen : Option Nat) (d : Decoded) : Prop :=
  ∀ o ∈ [d.dstV, d.op1V, d.op2V, d.memV, d.res], ∀ v ∈ o, InRange xlen v

/-- Every value stored in a register, a latch field or a memory cell is in the range of `wrap`, and so
is every listed address (R9). -/
structure RangeInv (s : State) : Prop where
  registers : ∀ q, InRange s.cfg.xlen (s.reg q)
  cells : ∀ p ∈ s.mem, InRange s.cfg.xlen p.1 ∧ InRange s.cfg.xlen p.2
  latches : ∀ d ∈ s.latched, d.AllInRange s.cfg.xlen

/-- The values stage 1 has read are there for every operand that has one (R100, R132). -/
abbrev ValuesRead (i : Instr) (d : Decoded) : Prop :=
  (i.dst.eval = true → d.dstV.isSome = true) ∧ (i.op1.eval = true → d.op1V.isSome = true) ∧
    (i.op2.eval = true → d.op2V.isSome = true)

/-- The handles in the latches stand for instructions, and a later stage finds what an earlier one has
to leave: the operand values after stage 1, the result of a write-back instruction after stage 2. -/
structure DataInv (s : State) : Prop where
  stage1 : ∀ d, s.s1In = some d → (s.instrAt d.idx).isSome = true
  stage1Out : ∀ d, s.s1Out = some d → ∃ i, s.instrAt d.idx = some i ∧ ValuesRead i d
  stage2 : ∀ d, s.s2In = some d → ∃ i, s.instrAt d.idx = some i ∧ ValuesRead i d
  stage2Out : ∀ d, s.s2Out = some d → ∃ i, s.instrAt d.idx = some i ∧ ValuesRead i d ∧
    (s.s2In = none → i.wb = true → d.res.isSome = true)

/-- The end of step P3 for `d` (R129): its names released, one retire event, one instruction more, both
latches of stage 3 empty, and every field but the registers as it was. -/
abbrev RetiredFrom (d : Decoded) (s t : State) : Prop :=
  (∀ n, n ∈ t.res ↔ n ∈ s.res ∧ n ∉ d.reserved) ∧
  t = { s with
    regs := t.regs
    res := t.res
    retired := s.retired + 1
    events := s.events ++ [.retire s.cycle d.idx]
    s3In := none
    s3Out := none }

/-- Nothing of memory changes. -/
abbrev SameMemory (s t : State) : Prop := ∀ a, t.memRead a = s.memRead a

/-- The machine runs on from a state for a number of cycles. -/
abbrev runFor (k : Nat) (s : State) : Out := Host.Core.run Sys2Proof.core k s

end Sys2Proof.Machine
end

