-- ==== Sys2Proof/Certificates/Slice0/Obligations.lean ====
section
/-! DEFINITION. The statements for the provers, from the numbered rules of spec/. A statement whose
docstring says "the model's choice" rests on the log entry it names. -/

set_option autoImplicit false

open Sys2Proof Sys2Proof.Machine

/-! ### The cycle and the controller -/

/-- R120, R121, R124, R128 to R130, R132: one step of a running machine counts the cycle, runs steps N3, N2
and N1 with the clock low, and then the rising edge. Where the slot at `x[pc]` decodes to an instruction
that the hazard check lets through, step N1 is the meaning `exec` of that instruction at its admission
point. The rising edge, with the clock high, runs P3, P2 and P1; each is the meaning of the instruction
that its latch holds, at its commit, execute or operand point, and does nothing where its latch is empty
(P1 also where `s1_out` is occupied). The field `point`, put back each time, is the model's own (entry 2). -/
def Obligations.StepRunsTheDecodedInstruction : Prop :=
  (∀ s : State, s.Running →
    step s = andThen (stepN1 (stepN2 (stepN3 (s.nextCycle.emit (.clk false))))) posedge ∧
    ∀ (x : Slot) (i : Instr),
      s.s1In = none → s.fetch s.pcV = some x → s.decode x = .ok i → s.blocked i = false →
      step s =
        andThen (exec i { stepN2 (stepN3 (s.nextCycle.emit (.clk false))) with point := .atAdmission })
          (fun t => posedge { t with point := s.point })) ∧
  (∀ u : State,
    posedge u = andThen (andThen (stepP3 (u.emit (.clk true))) stepP2) stepP1 ∧
    (∀ (d : Decoded) (x : Slot) (i : Instr), u.fetch d.idx = some x → u.decode x = .ok i →
      (u.s3In = some d →
        stepP3 u = andThen (exec i { u with point := .atCommit }) (fun t => .next { t with point := u.point })) ∧
      (u.s2In = some d →
        stepP2 u = andThen (exec i { u with point := .atExecute }) (fun t => .next { t with point := u.point })) ∧
      (u.s1In = some d → u.s1Out = none →
        stepP1 u = andThen (exec i { u with point := .atOperands }) (fun t => .next { t with point := u.point }))) ∧
    (u.s3In = none → stepP3 u = .next u) ∧
    (u.s2In = none → stepP2 u = .next u) ∧
    (u.s1In = none ∨ u.s1Out ≠ none → stepP1 u = .next u))

/-- R122: step N3 takes a completed instruction out of `s2_out` exactly when stage 3 is free and no access
is outstanding; it changes nothing else, and nothing at all otherwise. -/
def Obligations.StageThreeTakesACompletedInstruction : Prop :=
  ∀ s : State,
    (s.s3In = none → s.lsuCnt = 0 → s.s2Out ≠ none →
      (stepN3 s).s3In = s.s2Out ∧ (stepN3 s).s2Out = none ∧
      stepN3 s = { s with s3In := (stepN3 s).s3In, s2Out := (stepN3 s).s2Out }) ∧
    (s.s3In ≠ none ∨ s.lsuCnt ≠ 0 ∨ s.s2Out = none → stepN3 s = s)

/-- R123: step N2 takes an instruction out of `s1_out` exactly when stage 2 is free; it changes nothing
else, and nothing at all otherwise. -/
def Obligations.StageTwoTakesAnInstruction : Prop :=
  ∀ s : State,
    (s.s2In = none → s.s1Out ≠ none →
      (stepN2 s).s2In = s.s1Out ∧ (stepN2 s).s1Out = none ∧
      stepN2 s = { s with s2In := (stepN2 s).s2In, s1Out := (stepN2 s).s1Out }) ∧
    (s.s2In ≠ none ∨ s.s1Out = none → stepN2 s = s)

/-- R125, R94: the candidate is blocked exactly when `pc` is reserved, or it writes back to a reserved
`dst`, or a reserved register is one it reads: a register `dst` of an instruction without write-back, a
register or the base of a register-offset in `op1` or `op2`. -/
def Obligations.BlockedExactlyByThreeHazards : Prop :=
  ∀ (s : State) (i : Instr),
    s.blocked i = true ↔
      pcName ∈ s.res ∨ (i.wb = true ∧ nameOf i.dst ∈ s.res) ∨
      (∃ n, i.wb = false ∧ i.dst = .reg n ∧ ResName.name n ∈ s.res) ∨
      (∃ n, (i.op1 = .reg n ∨ i.op2 = .reg n ∨ (∃ off text, i.op1 = .regOff off n text) ∨
          (∃ off text, i.op2 = .regOff off n text)) ∧
        ResName.name n ∈ s.res)

/-- R124, R125, R268: step N1 leaves the state alone when stage 1 is occupied, when there is no slot at
`x[pc]`, when `pc` is reserved, and when the candidate is blocked. -/
def Obligations.NothingIsAdmittedWhileHeldBack : Prop :=
  ∀ s : State,
    (s.s1In ≠ none → stepN1 s = .next s) ∧
    (s.fetch s.pcV = none → stepN1 s = .next s) ∧
    (pcName ∈ s.res → stepN1 s = .next s) ∧
    (∀ x i, s.fetch s.pcV = some x → s.decode x = .ok i → s.blocked i = true → stepN1 s = .next s)

/-- U7 (R104, R105): a slot that has no instruction is refused by name where it would be admitted: a word
with a reserved descriptor kind or a bit above its descriptors. That the refusal falls there, and that a
record with an empty mnemonic, which R96 keeps out of the buffer, is refused in the same way, is the
model's choice, entry 10; that a word at an infinite width is (R104 gives none there) is entry 11. -/
def Obligations.ReservedWordIsRefusedAtAdmission : Prop :=
  ∀ (s : State) (x : Slot) (e : DecodeError),
    s.s1In = none → s.fetch s.pcV = some x → s.decode x = .error e → pcName ∉ s.res →
    stepN1 s = .refused (.undecodable e)

/-! ### The named operations -/

/-- R27: `increment(n, k)` makes a known register `wrap(x[n] + k)` and changes nothing else; for an unknown
name nothing changes. -/
def Obligations.IncrementAddsAndWraps : Prop :=
  ∀ (s : State) (k : Int),
    (∀ r q : Reg, (s.increment (.known r) k).reg q = if q = r then wrap s.cfg.xlen (s.reg r + k) else s.reg q) ∧
    (∀ n : RegName, s.increment n k = { s with regs := (s.increment n k).regs }) ∧
    (∀ n : RegName, (∀ r, n ≠ .known r) → s.increment n k = s)

/-- R25, R26: a known name reads as its register, and a write makes that register `wrap(v)`, leaves the
others alone and touches nothing but the register file; an unknown name reads as 0 and a write to it
changes no state. A read and a write do not depend on what is reserved. -/
def Obligations.RegistersReadAndWriteByName : Prop :=
  ∀ (s : State) (v : Int),
    (∀ r q : Reg, s.read (.known r) = s.reg r ∧
      (s.write (.known r) v).reg q = if q = r then wrap s.cfg.xlen v else s.reg q) ∧
    (∀ n : RegName, s.write n v = { s with regs := (s.write n v).regs }) ∧
    (∀ n : RegName, (∀ r, n ≠ .known r) → s.read n = 0 ∧ s.write n v = s) ∧
    (∀ (n : RegName) (l : List ResName), ({ s with res := l } : State).read n = s.read n ∧
      (({ s with res := l } : State).write n v).regs = (s.write n v).regs)

/-- R107, R232: a write to an operand that names no known register is dropped, and an unknown register name
reads as 0. That an operand which is no register at all reads as 0, where a branch compares it, is the
model's choice, entry 7. -/
def Obligations.OperandsThatNameNoRegisterAreInert : Prop :=
  ∀ (s : State) (v : Int) (o : Operand), (∀ r : Reg, o ≠ .reg (.known r)) →
    s.readNamed o = 0 ∧ s.writeNamed o v = s

/-- R30, R29: `reserve(L)` is the union of the set with the names of `L`, each name once, and touches nothing
else; a name that is reserved already changes nothing. Names are name strings: two operand tokens are one
name exactly where they are the same token, whatever their classes. -/
def Obligations.ReserveIsTheUnion : Prop :=
  (∀ (s : State) (l : List ResName),
    (∀ n, n ∈ (s.reserve l).res ↔ n ∈ s.res ∨ n ∈ l) ∧
    (s.res.Nodup → (s.reserve l).res.Nodup) ∧
    s.reserve l = { s with res := (s.reserve l).res } ∧
    ((∀ n ∈ l, n ∈ s.res) → s.reserve l = s)) ∧
  ∀ (lbl : List (Token × Nat)) (t u : Token), nameOf (operandOf lbl t) = nameOf (operandOf lbl u) ↔ t = u

/-- R31: `release(L)` takes the names of `L` out of the set, whoever reserved them, and touches nothing
else; releasing names that are not reserved does nothing. -/
def Obligations.ReleaseIsTheDifference : Prop :=
  ∀ (s : State) (l : List ResName),
    (∀ n, n ∈ (s.release l).res ↔ n ∈ s.res ∧ n ∉ l) ∧
    s.release l = { s with res := (s.release l).res } ∧
    ((∀ n ∈ l, n ∉ s.res) → s.release l = s)

/-- R43: `fetch(a)` finds a slot exactly for `0 ≤ a < size`, and it is the one at that index. -/
def Obligations.FetchFindsExactlyTheIndices : Prop :=
  ∀ (s : State) (a : Int),
    (s.fetch a ≠ none ↔ 0 ≤ a ∧ a < (s.size : Int)) ∧
    (∀ k : Nat, s.fetch (k : Int) = s.ib[k]?)

/-- R138: `emptyPipe()`. -/
def Obligations.EmptyPipeLooksAtPcAndTwoLatches : Prop :=
  ∀ s : State, s.emptyPipe = true ↔ (s.size : Int) ≤ s.reg .pc ∧ s.s1Out = none ∧ s.s2Out = none

/-! ### Admission (R126) -/

/-- R126, AK_WB: every write-back instruction (`add`, `addi`, `li`, `lw`, `slli`, `slri`, `sub`), whatever
its operands, is admitted: `pc` becomes `wrap(pc + 1)`, `dst` is reserved, a fresh decoded instruction
that holds this reservation enters stage 1; no other register, no cell and no other field changes. -/
def Obligations.WriteBackInstructionsAreAdmitted : Prop :=
  ∀ (i : Instr) (s : State), i.wb = true → s.point = .atAdmission →
    ∃ t, exec i s = .next t ∧
      (∀ q, t.reg q = if q = .pc then wrap s.cfg.xlen (s.reg .pc + 1) else s.reg q) ∧
      (∀ n, n ∈ t.res ↔ n ∈ s.res ∨ n = nameOf i.dst) ∧
      t.s1In = some { idx := s.reg .pc, dstV := none, op1V := none, op2V := none, memV := none, res := none,
                      reserved := [nameOf i.dst], stalled := false } ∧
      SameMemory s t ∧ t = { s with regs := t.regs, res := t.res, s1In := t.s1In }

/-- R126, AK_PLAIN: `sw`, "other" and the reserved opcode numbers are admitted: `pc` becomes
`wrap(pc + 1)`, nothing is reserved; no other register, no cell and no other field changes. -/
def Obligations.PlainInstructionsAreAdmitted : Prop :=
  ∀ (k : Fin 4) (d a b : Operand) (i : Instr) (s : State),
    i = .sw d a b ∨ i = .other d a b ∨ i = .otherReserved k d a b → s.point = .atAdmission →
    ∃ t, exec i s = .next t ∧
      (∀ q, t.reg q = if q = .pc then wrap s.cfg.xlen (s.reg .pc + 1) else s.reg q) ∧
      t.s1In = some { idx := s.reg .pc, dstV := none, op1V := none, op2V := none, memV := none, res := none,
                      reserved := [], stalled := false } ∧
      SameMemory s t ∧ t = { s with regs := t.regs, s1In := t.s1In }

/-- R126, AK_JUMP: `jal` is admitted: `dst` and `pc` are reserved, and no register changes, `pc` among
them; no cell and no other field changes. -/
def Obligations.JumpIsAdmittedWithPcReserved : Prop :=
  ∀ (d a b : Operand) (s : State), s.point = .atAdmission →
    ∃ t, exec (.jal d a b) s = .next t ∧
      (∀ q, t.reg q = s.reg q) ∧
      (∀ n, n ∈ t.res ↔ n ∈ s.res ∨ n = nameOf d ∨ n = .name (.known .pc)) ∧
      t.s1In = some { idx := s.reg .pc, dstV := none, op1V := none, op2V := none, memV := none, res := none,
                      reserved := [nameOf d, .name (.known .pc)], stalled := false } ∧
      SameMemory s t ∧ t = { s with res := t.res, s1In := t.s1In }

/-- R126, R202, R203, R204: `bge` and `ble` with a literal bound are decided at admission, by a signed
comparison of the register named by `dst` with `imm(op1)`. Taken: `dst` and `pc` are reserved and no
register changes. Not taken: nothing is reserved and `pc` becomes `wrap(pc + 1)`. Nothing else changes. -/
def Obligations.BranchesAreDecidedAtAdmission : Prop :=
  ∀ (d b : Operand) (v : Int) (text : Token) (i : Instr) (taken : Prop) (s : State),
    (i = .bge d (.imm v text) b ∧ (taken ↔ wrap s.cfg.xlen v ≤ s.readNamed d)) ∨
      (i = .ble d (.imm v text) b ∧ (taken ↔ s.readNamed d ≤ wrap s.cfg.xlen v)) →
    s.point = .atAdmission →
    ∃ t, exec i s = .next t ∧
      (taken →
        (∀ q, t.reg q = s.reg q) ∧
        (∀ n, n ∈ t.res ↔ n ∈ s.res ∨ n = nameOf d ∨ n = .name (.known .pc)) ∧
        t.s1In = some (Decoded.fresh (s.reg .pc) [nameOf d, .name (.known .pc)])) ∧
      (¬taken →
        (∀ q, t.reg q = if q = .pc then wrap s.cfg.xlen (s.reg .pc + 1) else s.reg q) ∧
        t.res = s.res ∧
        t.s1In = some (Decoded.fresh (s.reg .pc) [])) ∧
      SameMemory s t ∧ t = { s with regs := t.regs, res := t.res, s1In := t.s1In }

/-- U6 (R101, R202): where `op1` is no literal, `imm(op1)` is undefined, and the branch runs with a free
bound: the decision is the comparison with the free value of the moment, whatever that is. The model's
choice, entry 6. -/
def Obligations.BranchBoundWithoutALiteralIsFree : Prop :=
  ∀ (d a b : Operand) (s : State), (∀ v text, a ≠ .imm v text) → s.point = .atAdmission →
    (∃ t, exec (.bge d a b) s = .next t ∧ t.freeCtr = s.freeCtr + 1 ∧
      (if s.free ≤ s.readNamed d then t.reg .pc = s.reg .pc ∧ pcName ∈ t.res
        else t.reg .pc = wrap s.cfg.xlen (s.reg .pc + 1) ∧ t.res = s.res)) ∧
    (∃ t, exec (.ble d a b) s = .next t ∧ t.freeCtr = s.freeCtr + 1 ∧
      (if s.readNamed d ≤ s.free then t.reg .pc = s.reg .pc ∧ pcName ∈ t.res
        else t.reg .pc = wrap s.cfg.xlen (s.reg .pc + 1) ∧ t.res = s.res))

/-! ### Operand fetch (R132, R136) -/

/-- R132: at its operand fetch every instruction reads the values of its three operands, moves from
`s1_in` to `s1_out`, and changes nothing else. -/
def Obligations.EveryInstructionReadsItsOperands : Prop :=
  ∀ (i : Instr) (s : State) (d : Decoded), s.point = .atOperands → s.s1In = some d →
    ∃ t, exec i s = .next t ∧
      t.s1Out = some { d with dstV := s.val i.dst, op1V := s.val i.op1, op2V := s.val i.op2 } ∧
      t.s1In = none ∧ (∀ q, t.reg q = s.reg q) ∧ SameMemory s t ∧
      t = { s with s1In := t.s1In, s1Out := t.s1Out }

/-- R136, R90: the value of an operand: a known register is read, an unknown one is 0, a register-offset
is the wrapped sum of base and offset, a literal is wrapped, a label is its address, an absent operand
and an unresolved label have none. (That a label's address is wrapped is the model's choice, entry 13;
in the range of a value it is the address.) -/
def Obligations.OperandValueByClass : Prop :=
  ∀ (s : State) (text : Token),
    (∀ r : Reg, s.val (.reg (.known r)) = some (s.reg r)) ∧
    (∀ n : RegName, (∀ r, n ≠ .known r) → s.val (.reg n) = some 0) ∧
    (∀ (off : Int) (r : Reg), s.val (.regOff off (.known r) text) = some (wrap s.cfg.xlen (s.reg r + off))) ∧
    (∀ (off : Int) (n : RegName), (∀ r, n ≠ .known r) →
      s.val (.regOff off n text) = some (wrap s.cfg.xlen off)) ∧
    (∀ v : Int, s.val (.imm v text) = some (wrap s.cfg.xlen v)) ∧
    (∀ a : Int, InRange s.cfg.xlen a → s.val (.label (some a) text) = some a) ∧
    s.val (.label none text) = none ∧ s.val .absent = none

/-! ### Stage 2 (R130, R131, R171 to R176, R190) -/

/-- R172, R173, R174: at stage 2 `add` and `addi` complete with `wrap(op1V + op2V)`, `sub` with
`wrap(op1V - op2V)`: the result is latched, the instruction moves to `s2_out`, and no register, no cell
and no other field changes. -/
def Obligations.SumsAndDifferencesComplete : Prop :=
  ∀ (dst op1 op2 : Operand) (s : State) (d : Decoded) (x y : Int),
    s.point = .atExecute → s.s2In = some d → d.op1V = some x → d.op2V = some y →
    exec (.add dst op1 op2) s =
      .next { s with s2In := none, s2Out := some { d with res := some (wrap s.cfg.xlen (x + y)) } } ∧
    exec (.addi dst op1 op2) s =
      .next { s with s2In := none, s2Out := some { d with res := some (wrap s.cfg.xlen (x + y)) } } ∧
    exec (.sub dst op1 op2) s =
      .next { s with s2In := none, s2Out := some { d with res := some (wrap s.cfg.xlen (x - y)) } }

/-- R171: at stage 2 `li` completes with `op1V` unchanged; no register, no cell and no other field
changes, and `op2` plays no part. -/
def Obligations.LoadImmediateCopies : Prop :=
  ∀ (dst op1 op2 : Operand) (s : State) (d : Decoded) (x : Int),
    s.point = .atExecute → s.s2In = some d → d.op1V = some x →
    exec (.li dst op1 op2) s = .next { s with s2In := none, s2Out := some { d with res := some x } }

/-- R175, R176: at stage 2, for an amount that is not negative, `slli` completes with
`wrap(op1V × 2^op2V)` and `slri` with `floor(op1V / 2^op2V)`; the amount is not reduced. No register, no
cell and no other field changes. -/
def Obligations.ShiftsCompleteWithPowersOfTwo : Prop :=
  ∀ (dst op1 op2 : Operand) (s : State) (d : Decoded) (x : Int) (k : Nat),
    s.point = .atExecute → s.s2In = some d → d.op1V = some x → d.op2V = some (k : Int) →
    exec (.slli dst op1 op2) s =
      .next { s with s2In := none, s2Out := some { d with res := some (wrap s.cfg.xlen (x * 2 ^ k)) } } ∧
    exec (.slri dst op1 op2) s =
      .next { s with s2In := none, s2Out := some { d with res := some (Int.fdiv x (2 ^ k)) } }

/-- R175, R176 corner cases at a finite width: an amount of at least the width shifts `slli` to 0, and one
of at least the width minus one shifts `slri` to 0 or -1 by the sign. -/
def Obligations.LongShiftsLeaveZeroOrTheSign : Prop :=
  ∀ (dst op1 op2 : Operand) (s : State) (d : Decoded) (n k : Nat) (x : Int),
    s.cfg.xlen = some n → 1 ≤ n → InRange s.cfg.xlen x →
    s.point = .atExecute → s.s2In = some d → d.op1V = some x → d.op2V = some (k : Int) →
    (n ≤ k → ∃ t, exec (.slli dst op1 op2) s = .next t ∧ t.s2Out = some { d with res := some 0 }) ∧
    (n - 1 ≤ k → ∃ t, exec (.slri dst op1 op2) s = .next t ∧
      t.s2Out = some { d with res := some (if 0 ≤ x then 0 else -1) })

/-- U1 (R175, R176): for a negative amount no result is stated. The shift runs, its result is the free
value of the moment, in the range of `wrap`, the next use is another free value, and nothing else changes.
The model's choice, entry 5. -/
def Obligations.NegativeShiftAmountGivesAFreeValue : Prop :=
  ∀ (dst op1 op2 : Operand) (i : Instr) (s : State) (d : Decoded) (x y : Int),
    i = .slli dst op1 op2 ∨ i = .slri dst op1 op2 →
    s.point = .atExecute → s.s2In = some d → d.op1V = some x → d.op2V = some y → y < 0 →
    InRange s.cfg.xlen s.free ∧
    exec i s = .next { s with
      s2In := none, s2Out := some { d with res := some s.free }, freeCtr := s.freeCtr + 1 }

/-- R190: the first visit of a load or a store to stage 2 starts the countdown at `LSU_DELAY`, and a later
one that does not bring it to 0 counts down; the instruction stays and shows as a peek. No register, no
cell and no other field changes. -/
def Obligations.MemoryInstructionsCountDown : Prop :=
  ∀ (dst op1 op2 : Operand) (i : Instr) (s : State) (d : Decoded),
    i = .lw dst op1 op2 ∨ i = .sw dst op1 op2 → s.point = .atExecute → s.s2In = some d →
    (d.stalled = false →
      exec i s = .next { s with
        lsuCnt := s.cfg.lsuDelay
        s2In := some { d with stalled := true }
        s2Out := some { d with stalled := true } }) ∧
    (d.stalled = true → 2 ≤ s.lsuCnt →
      exec i s = .next { s with lsuCnt := s.lsuCnt - 1, s2In := some d, s2Out := some d })

/-- R190, R191, R62: on the edge that brings the count to 0 a load reads the cell at `op1V`, keeps it as
its memory value and its result, and moves to `s2_out`. No register, no cell and no other field
changes. -/
def Obligations.LoadCompletesWithTheCell : Prop :=
  ∀ (dst op1 op2 : Operand) (s : State) (d : Decoded) (a : Int),
    s.point = .atExecute → s.s2In = some d → d.stalled = true → s.lsuCnt = 1 → d.op1V = some a →
    ∃ t, exec (.lw dst op1 op2) s = .next t ∧
      t.s2Out = some { d with stalled := false, memV := some (s.memRead a), res := some (s.memRead a) } ∧
      t.s2In = none ∧ t.lsuCnt = 0 ∧ SameMemory s t ∧
      t = { s with s2In := t.s2In, s2Out := t.s2Out, lsuCnt := t.lsuCnt }

/-- R190, R192, R63: on the edge that brings the count to 0 a store writes `dstV` into the cell at `op1V`,
and every other cell reads as before; the instruction moves to `s2_out` without a result, and no
register and no other field changes. -/
def Obligations.StoreCompletesInItsCell : Prop :=
  ∀ (dst op1 op2 : Operand) (s : State) (d : Decoded) (a v : Int), Memory.wf s.mem →
    s.point = .atExecute → s.s2In = some d → d.stalled = true → s.lsuCnt = 1 → d.op1V = some a →
    d.dstV = some v →
    ∃ t, exec (.sw dst op1 op2) s = .next t ∧
      t.memRead a = v ∧ (∀ b, b ≠ a → t.memRead b = s.memRead b) ∧ Memory.wf t.mem ∧
      t.s2Out = some { d with stalled := false } ∧ t.s2In = none ∧ t.lsuCnt = 0 ∧
      t = { s with s2In := t.s2In, s2Out := t.s2Out, lsuCnt := t.lsuCnt, mem := t.mem }

/-- R130, R131, R201, R202, R220: `jal`, `bge`, `ble`, "other" and the reserved opcode numbers complete at
once in stage 2, without a result; no register, no cell and no other field changes. -/
def Obligations.InstructionsWithoutResultPassStageTwo : Prop :=
  ∀ (k : Fin 4) (dst op1 op2 : Operand) (i : Instr) (s : State) (d : Decoded),
    i = .jal dst op1 op2 ∨ i = .bge dst op1 op2 ∨ i = .ble dst op1 op2 ∨ i = .other dst op1 op2 ∨
      i = .otherReserved k dst op1 op2 →
    s.point = .atExecute → s.s2In = some d →
    exec i s = .next { s with s2In := none, s2Out := some d }

/-- U3 (R136): a value that is `⊥` and is used stops the model at the point of use: a source of an ALU
instruction, an address, store data, a jump target, and the target of a branch that jumps at its commit,
under `BR_WB_UNCOND` or because it was taken. That a record with one is run up to there is the model's
choice, entry 7; which operands have no target is entry 29. -/
def Obligations.MissingValueStopsWhereItIsUsed : Prop :=
  ∀ (dst op1 op2 : Operand) (s : State) (d : Decoded),
    (s.point = .atExecute → s.s2In = some d → d.op1V = none →
      exec (.li dst op1 op2) s = .fault .noValue ∧ exec (.add dst op1 op2) s = .fault .noValue ∧
      exec (.addi dst op1 op2) s = .fault .noValue ∧ exec (.sub dst op1 op2) s = .fault .noValue ∧
      exec (.slli dst op1 op2) s = .fault .noValue ∧ exec (.slri dst op1 op2) s = .fault .noValue) ∧
    (s.point = .atExecute → s.s2In = some d → d.op2V = none →
      exec (.add dst op1 op2) s = .fault .noValue ∧ exec (.addi dst op1 op2) s = .fault .noValue ∧
      exec (.sub dst op1 op2) s = .fault .noValue ∧ exec (.slli dst op1 op2) s = .fault .noValue ∧
      exec (.slri dst op1 op2) s = .fault .noValue) ∧
    (s.point = .atExecute → s.s2In = some d → d.stalled = true → s.lsuCnt = 1 → d.op1V = none →
      exec (.lw dst op1 op2) s = .fault .noValue ∧ exec (.sw dst op1 op2) s = .fault .noValue) ∧
    (s.point = .atExecute → s.s2In = some d → d.stalled = true → s.lsuCnt = 1 → d.dstV = none →
      exec (.sw dst op1 op2) s = .fault .noValue) ∧
    (s.point = .atCommit → s.s3In = some d → d.op1V = none →
      exec (.jal dst op1 op2) s = .fault .noValue) ∧
    (s.point = .atCommit → s.s3In = some d → s.cfg.brWbUncond = true ∨ pcName ∈ d.reserved →
      s.targetOf op2 = none →
      exec (.bge dst op1 op2) s = .fault .noValue ∧ exec (.ble dst op1 op2) s = .fault .noValue)

/-! ### Commit (R129) -/

/-- R129, CK_WB, R26: at its commit every write-back instruction (`add`, `addi`, `li`, `lw`, `slli`,
`slri`, `sub`) writes `wrap` of its result into the register its `dst` names, drops the write where `dst`
names no known register, leaves every other register and every cell alone, and retires. -/
def Obligations.WriteBackInstructionsCommitTheirResult : Prop :=
  ∀ (i : Instr) (s : State) (d : Decoded) (v : Int),
    i.wb = true → s.point = .atCommit → s.s3In = some d → d.res = some v →
    ∃ t, exec i s = .next t ∧
      (∀ q, t.reg q = if i.dst = .reg (.known q) then wrap s.cfg.xlen v else s.reg q) ∧
      SameMemory s t ∧ RetiredFrom d s t

/-- R129, CK_NONE: at their commit `sw`, "other" and the reserved opcode numbers write no register and no
cell, and retire. -/
def Obligations.PlainInstructionsCommitNothing : Prop :=
  ∀ (k : Fin 4) (dst op1 op2 : Operand) (i : Instr) (s : State) (d : Decoded),
    i = .sw dst op1 op2 ∨ i = .other dst op1 op2 ∨ i = .otherReserved k dst op1 op2 →
    s.point = .atCommit → s.s3In = some d →
    ∃ t, exec i s = .next t ∧ (∀ q, t.reg q = s.reg q) ∧ SameMemory s t ∧ RetiredFrom d s t

/-- R201, R274: at its commit `jal` writes its target, and no return address, into `dst` and into `pc`; a
`dst` that names no known register drops that write and the jump is made; every other register and every
cell is as before, and the instruction retires. -/
def Obligations.JumpCommitsItsTargetAndNoLink : Prop :=
  ∀ (dst op1 op2 : Operand) (s : State) (d : Decoded) (target : Int),
    s.point = .atCommit → s.s3In = some d → d.op1V = some target →
    ∃ t, exec (.jal dst op1 op2) s = .next t ∧
      (∀ q, t.reg q = if q = .pc ∨ dst = .reg (.known q) then wrap s.cfg.xlen target else s.reg q) ∧
      SameMemory s t ∧ RetiredFrom d s t

/-- R202, R205, R89: at their commit `bge` and `ble` with a literal in `op1` write the address of their label
into `pc` where `BR_WB_UNCOND` holds or they reserved `pc`, and write no register otherwise; every other
register and every cell is as before, and the instruction retires either way. The address is the direct
lookup of the token of `op2`, whatever its class; a resolved label of a binary word is its own address. -/
def Obligations.BranchCommitsByTheParameter : Prop :=
  (∀ (dst op2 : Operand) (v target : Int) (text : Token) (i : Instr) (s : State) (d : Decoded),
    i = .bge dst (.imm v text) op2 ∨ i = .ble dst (.imm v text) op2 → s.targetOf op2 = some target →
    s.point = .atCommit → s.s3In = some d →
    ∃ t, exec i s = .next t ∧
      (s.cfg.brWbUncond = true ∨ pcName ∈ d.reserved →
        ∀ q, t.reg q = if q = .pc then wrap s.cfg.xlen target else s.reg q) ∧
      (s.cfg.brWbUncond = false → pcName ∉ d.reserved → ∀ q, t.reg q = s.reg q) ∧
      SameMemory s t ∧ RetiredFrom d s t) ∧
  ∀ s : State,
    (∀ token : Token, s.targetOf (operandOf s.lbl token) = labelAddress s.lbl token) ∧
    (∀ (target : Option Int) (text : Token), s.targetOf (.label target text) = target)

/-- R202, R271: where a record puts a register into `op1`, a branch that jumps at its commit overwrites that
register with its target too, and writes nothing into an unknown one. That such a record runs is the
model's choice, entry 6. -/
def Obligations.BranchOverwritesTheRegisterOfOpOne : Prop :=
  ∀ (dst op2 : Operand) (n : RegName) (target : Int) (i : Instr) (s : State) (d : Decoded),
    i = .bge dst (.reg n) op2 ∨ i = .ble dst (.reg n) op2 → s.targetOf op2 = some target →
    s.point = .atCommit → s.s3In = some d → s.cfg.brWbUncond = true ∨ pcName ∈ d.reserved →
    ∃ t, exec i s = .next t ∧
      (∀ q, t.reg q = if q = .pc ∨ n = .known q then wrap s.cfg.xlen target else s.reg q) ∧
      SameMemory s t ∧ RetiredFrom d s t

/-! ### Reset, the end of a run, the report -/

/-- R47, R260: reset puts every register to 0, the reservation set to empty, the six latches to none, both
counters to 0 and every cell to 0, and leaves the buffer, the labels and the parameters alone; the reset
state is one it leaves as it is. -/
def Obligations.ResetPutsEveryPieceOfState : Prop :=
  ∀ s : State,
    (∀ q, s.toReset.reg q = 0) ∧ s.toReset.res = [] ∧
    s.toReset.s1In = none ∧ s.toReset.s1Out = none ∧ s.toReset.s2In = none ∧ s.toReset.s2Out = none ∧
    s.toReset.s3In = none ∧ s.toReset.s3Out = none ∧ s.toReset.lsuCnt = 0 ∧ s.toReset.retired = 0 ∧
    (∀ a, s.toReset.memRead a = 0) ∧
    s.toReset.ib = s.ib ∧ s.toReset.lbl = s.lbl ∧ s.toReset.size = s.size ∧ s.toReset.cfg = s.cfg ∧
    State.reset.toReset = State.reset

/-- R263: while `rst` is 1 the state is held at the values of R47 and edges do nothing. The pin as a field
is the model's choice, entry 18. -/
def Obligations.ResetPinHoldsTheMachine : Prop :=
  ∀ s : State, s.cfg.legal = true → s.rst = true → step s = .next s.toReset ∧ s.toReset.rst = true

/-- R247, R140: after the end of a run, drained, capped or without a program, the core holds its state. That
a step then answers the same state is the model's choice, entry 3. -/
def Obligations.EndedRunHoldsItsState : Prop :=
  ∀ s : State, s.cfg.legal = true → s.rst = false →
    s.size = 0 ∨ s.emptyPipe = true ∨ s.cfg.cycleCap ≤ s.cycle → step s = .next s

/-- U9: a delay of 0 is not a legal parameter and is refused. That a width of no bits is refused too is the
model's choice, entry 14. -/
def Obligations.IllegalParametersAreRefused : Prop :=
  ∀ s : State, s.cfg.lsuDelay = 0 ∨ s.cfg.xlen = some 0 → step s = .refused .illegalParameter

/-! ### Rules of the whole machine -/

/-- R42, R73, R6: no step changes the buffer, the labels or the parameters, whatever the instructions in the
pipe do. That it does not change the reset pin either, an input (R263), nor the field `point`, is the
model's choice: both are fields of the state (entries 18 and 2). -/
def Obligations.ProgramAndParametersAreReadOnly : Prop :=
  ∀ s t : State, step s = .next t → t.ib = s.ib ∧ t.lbl = s.lbl ∧ t.cfg = s.cfg ∧ t.rst = s.rst ∧ t.point = s.point

/-- R65, R190: out of reset a cell changes in a step only where stage 2 holds a `sw` whose access is
performed in this cycle, and then it is the cell at its `op1V`, which takes its `dstV`. -/
def Obligations.OnlyAStoreChangesMemory : Prop :=
  ∀ (s t : State) (a : Int), Memory.wf s.mem → s.rst = false → step s = .next t → t.memRead a ≠ s.memRead a →
    ∃ d dst op1 op2, (stepN2 (stepN3 s)).s2In = some d ∧ s.instrAt d.idx = some (.sw dst op1 op2) ∧
      d.stalled = true ∧ s.lsuCnt ≤ 1 ∧ d.op1V = some a ∧ d.dstV = some (t.memRead a)

/-- R129, R241, R242, R244, R245: a cycle of a running machine adds one to the cycle number, drives the clock
low and then high, and either retires nothing, or retires the one instruction that step N3 left in stage
3: one retire event with the number of this cycle and its index, and the counter one higher. Where the
clock events stand in the list beside the retire event of their cycle is the model's choice, entry 19. -/
def Obligations.EachCycleRetiresAtMostOne : Prop :=
  ∀ s t : State, s.Running → step s = .next t →
    t.cycle = s.cycle + 1 ∧
    (((stepN3 s).s3In = none ∧ t.retired = s.retired ∧
        t.events = s.events ++ [.clk false, .clk true]) ∨
     (∃ d, (stepN3 s).s3In = some d ∧ t.retired = s.retired + 1 ∧
        t.events = s.events ++ [.clk false, .clk true, .retire t.cycle d.idx]))

/-- R38: no more instructions have retired than cycles have run; every step keeps it. -/
def Obligations.RetiredNeverPassesTheCycleNumber : Prop :=
  ∀ s t : State, s.retired ≤ s.cycle → step s = .next t → t.retired ≤ t.cycle

/-! ### Invariants -/

/-- Every step keeps the canonical form of memory: addresses strictly rising, no cell listed that reads 0.
The form is the model's choice, entry 15: R39 gives a map from values to values that is 0 everywhere but
at finitely many addresses, and R63 a write that changes one cell. -/
def Obligations.MemoryFormIsKept : Prop :=
  ∀ s t : State, Memory.wf s.mem → step s = .next t → Memory.wf t.mem

/-- R9: every step keeps every stored value in the range of `wrap`. -/
def Obligations.StoredValuesStayInRange : Prop :=
  ∀ s t : State, RangeInv s → step s = .next t → RangeInv t

/-- R143 (a) to (d), R37: every step keeps the invariant of the latches and the countdown. -/
def Obligations.PipelineInvariantIsKept : Prop :=
  ∀ s t : State, PipeInv s → step s = .next t → PipeInv t

/-- R143 (e), R33: for a well-formed program every step keeps the reservation set the disjoint union of what
the instructions in flight reserved. -/
def Obligations.ReservationInvariantIsKept : Prop :=
  ∀ s t : State, s.ProgramWf → PipeInv s → ReservationInv s → step s = .next t → ReservationInv t

/-- R47: the reset state meets every invariant. -/
def Obligations.ResetMeetsTheInvariants : Prop :=
  Memory.wf State.reset.mem ∧ RangeInv State.reset ∧ PipeInv State.reset ∧ ReservationInv State.reset ∧
    DataInv State.reset ∧ State.reset.retired ≤ State.reset.cycle

/-- R143 (f): under the invariants, `emptyPipe()` between cycles means that nothing is in flight, nothing is
reserved and no access is outstanding. -/
def Obligations.EmptyPipeMeansNothingInFlight : Prop :=
  ∀ s : State, PipeInv s → ReservationInv s → s.emptyPipe = true → s.Quiet

/-- R230, R232: under a well-formed program no step faults and none is refused, whatever the registers and
the memory hold, and the invariants carry on. That a shift by a negative amount goes on with a free value,
where U1 names a fault first, is the model's choice, entry 5. -/
def Obligations.WellFormedProgramsNeverStop : Prop :=
  ∀ s : State, s.cfg.legal = true → s.ProgramWf → PipeInv s → DataInv s →
    ∃ t, step s = .next t ∧ PipeInv t ∧ DataInv t

/-- R230, R262: a program that the loader accepts, from records or as a binary image, runs for any number of
steps without a fault and without a refusal. That a negative shift amount runs on with a free value is
the model's choice, entry 5. -/
def Obligations.LoadedProgramsRunOn : Prop :=
  ∀ (c : Config) (rs : List RawRecord) (ws : List (Nat × Token)) (s : State) (k : Nat),
    load c rs = .ok s ∨ loadWords c ws = .ok s → ∃ t, runFor k s = .next t

/-! ### One instruction, from admission to retirement -/

/-- R144, R145, R194: in a running machine with an empty pipe, a well-formed instruction behind which the
buffer holds nothing is admitted and retires in the third cycle, or `LSU_DELAY` cycles later for `lw` and
`sw`, and leaves the registers, the memory and the retired counter as the sequential interpreter does, an
empty pipe, and its retire event. For `BR_WB_UNCOND` false (R205). A shift by a negative amount takes the
free value of the moment on both sides: the model's choice, entry 5. -/
def Obligations.OneInstructionRunsAsTheSequentialReading : Prop :=
  ∀ (s : State) (x : Slot) (i : Instr) (k : Nat),
    s.Running → s.Quiet → s.cfg.brWbUncond = false →
    s.fetch s.pcV = some x → s.decode x = .ok i → i.wf = true →
    s.fetch (wrap s.cfg.xlen (s.pcV + 1)) = none →
    k = 3 + (if i.st || i.ld then s.cfg.lsuDelay else 0) → s.cycle + k ≤ s.cfg.cycleCap →
    ∃ t u, runFor k s = .next t ∧ sequential i s = .next u ∧
      (∀ q, t.reg q = u.reg q) ∧ (∀ a, t.memRead a = u.memRead a) ∧ t.retired = u.retired ∧
      t.Quiet ∧ t.cycle = s.cycle + k ∧ Event.retire (s.cycle + k) s.pcV ∈ t.events

/-! ### Encoding -/

/-- R104 to R107: at every finite width decode and encode agree, for every instruction that has a word, with
every operand at every value the encoding has room for. -/
def Obligations.DecodeOfEncodeIsTheInstruction : Prop :=
  ∀ (n : Nat) (i : Instr), 1 ≤ n → i.encodable n = true → decodeWord n (encode n i) = .ok i

/-- R104, R105, R107: the decoder answers an instruction for a word exactly when every bit above the three
descriptors is 0 and no descriptor has kind 6 or 7; its opcode number is then the low four bits. That a
word with a nonzero `reg` or `val` subfield its kind does not use is among them is the model's reading of
R105 and R107, entry 9. U7 names bits 127 to 124 of the word at width 32; that at another width the bits
that pad the word have to be 0 too is the model's choice, entry 10. -/
def Obligations.DecoderRefusesExactlyTheReservedWords : Prop :=
  ∀ n w : Nat,
    ((∃ i, decodeWord n w = .ok i) ↔
      w < 2 ^ (28 + 3 * n) ∧ w / 2 ^ 4 % 8 < 6 ∧ w / 2 ^ (12 + n) % 8 < 6 ∧ w / 2 ^ (20 + 2 * n) % 8 < 6) ∧
    (∀ i, decodeWord n w = .ok i → i.opc = w % 16)

/-- R104 to R107, 95_test_vectors.md section 4: words of each family decode to what they stand for. -/
def Obligations.WorkedWordsDecode : Prop :=
  decodeWord 32 0x00000000041000000003900000000491 =
    .ok (.add (.reg (.known .t2)) (.reg (.known .t0)) (.reg (.known .t1))) ∧
  decodeWord 32 0x00000000000fffffffc3a00000000414 =
    .ok (.lw (.reg (.known .t1)) (.regOff (-4) (.known .t0)) .absent) ∧
  decodeWord 32 0x00000000704ffffffff030000000039a =
    .ok (.bge (.reg (.known .t0)) (.imm (-1)) (.label (some 7))) ∧
  decodeWord 32 0 = .ok (.other .absent .absent .absent)

/-- R107, R106: the word the assembler writes for a record decodes to the abstract record of it, its unknown
names numbered and its values wrapped, and distinct unknown names get distinct numbers. That offsets and
label addresses out of range are wrapped, and the order of the names within one record, are the model's
reading, entry 26. In the machine that the loader makes of the records, `slotWord`, the word of a slot that
`ib_word` shows (R263), is for each slot the assembled word: the model's reading, entry 28. -/
def Obligations.AssembledWordsDecodeToTheirRecords : Prop :=
  ∀ (n : Nat) (p : Program) (ws : List Nat), 1 ≤ n → assemble n p = .ok ws →
    ws.map (decodeWord n) =
      p.instrs.map (fun i => .ok (mapOperands (numberOperand n (unknownNames p.instrs)) i)) ∧
    (∀ a ∈ unknownNames p.instrs, ∀ b ∈ unknownNames p.instrs,
      numberName (unknownNames p.instrs) (.tok a) = numberName (unknownNames p.instrs) (.tok b) → a = b) ∧
    (∀ (c : Config) (rs : List RawRecord) (s : State), load c rs = .ok s → c.xlen = some n →
      p = Program.ofRecords rs → s.ib.map s.slotWord = ws.map some)

/-! ### The loader -/

/-- R88: the four patterns of the classifier are pairwise disjoint, and the empty token matches none. -/
def Obligations.OperandClassesAreDisjoint : Prop :=
  (∀ t : Token,
    (isRegister t = true → isRegisterOffset t = false ∧ isHexImmediate t = false ∧ isDecimalImmediate t = false) ∧
    (isRegisterOffset t = true → isHexImmediate t = false ∧ isDecimalImmediate t = false) ∧
    (isHexImmediate t = true → isDecimalImmediate t = false)) ∧
  isRegister [] = false ∧ isRegisterOffset [] = false ∧ isHexImmediate [] = false ∧ isDecimalImmediate [] = false

/-- R42, R96, R97, R98: in a built program every label is bound to an index of the buffer whose record carries
that label, no later record carries it, no label is empty or bound twice; every label a record carries is
bound; and the record at index `a` has the sequence id `a + 1` and a mnemonic. -/
def Obligations.BuiltProgramsHaveSoundLabels : Prop :=
  ∀ (rs : List RawRecord) (p : Program), p = Program.ofRecords rs →
    (∀ l j, (l, j) ∈ p.lbl → l ≠ [] ∧ (∃ r, p.ib[j]? = some r ∧ r.label = l) ∧
      ∀ k r, j < k → p.ib[k]? = some r → r.label ≠ l) ∧
    (p.lbl.map Prod.fst).Nodup ∧
    (∀ (k : Nat) (r : Record), p.ib[k]? = some r → r.label ≠ [] → ∃ j, (r.label, j) ∈ p.lbl) ∧
    (∀ a r, p.ib[a]? = some r → r.id = a + 1 ∧ r.mn ≠ [])

/-- R100, R101, R107, R233, R262: the loader accepts a program, from records or as a binary image, exactly where
the parameters are legal, it is not empty and every slot of it is well-formed; the machine is then the
reset one with that program: nothing is in flight, every register and every cell is 0, nothing has retired
and no cycle has run. -/
def Obligations.LoaderAcceptsOnlyWellFormedPrograms : Prop :=
  ∀ (c : Config) (s : State),
    (∀ rs : List RawRecord, load c rs = .ok s ↔
      c.legal = true ∧ (Program.ofRecords rs).ib ≠ [] ∧ s.ProgramWf ∧
      s = { State.reset with
        cfg := c, ib := (Program.ofRecords rs).ib.map Slot.record, lbl := (Program.ofRecords rs).lbl }) ∧
    (∀ ws : List (Nat × Token), loadWords c ws = .ok s ↔
      c.legal = true ∧ ws ≠ [] ∧ s.ProgramWf ∧
      s = { State.reset with cfg := c, ib := ws.map (fun p => Slot.word p.1 p.2), lbl := [] }) ∧
    (∀ (rs : List RawRecord) (ws : List (Nat × Token)), load c rs = .ok s ∨ loadWords c ws = .ok s →
      s.Quiet ∧ s.size ≠ 0 ∧ (∀ q, s.reg q = 0) ∧ (∀ a, s.memRead a = 0) ∧ s.retired = 0 ∧ s.cycle = 0 ∧
      s.rst = false ∧ s.events = [])

/-- The host's fetch word: from every state, the next step of the machine with a table word placed fetches
that word, decodes it to the instruction the table word stands for, and lets it through. The model's
choice, entry 12. -/
def Obligations.PlacedWordIsFetchedNext : Prop :=
  ∀ (s : State) (nbits w : Nat) (i : Instr), decodeTableWord nbits w = some i →
    ∃ x, (s.withFetchWord nbits w).fetch (s.withFetchWord nbits w).pcV = some x ∧
      (s.withFetchWord nbits w).decode x = .ok i ∧
      (s.withFetchWord nbits w).Running ∧ (s.withFetchWord nbits w).s1In = none ∧
      (s.withFetchWord nbits w).blocked i = false
end

