-- ==== Sys2Proof/Laws/Arith.lean ====
section
/-! SUPPORT. What `wrap` and the shifts do (R9, R175, R176). -/

namespace Sys2Proof

@[simp] theorem wrap_infinite (v : Int) : wrap none v = v := rfl

theorem pow_pred_double {n : Nat} (h : 1 ≤ n) : ((2 ^ n : Nat) : Int) = 2 * ((2 ^ (n - 1) : Nat) : Int) := by
  obtain ⟨m, rfl⟩ : ∃ m, n = m + 1 := ⟨n - 1, by omega⟩
  simp [pow_succ, mul_comm]

theorem pow_pos_int (n : Nat) : (0 : Int) < ((2 ^ n : Nat) : Int) := by
  exact_mod_cast Nat.two_pow_pos n

/-- `wrap` lands in the signed range (R9). -/
theorem wrap_range {n : Nat} (h : 1 ≤ n) (v : Int) :
    -((2 ^ (n - 1) : Nat) : Int) ≤ wrap (some n) v ∧ wrap (some n) v < ((2 ^ (n - 1) : Nat) : Int) := by
  have h2 := pow_pred_double h
  have hp := pow_pos_int (n - 1)
  have h0 := Int.emod_nonneg v (show ((2 ^ n : Nat) : Int) ≠ 0 by have := pow_pos_int n; omega)
  have h1 := Int.emod_lt_of_pos v (pow_pos_int n)
  simp only [wrap]
  generalize ((2 ^ n : Nat) : Int) = m at h0 h1 h2 ⊢
  generalize ((2 ^ (n - 1) : Nat) : Int) = k at hp h2 ⊢
  split <;> omega

/-- `wrap` changes a value by a multiple of `2^XLEN` (R9). -/
theorem wrap_emod (n : Nat) (v : Int) : wrap (some n) v % ((2 ^ n : Nat) : Int) = v % ((2 ^ n : Nat) : Int) := by
  simp only [wrap]
  split <;> simp

/-- A value of the signed range is its own `wrap` (R9). -/
theorem wrap_of_range {n : Nat} (h : 1 ≤ n) {v : Int} (h1 : -((2 ^ (n - 1) : Nat) : Int) ≤ v)
    (h2 : v < ((2 ^ (n - 1) : Nat) : Int)) : wrap (some n) v = v := by
  have hd := pow_pred_double h
  have hp := pow_pos_int (n - 1)
  simp only [wrap]
  generalize ((2 ^ n : Nat) : Int) = m at hd ⊢
  generalize ((2 ^ (n - 1) : Nat) : Int) = k at h1 h2 hd hp ⊢
  rcases Int.lt_or_le v 0 with hv | hv
  · have : v % m = v + m := by
      rw [← Int.add_emod_right, Int.emod_eq_of_lt] <;> omega
    rw [this, if_neg (by omega)]
    omega
  · have : v % m = v := by rw [Int.emod_eq_of_lt] <;> omega
    rw [this, if_pos (by omega)]

/-- Two values that differ by a multiple of `2^XLEN` have one `wrap` (R9). -/
theorem wrap_congr {n : Nat} {v w : Int} (h : v % ((2 ^ n : Nat) : Int) = w % ((2 ^ n : Nat) : Int)) :
    wrap (some n) v = wrap (some n) w := by
  simp only [wrap, h]

/-- `wrap` is idempotent: what is stored is in range (R9). -/
@[simp] theorem wrap_wrap (x : Option Nat) (v : Int) : wrap x (wrap x v) = wrap x v := by
  cases x with
  | none => rfl
  | some n => exact wrap_congr (wrap_emod n v)

@[simp] theorem wrap_zero (x : Option Nat) : wrap x 0 = 0 := by
  cases x with
  | none => rfl
  | some n =>
    have := pow_pos_int (n - 1)
    simp [wrap]

theorem inRange_wrap (x : Option Nat) (v : Int) : InRange x (wrap x v) := wrap_wrap x v

theorem inRange_zero (x : Option Nat) : InRange x 0 := wrap_zero x

/-- At a finite width being in range is lying between the bounds of R9. -/
theorem inRange_iff {n : Nat} (h : 1 ≤ n) (v : Int) :
    InRange (some n) v ↔ -((2 ^ (n - 1) : Nat) : Int) ≤ v ∧ v < ((2 ^ (n - 1) : Nat) : Int) :=
  ⟨fun hv => hv ▸ wrap_range h v, fun hv => wrap_of_range h hv.1 hv.2⟩

/-- The shortcut of `shiftLeft` is the formula of R175: `wrap(v × 2^k)` for every amount. -/
theorem shiftLeft_eq (x : Option Nat) (v : Int) (k : Nat) :
    shiftLeft x v k = wrap x (v * ((2 ^ k : Nat) : Int)) := by
  cases x with
  | none => rfl
  | some n =>
    simp only [shiftLeft]
    split
    · next h =>
      have hd : ((2 ^ n : Nat) : Int) ∣ v * ((2 ^ k : Nat) : Int) :=
        Dvd.dvd.mul_left (by exact_mod_cast pow_dvd_pow 2 h) v
      rw [wrap_congr (w := 0) (by rw [Int.emod_eq_zero_of_dvd hd]; simp), wrap_zero]
    · rfl

/-- `shiftRight` is the floor of R176. -/
theorem shiftRight_eq (v : Int) (k : Nat) : shiftRight v k = v / ((2 ^ k : Nat) : Int) :=
  Int.shiftRight_eq_div_pow v k

theorem shiftLeft_inRange (x : Option Nat) (v : Int) (k : Nat) : InRange x (shiftLeft x v k) := by
  rw [shiftLeft_eq]
  exact inRange_wrap x _

end Sys2Proof
end

