-- ==== Sys2Proof/Laws/CaseFold.lean ====
section
/-! SUPPORT. What the case folding of R81 leaves: a token in which no character has another lower-case
form, so that a second folding changes nothing. -/

set_option autoImplicit false

namespace Sys2Proof

/-- No code of the run `q` is a lower-case form of a code of the run `r`. -/
def CaseRun.apart (r q : CaseRun) : Bool :=
  Nat.blt (r.image r.last) q.first || Nat.blt q.last (r.image r.first) ||
    (Nat.beq r.step 2 && Nat.beq q.step 2 && Nat.beq ((r.image r.first + q.first) % 2) 1)

/-- The lower-case forms of the run are characters, and none is one of A to Z. -/
def CaseRun.sound (r : CaseRun) : Bool :=
  Nat.ble r.down (r.first + r.up) &&
  (Nat.blt (r.image r.last) 65 || Nat.blt 90 (r.image r.first)) &&
  (Nat.blt (r.image r.last) 55296 || (Nat.blt 57343 (r.image r.first) && Nat.blt (r.image r.last) 1114112))

theorem caseRuns_apart : (caseRuns.all fun r => caseRuns.all fun q => r.apart q) = true := by
  decide +kernel

theorem caseRuns_sound : (caseRuns.all fun r => r.sound) = true := by
  decide +kernel

theorem not_covers_image {r q : CaseRun} {n : Nat} (h : r.apart q = true) (hd : r.down ≤ r.first + r.up)
    (hn : r.covers n = true) : q.covers (r.image n) = false := by
  simp only [CaseRun.apart, CaseRun.covers, CaseRun.image, Bool.or_eq_true, Bool.and_eq_true, Nat.blt_eq,
    Nat.ble_eq, Nat.beq_eq, Bool.and_eq_false_iff] at *
  by_contra hc
  simp only [not_or, Bool.not_eq_false, Nat.ble_eq, Nat.beq_eq] at hc
  obtain ⟨⟨h1, h2⟩, h3⟩ := hn
  obtain ⟨⟨h4, h5⟩, h6⟩ := hc
  rcases h with (h | h) | ⟨⟨ha, hb⟩, hp⟩
  · omega
  · omega
  · rw [ha] at h3
    rw [hb] at h6
    omega

/-- A lower-case form is its own lower-case form (R81). -/
theorem lowerCode_idem (n : Nat) : lowerCode (lowerCode n) = lowerCode n := by
  by_cases h : n < 128
  · unfold lowerCode
    split_ifs <;> first | rfl | omega
  · cases hf : caseRuns.find? (fun r => r.covers n) with
    | none =>
      have : lowerCode n = n := by simp [lowerCode, h, hf]
      rw [this, this]
    | some r =>
      have hi : lowerCode n = r.image n := by simp [lowerCode, h, hf]
      have hr := List.mem_of_find?_eq_some hf
      have hn : r.covers n = true := by simpa using List.find?_some hf
      have ha := List.all_eq_true.1 (List.all_eq_true.1 caseRuns_apart r hr)
      have hs := List.all_eq_true.1 caseRuns_sound r hr
      simp only [CaseRun.sound, Bool.and_eq_true, Bool.or_eq_true, Nat.blt_eq, Nat.ble_eq] at hs
      have hnone : caseRuns.find? (fun q => q.covers (r.image n)) = none :=
        List.find?_eq_none.2 fun q hq => by simp [not_covers_image (ha q hq) hs.1.1 hn]
      have hb : r.image r.first ≤ r.image n ∧ r.image n ≤ r.image r.last := by
        simp only [CaseRun.covers, Bool.and_eq_true, Nat.ble_eq] at hn
        unfold CaseRun.image
        omega
      rw [hi]
      unfold lowerCode
      rw [hnone]
      split_ifs <;> first | rfl | omega

/-- A lower-case form is the code of a character. -/
theorem lowerCode_valid {n : Nat} (h : n.isValidChar) : (lowerCode n).isValidChar := by
  unfold Nat.isValidChar at *
  by_cases h1 : n < 128
  · unfold lowerCode
    split_ifs <;> omega
  · cases hf : caseRuns.find? (fun r => r.covers n) with
    | none => simpa [lowerCode, h1, hf] using h
    | some r =>
      have hs := List.all_eq_true.1 caseRuns_sound r (List.mem_of_find?_eq_some hf)
      have hn : r.covers n = true := by simpa using List.find?_some hf
      simp only [CaseRun.sound, CaseRun.covers, CaseRun.image, Bool.and_eq_true, Bool.or_eq_true, Nat.blt_eq,
        Nat.ble_eq] at hs hn
      simp only [lowerCode, h1, hf, if_false, CaseRun.image]
      omega

theorem toNat_lowerChar (c : Char) : (lowerChar c).toNat = lowerCode c.toNat := by
  have h : (lowerCode c.toNat).isValidChar := lowerCode_valid c.valid
  unfold lowerChar
  rw [Char.toNat_ofNat, if_pos h]

/-- Folding a character twice is folding it once (R81). -/
@[simp] theorem lowerChar_idem (c : Char) : lowerChar (lowerChar c) = lowerChar c := by
  show Char.ofNat (lowerCode (lowerChar c).toNat) = lowerChar c
  rw [toNat_lowerChar, lowerCode_idem]
  rfl

/-- Folding a token twice is folding it once: after R81 no character has another lower-case form. -/
@[simp] theorem lowerToken_idem (t : Token) : lowerToken (lowerToken t) = lowerToken t := by
  simp [lowerToken]

end Sys2Proof
end

