-- ==== Sys2Proof/Laws/Memory.lean ====
section
/-! SUPPORT. The memory operations keep the canonical form, and a read after a write (R62, R63). -/

namespace Sys2Proof.Machine

/-- Every cell of a list lies above an address. -/
abbrev Above (a : Int) (m : List (Int × Int)) : Prop := ∀ p ∈ m, a < p.1

theorem writeCell_above {b a : Int} {m : List (Int × Int)} {v : Int} (hb : b < a) (h : Above b m) :
    Above b (writeCell m a v) := by
  induction m with
  | nil => intro p; simp only [writeCell]; split <;> simp +contextual [hb]
  | cons q m ih =>
    obtain ⟨c, w⟩ := q
    have hc : b < c := h (c, w) (by simp)
    have hm : Above b m := fun p hp => h p (by simp [hp])
    intro p hp
    simp only [writeCell] at hp
    split at hp
    · rcases List.mem_cons.1 hp with rfl | hp
      · exact hc
      · exact ih hm p hp
    · split at hp
      · split at hp
        · exact hm p hp
        · rcases List.mem_cons.1 hp with rfl | hp
          · exact hb
          · exact hm p hp
      · split at hp
        · exact h p hp
        · rcases List.mem_cons.1 hp with rfl | hp
          · exact hb
          · exact h p hp

/-- A write keeps the canonical form. -/
theorem memory_wf_writeCell {m : List (Int × Int)} (h : Memory.wf m) (a : Int) (v : Int) :
    Memory.wf (writeCell m a v) := by
  induction m with
  | nil => simp only [writeCell]; split <;> simp_all [Memory.wf]
  | cons q m ih =>
    obtain ⟨b, w⟩ := q
    obtain ⟨hp, hz⟩ := h
    obtain ⟨hb, hp⟩ := List.pairwise_cons.1 hp
    have hm : Memory.wf m := ⟨hp, fun p hp => hz p (by simp [hp])⟩
    have hw : w ≠ unwrittenCell := hz (b, w) (by simp)
    simp only [writeCell]
    split
    · next hlt =>
      exact ⟨List.pairwise_cons.2 ⟨writeCell_above hlt hb, (ih hm).1⟩,
        fun p hp => (List.mem_cons.1 hp).elim (fun e => e ▸ hw) (fun hp => (ih hm).2 p hp)⟩
    · split
      · next heq =>
        subst heq
        split
        · exact hm
        · next hv => exact ⟨List.pairwise_cons.2 ⟨hb, hp⟩,
            fun p hp => (List.mem_cons.1 hp).elim (fun e => e ▸ hv) (fun hp => hm.2 p hp)⟩
      · split
        · exact ⟨List.pairwise_cons.2 ⟨hb, hp⟩, hz⟩
        · next hlt hne hv =>
          have hab : a < b := by omega
          refine ⟨List.pairwise_cons.2 ⟨fun p hp' => ?_, List.pairwise_cons.2 ⟨hb, hp⟩⟩,
            fun p hp' => (List.mem_cons.1 hp').elim (fun e => e ▸ hv) (hz p)⟩
          rcases List.mem_cons.1 hp' with rfl | hp'
          · exact hab
          · exact lt_trans hab (hb p hp')

theorem readCell_of_above {a : Int} {m : List (Int × Int)} (h : Above a m) : readCell m a = unwrittenCell := by
  induction m with
  | nil => rfl
  | cons q m ih =>
    obtain ⟨b, w⟩ := q
    have hb : a < b := h (b, w) (by simp)
    simp only [readCell]
    rw [if_neg (by omega)]
    exact ih (fun p hp => h p (by simp [hp]))

/-- A write leaves every other cell alone (R63), whatever the form of the list. -/
theorem readCell_writeCell_of_ne {m : List (Int × Int)} {a b : Int} (v : Int) (h : b ≠ a) :
    readCell (writeCell m a v) b = readCell m b := by
  induction m with
  | nil => simp only [writeCell]; split <;> simp [readCell, h.symm]
  | cons q m ih =>
    obtain ⟨c, w⟩ := q
    simp only [writeCell]
    split
    · simp [readCell, ih]
    · split
      · next heq => subst heq; split <;> simp [readCell, h.symm]
      · split <;> simp [readCell, h.symm]

/-- A read after a write to the same address gives the value written (R62, R63). -/
theorem readCell_writeCell_self {m : List (Int × Int)} (hm : Memory.wf m) (a : Int) (v : Int) :
    readCell (writeCell m a v) a = v := by
  induction m with
  | nil => simp only [writeCell]; split <;> simp_all [readCell]
  | cons q m ih =>
    obtain ⟨c, w⟩ := q
    obtain ⟨hp, hz⟩ := hm
    obtain ⟨hb, hp⟩ := List.pairwise_cons.1 hp
    simp only [writeCell]
    split
    · next hlt =>
      simp only [readCell]
      rw [if_neg (by omega)]
      exact ih ⟨hp, fun p hp => hz p (by simp [hp])⟩
    · split
      · next heq =>
        subst heq
        split
        · next hv => rw [hv]; exact readCell_of_above hb
        · simp [readCell]
      · next hlt hne =>
        split
        · next hv =>
          rw [hv]
          exact readCell_of_above (fun p hp' => (List.mem_cons.1 hp').elim (fun e => by subst e; show a < c; omega)
            (fun hp' => lt_trans (show a < c by omega) (hb p hp')))
        · simp [readCell]

/-- Everything `MemWrite` can do to a read (R63). -/
theorem memRead_memWrite {s : State} (hm : Memory.wf s.mem) (a b : Int) (v : Int) :
    (s.memWrite a v).memRead b = if b = a then v else s.memRead b := by
  by_cases h : b = a
  · subst h
    rw [if_pos rfl]
    exact readCell_writeCell_self hm b v
  · rw [if_neg h]
    exact readCell_writeCell_of_ne v h

/-- A cell of the list is what its address reads as. -/
theorem readCell_of_mem {m : List (Int × Int)} (hm : Memory.wf m) {a : Int} {v : Int} (h : (a, v) ∈ m) :
    readCell m a = v := by
  induction m with
  | nil => simp at h
  | cons q m ih =>
    obtain ⟨c, w⟩ := q
    obtain ⟨hp, hz⟩ := hm
    obtain ⟨hb, hp⟩ := List.pairwise_cons.1 hp
    rcases List.mem_cons.1 h with e | h
    · cases e; simp [readCell]
    · have : c < a := hb _ h
      simp only [readCell]
      rw [if_neg (by omega)]
      exact ih ⟨hp, fun p hp => hz p (by simp [hp])⟩ h

/-- The value read is a cell of the list or what an unlisted cell reads as (R62). -/
theorem readCell_mem_or (m : List (Int × Int)) (a : Int) :
    readCell m a = unwrittenCell ∨ (a, readCell m a) ∈ m := by
  induction m with
  | nil => exact .inl rfl
  | cons q m ih =>
    obtain ⟨c, w⟩ := q
    simp only [readCell]
    split
    · next h => subst h; exact .inr (by simp)
    · exact ih.imp id (fun h => by simp [h])

/-- A cell after a write was there before or is the one written. -/
theorem mem_writeCell {m : List (Int × Int)} {a : Int} {v : Int} {p : Int × Int}
    (h : p ∈ writeCell m a v) : p ∈ m ∨ p = (a, v) := by
  induction m with
  | nil => simp only [writeCell] at h; split at h <;> simp_all
  | cons q m ih =>
    obtain ⟨c, w⟩ := q
    simp only [writeCell] at h
    split at h
    · rcases List.mem_cons.1 h with h | h
      · exact .inl (by simp [h])
      · exact (ih h).imp (fun h => by simp [h]) id
    · split at h
      · split at h
        · exact .inl (by simp [h])
        · rcases List.mem_cons.1 h with h | h
          · exact .inr h
          · exact .inl (by simp [h])
      · split at h
        · exact .inl h
        · rcases List.mem_cons.1 h with h | h
          · exact .inr h
          · exact .inl h

theorem reset_memory_wf : Memory.wf State.reset.mem := by decide

end Sys2Proof.Machine
end

