-- ==== Sys2Proof/Laws/State.lean ====
section
/-! SUPPORT. One lemma per field per update of the state, each true by rfl. -/

namespace Sys2Proof.Machine

section
variable (s : State)

/-! ### setReg -/

@[simp] theorem setReg_regs (r : Reg) (v : Int) : (s.setReg r v).regs = s.regs.set r.number (wrap s.cfg.xlen v) (reg_number_lt r) := rfl
@[simp] theorem setReg_res (r : Reg) (v : Int) : (s.setReg r v).res = s.res := rfl
@[simp] theorem setReg_s1In (r : Reg) (v : Int) : (s.setReg r v).s1In = s.s1In := rfl
@[simp] theorem setReg_s1Out (r : Reg) (v : Int) : (s.setReg r v).s1Out = s.s1Out := rfl
@[simp] theorem setReg_s2In (r : Reg) (v : Int) : (s.setReg r v).s2In = s.s2In := rfl
@[simp] theorem setReg_s2Out (r : Reg) (v : Int) : (s.setReg r v).s2Out = s.s2Out := rfl
@[simp] theorem setReg_s3In (r : Reg) (v : Int) : (s.setReg r v).s3In = s.s3In := rfl
@[simp] theorem setReg_s3Out (r : Reg) (v : Int) : (s.setReg r v).s3Out = s.s3Out := rfl
@[simp] theorem setReg_lsuCnt (r : Reg) (v : Int) : (s.setReg r v).lsuCnt = s.lsuCnt := rfl
@[simp] theorem setReg_retired (r : Reg) (v : Int) : (s.setReg r v).retired = s.retired := rfl
@[simp] theorem setReg_mem (r : Reg) (v : Int) : (s.setReg r v).mem = s.mem := rfl
@[simp] theorem setReg_ib (r : Reg) (v : Int) : (s.setReg r v).ib = s.ib := rfl
@[simp] theorem setReg_lbl (r : Reg) (v : Int) : (s.setReg r v).lbl = s.lbl := rfl
@[simp] theorem setReg_cfg (r : Reg) (v : Int) : (s.setReg r v).cfg = s.cfg := rfl
@[simp] theorem setReg_cycle (r : Reg) (v : Int) : (s.setReg r v).cycle = s.cycle := rfl
@[simp] theorem setReg_rst (r : Reg) (v : Int) : (s.setReg r v).rst = s.rst := rfl
@[simp] theorem setReg_events (r : Reg) (v : Int) : (s.setReg r v).events = s.events := rfl
@[simp] theorem setReg_point (r : Reg) (v : Int) : (s.setReg r v).point = s.point := rfl
@[simp] theorem setReg_freeCtr (r : Reg) (v : Int) : (s.setReg r v).freeCtr = s.freeCtr := rfl

/-! ### reserve -/

@[simp] theorem reserve_regs (l : List ResName) : (s.reserve l).regs = s.regs := rfl
@[simp] theorem reserve_res (l : List ResName) : (s.reserve l).res = l.foldl addName s.res := rfl
@[simp] theorem reserve_s1In (l : List ResName) : (s.reserve l).s1In = s.s1In := rfl
@[simp] theorem reserve_s1Out (l : List ResName) : (s.reserve l).s1Out = s.s1Out := rfl
@[simp] theorem reserve_s2In (l : List ResName) : (s.reserve l).s2In = s.s2In := rfl
@[simp] theorem reserve_s2Out (l : List ResName) : (s.reserve l).s2Out = s.s2Out := rfl
@[simp] theorem reserve_s3In (l : List ResName) : (s.reserve l).s3In = s.s3In := rfl
@[simp] theorem reserve_s3Out (l : List ResName) : (s.reserve l).s3Out = s.s3Out := rfl
@[simp] theorem reserve_lsuCnt (l : List ResName) : (s.reserve l).lsuCnt = s.lsuCnt := rfl
@[simp] theorem reserve_retired (l : List ResName) : (s.reserve l).retired = s.retired := rfl
@[simp] theorem reserve_mem (l : List ResName) : (s.reserve l).mem = s.mem := rfl
@[simp] theorem reserve_ib (l : List ResName) : (s.reserve l).ib = s.ib := rfl
@[simp] theorem reserve_lbl (l : List ResName) : (s.reserve l).lbl = s.lbl := rfl
@[simp] theorem reserve_cfg (l : List ResName) : (s.reserve l).cfg = s.cfg := rfl
@[simp] theorem reserve_cycle (l : List ResName) : (s.reserve l).cycle = s.cycle := rfl
@[simp] theorem reserve_rst (l : List ResName) : (s.reserve l).rst = s.rst := rfl
@[simp] theorem reserve_events (l : List ResName) : (s.reserve l).events = s.events := rfl
@[simp] theorem reserve_point (l : List ResName) : (s.reserve l).point = s.point := rfl
@[simp] theorem reserve_freeCtr (l : List ResName) : (s.reserve l).freeCtr = s.freeCtr := rfl

/-! ### release -/

@[simp] theorem release_regs (l : List ResName) : (s.release l).regs = s.regs := rfl
@[simp] theorem release_res (l : List ResName) : (s.release l).res = s.res.filter (fun n => decide (n ∉ l)) := rfl
@[simp] theorem release_s1In (l : List ResName) : (s.release l).s1In = s.s1In := rfl
@[simp] theorem release_s1Out (l : List ResName) : (s.release l).s1Out = s.s1Out := rfl
@[simp] theorem release_s2In (l : List ResName) : (s.release l).s2In = s.s2In := rfl
@[simp] theorem release_s2Out (l : List ResName) : (s.release l).s2Out = s.s2Out := rfl
@[simp] theorem release_s3In (l : List ResName) : (s.release l).s3In = s.s3In := rfl
@[simp] theorem release_s3Out (l : List ResName) : (s.release l).s3Out = s.s3Out := rfl
@[simp] theorem release_lsuCnt (l : List ResName) : (s.release l).lsuCnt = s.lsuCnt := rfl
@[simp] theorem release_retired (l : List ResName) : (s.release l).retired = s.retired := rfl
@[simp] theorem release_mem (l : List ResName) : (s.release l).mem = s.mem := rfl
@[simp] theorem release_ib (l : List ResName) : (s.release l).ib = s.ib := rfl
@[simp] theorem release_lbl (l : List ResName) : (s.release l).lbl = s.lbl := rfl
@[simp] theorem release_cfg (l : List ResName) : (s.release l).cfg = s.cfg := rfl
@[simp] theorem release_cycle (l : List ResName) : (s.release l).cycle = s.cycle := rfl
@[simp] theorem release_rst (l : List ResName) : (s.release l).rst = s.rst := rfl
@[simp] theorem release_events (l : List ResName) : (s.release l).events = s.events := rfl
@[simp] theorem release_point (l : List ResName) : (s.release l).point = s.point := rfl
@[simp] theorem release_freeCtr (l : List ResName) : (s.release l).freeCtr = s.freeCtr := rfl

/-! ### memWrite -/

@[simp] theorem memWrite_regs (a : Int) (v : Int) : (s.memWrite a v).regs = s.regs := rfl
@[simp] theorem memWrite_res (a : Int) (v : Int) : (s.memWrite a v).res = s.res := rfl
@[simp] theorem memWrite_s1In (a : Int) (v : Int) : (s.memWrite a v).s1In = s.s1In := rfl
@[simp] theorem memWrite_s1Out (a : Int) (v : Int) : (s.memWrite a v).s1Out = s.s1Out := rfl
@[simp] theorem memWrite_s2In (a : Int) (v : Int) : (s.memWrite a v).s2In = s.s2In := rfl
@[simp] theorem memWrite_s2Out (a : Int) (v : Int) : (s.memWrite a v).s2Out = s.s2Out := rfl
@[simp] theorem memWrite_s3In (a : Int) (v : Int) : (s.memWrite a v).s3In = s.s3In := rfl
@[simp] theorem memWrite_s3Out (a : Int) (v : Int) : (s.memWrite a v).s3Out = s.s3Out := rfl
@[simp] theorem memWrite_lsuCnt (a : Int) (v : Int) : (s.memWrite a v).lsuCnt = s.lsuCnt := rfl
@[simp] theorem memWrite_retired (a : Int) (v : Int) : (s.memWrite a v).retired = s.retired := rfl
@[simp] theorem memWrite_mem (a : Int) (v : Int) : (s.memWrite a v).mem = writeCell s.mem a v := rfl
@[simp] theorem memWrite_ib (a : Int) (v : Int) : (s.memWrite a v).ib = s.ib := rfl
@[simp] theorem memWrite_lbl (a : Int) (v : Int) : (s.memWrite a v).lbl = s.lbl := rfl
@[simp] theorem memWrite_cfg (a : Int) (v : Int) : (s.memWrite a v).cfg = s.cfg := rfl
@[simp] theorem memWrite_cycle (a : Int) (v : Int) : (s.memWrite a v).cycle = s.cycle := rfl
@[simp] theorem memWrite_rst (a : Int) (v : Int) : (s.memWrite a v).rst = s.rst := rfl
@[simp] theorem memWrite_events (a : Int) (v : Int) : (s.memWrite a v).events = s.events := rfl
@[simp] theorem memWrite_point (a : Int) (v : Int) : (s.memWrite a v).point = s.point := rfl
@[simp] theorem memWrite_freeCtr (a : Int) (v : Int) : (s.memWrite a v).freeCtr = s.freeCtr := rfl

/-! ### emit -/

@[simp] theorem emit_regs (e : Event) : (s.emit e).regs = s.regs := rfl
@[simp] theorem emit_res (e : Event) : (s.emit e).res = s.res := rfl
@[simp] theorem emit_s1In (e : Event) : (s.emit e).s1In = s.s1In := rfl
@[simp] theorem emit_s1Out (e : Event) : (s.emit e).s1Out = s.s1Out := rfl
@[simp] theorem emit_s2In (e : Event) : (s.emit e).s2In = s.s2In := rfl
@[simp] theorem emit_s2Out (e : Event) : (s.emit e).s2Out = s.s2Out := rfl
@[simp] theorem emit_s3In (e : Event) : (s.emit e).s3In = s.s3In := rfl
@[simp] theorem emit_s3Out (e : Event) : (s.emit e).s3Out = s.s3Out := rfl
@[simp] theorem emit_lsuCnt (e : Event) : (s.emit e).lsuCnt = s.lsuCnt := rfl
@[simp] theorem emit_retired (e : Event) : (s.emit e).retired = s.retired := rfl
@[simp] theorem emit_mem (e : Event) : (s.emit e).mem = s.mem := rfl
@[simp] theorem emit_ib (e : Event) : (s.emit e).ib = s.ib := rfl
@[simp] theorem emit_lbl (e : Event) : (s.emit e).lbl = s.lbl := rfl
@[simp] theorem emit_cfg (e : Event) : (s.emit e).cfg = s.cfg := rfl
@[simp] theorem emit_cycle (e : Event) : (s.emit e).cycle = s.cycle := rfl
@[simp] theorem emit_rst (e : Event) : (s.emit e).rst = s.rst := rfl
@[simp] theorem emit_events (e : Event) : (s.emit e).events = s.events ++ [e] := rfl
@[simp] theorem emit_point (e : Event) : (s.emit e).point = s.point := rfl
@[simp] theorem emit_freeCtr (e : Event) : (s.emit e).freeCtr = s.freeCtr := rfl

/-! ### useFree -/

@[simp] theorem useFree_regs : s.useFree.regs = s.regs := rfl
@[simp] theorem useFree_res : s.useFree.res = s.res := rfl
@[simp] theorem useFree_s1In : s.useFree.s1In = s.s1In := rfl
@[simp] theorem useFree_s1Out : s.useFree.s1Out = s.s1Out := rfl
@[simp] theorem useFree_s2In : s.useFree.s2In = s.s2In := rfl
@[simp] theorem useFree_s2Out : s.useFree.s2Out = s.s2Out := rfl
@[simp] theorem useFree_s3In : s.useFree.s3In = s.s3In := rfl
@[simp] theorem useFree_s3Out : s.useFree.s3Out = s.s3Out := rfl
@[simp] theorem useFree_lsuCnt : s.useFree.lsuCnt = s.lsuCnt := rfl
@[simp] theorem useFree_retired : s.useFree.retired = s.retired := rfl
@[simp] theorem useFree_mem : s.useFree.mem = s.mem := rfl
@[simp] theorem useFree_ib : s.useFree.ib = s.ib := rfl
@[simp] theorem useFree_lbl : s.useFree.lbl = s.lbl := rfl
@[simp] theorem useFree_cfg : s.useFree.cfg = s.cfg := rfl
@[simp] theorem useFree_cycle : s.useFree.cycle = s.cycle := rfl
@[simp] theorem useFree_rst : s.useFree.rst = s.rst := rfl
@[simp] theorem useFree_events : s.useFree.events = s.events := rfl
@[simp] theorem useFree_point : s.useFree.point = s.point := rfl
@[simp] theorem useFree_freeCtr : s.useFree.freeCtr = s.freeCtr + 1 := rfl

/-! ### place -/

@[simp] theorem place_regs (a : Int) (rl : List ResName) : (s.place a rl).regs = s.regs := rfl
@[simp] theorem place_res (a : Int) (rl : List ResName) : (s.place a rl).res = rl.foldl addName s.res := rfl
@[simp] theorem place_s1In (a : Int) (rl : List ResName) : (s.place a rl).s1In = some (Decoded.fresh a rl) := rfl
@[simp] theorem place_s1Out (a : Int) (rl : List ResName) : (s.place a rl).s1Out = s.s1Out := rfl
@[simp] theorem place_s2In (a : Int) (rl : List ResName) : (s.place a rl).s2In = s.s2In := rfl
@[simp] theorem place_s2Out (a : Int) (rl : List ResName) : (s.place a rl).s2Out = s.s2Out := rfl
@[simp] theorem place_s3In (a : Int) (rl : List ResName) : (s.place a rl).s3In = s.s3In := rfl
@[simp] theorem place_s3Out (a : Int) (rl : List ResName) : (s.place a rl).s3Out = s.s3Out := rfl
@[simp] theorem place_lsuCnt (a : Int) (rl : List ResName) : (s.place a rl).lsuCnt = s.lsuCnt := rfl
@[simp] theorem place_retired (a : Int) (rl : List ResName) : (s.place a rl).retired = s.retired := rfl
@[simp] theorem place_mem (a : Int) (rl : List ResName) : (s.place a rl).mem = s.mem := rfl
@[simp] theorem place_ib (a : Int) (rl : List ResName) : (s.place a rl).ib = s.ib := rfl
@[simp] theorem place_lbl (a : Int) (rl : List ResName) : (s.place a rl).lbl = s.lbl := rfl
@[simp] theorem place_cfg (a : Int) (rl : List ResName) : (s.place a rl).cfg = s.cfg := rfl
@[simp] theorem place_cycle (a : Int) (rl : List ResName) : (s.place a rl).cycle = s.cycle := rfl
@[simp] theorem place_rst (a : Int) (rl : List ResName) : (s.place a rl).rst = s.rst := rfl
@[simp] theorem place_events (a : Int) (rl : List ResName) : (s.place a rl).events = s.events := rfl
@[simp] theorem place_point (a : Int) (rl : List ResName) : (s.place a rl).point = s.point := rfl
@[simp] theorem place_freeCtr (a : Int) (rl : List ResName) : (s.place a rl).freeCtr = s.freeCtr := rfl

/-! ### pastBranch -/

@[simp] theorem pastBranch_regs (b : Bool) : (s.pastBranch b).regs = if b then s.regs else (s.increment (.known .pc) 1).regs := rfl
@[simp] theorem pastBranch_res (b : Bool) : (s.pastBranch b).res = s.res := rfl
@[simp] theorem pastBranch_s1In (b : Bool) : (s.pastBranch b).s1In = s.s1In := rfl
@[simp] theorem pastBranch_s1Out (b : Bool) : (s.pastBranch b).s1Out = s.s1Out := rfl
@[simp] theorem pastBranch_s2In (b : Bool) : (s.pastBranch b).s2In = s.s2In := rfl
@[simp] theorem pastBranch_s2Out (b : Bool) : (s.pastBranch b).s2Out = s.s2Out := rfl
@[simp] theorem pastBranch_s3In (b : Bool) : (s.pastBranch b).s3In = s.s3In := rfl
@[simp] theorem pastBranch_s3Out (b : Bool) : (s.pastBranch b).s3Out = s.s3Out := rfl
@[simp] theorem pastBranch_lsuCnt (b : Bool) : (s.pastBranch b).lsuCnt = s.lsuCnt := rfl
@[simp] theorem pastBranch_retired (b : Bool) : (s.pastBranch b).retired = s.retired := rfl
@[simp] theorem pastBranch_mem (b : Bool) : (s.pastBranch b).mem = s.mem := rfl
@[simp] theorem pastBranch_ib (b : Bool) : (s.pastBranch b).ib = s.ib := rfl
@[simp] theorem pastBranch_lbl (b : Bool) : (s.pastBranch b).lbl = s.lbl := rfl
@[simp] theorem pastBranch_cfg (b : Bool) : (s.pastBranch b).cfg = s.cfg := rfl
@[simp] theorem pastBranch_cycle (b : Bool) : (s.pastBranch b).cycle = s.cycle := rfl
@[simp] theorem pastBranch_rst (b : Bool) : (s.pastBranch b).rst = s.rst := rfl
@[simp] theorem pastBranch_events (b : Bool) : (s.pastBranch b).events = s.events := rfl
@[simp] theorem pastBranch_point (b : Bool) : (s.pastBranch b).point = s.point := rfl
@[simp] theorem pastBranch_freeCtr (b : Bool) : (s.pastBranch b).freeCtr = s.freeCtr := rfl

/-! ### finish -/

@[simp] theorem finish_regs (d : Decoded) : (s.finish d).regs = s.regs := rfl
@[simp] theorem finish_res (d : Decoded) : (s.finish d).res = s.res := rfl
@[simp] theorem finish_s1In (d : Decoded) : (s.finish d).s1In = s.s1In := rfl
@[simp] theorem finish_s1Out (d : Decoded) : (s.finish d).s1Out = s.s1Out := rfl
@[simp] theorem finish_s2In (d : Decoded) : (s.finish d).s2In = none := rfl
@[simp] theorem finish_s2Out (d : Decoded) : (s.finish d).s2Out = some d := rfl
@[simp] theorem finish_s3In (d : Decoded) : (s.finish d).s3In = s.s3In := rfl
@[simp] theorem finish_s3Out (d : Decoded) : (s.finish d).s3Out = s.s3Out := rfl
@[simp] theorem finish_lsuCnt (d : Decoded) : (s.finish d).lsuCnt = s.lsuCnt := rfl
@[simp] theorem finish_retired (d : Decoded) : (s.finish d).retired = s.retired := rfl
@[simp] theorem finish_mem (d : Decoded) : (s.finish d).mem = s.mem := rfl
@[simp] theorem finish_ib (d : Decoded) : (s.finish d).ib = s.ib := rfl
@[simp] theorem finish_lbl (d : Decoded) : (s.finish d).lbl = s.lbl := rfl
@[simp] theorem finish_cfg (d : Decoded) : (s.finish d).cfg = s.cfg := rfl
@[simp] theorem finish_cycle (d : Decoded) : (s.finish d).cycle = s.cycle := rfl
@[simp] theorem finish_rst (d : Decoded) : (s.finish d).rst = s.rst := rfl
@[simp] theorem finish_events (d : Decoded) : (s.finish d).events = s.events := rfl
@[simp] theorem finish_point (d : Decoded) : (s.finish d).point = s.point := rfl
@[simp] theorem finish_freeCtr (d : Decoded) : (s.finish d).freeCtr = s.freeCtr := rfl

/-! ### peek -/

@[simp] theorem peek_regs (d : Decoded) : (s.peek d).regs = s.regs := rfl
@[simp] theorem peek_res (d : Decoded) : (s.peek d).res = s.res := rfl
@[simp] theorem peek_s1In (d : Decoded) : (s.peek d).s1In = s.s1In := rfl
@[simp] theorem peek_s1Out (d : Decoded) : (s.peek d).s1Out = s.s1Out := rfl
@[simp] theorem peek_s2In (d : Decoded) : (s.peek d).s2In = some d := rfl
@[simp] theorem peek_s2Out (d : Decoded) : (s.peek d).s2Out = some d := rfl
@[simp] theorem peek_s3In (d : Decoded) : (s.peek d).s3In = s.s3In := rfl
@[simp] theorem peek_s3Out (d : Decoded) : (s.peek d).s3Out = s.s3Out := rfl
@[simp] theorem peek_lsuCnt (d : Decoded) : (s.peek d).lsuCnt = s.lsuCnt := rfl
@[simp] theorem peek_retired (d : Decoded) : (s.peek d).retired = s.retired := rfl
@[simp] theorem peek_mem (d : Decoded) : (s.peek d).mem = s.mem := rfl
@[simp] theorem peek_ib (d : Decoded) : (s.peek d).ib = s.ib := rfl
@[simp] theorem peek_lbl (d : Decoded) : (s.peek d).lbl = s.lbl := rfl
@[simp] theorem peek_cfg (d : Decoded) : (s.peek d).cfg = s.cfg := rfl
@[simp] theorem peek_cycle (d : Decoded) : (s.peek d).cycle = s.cycle := rfl
@[simp] theorem peek_rst (d : Decoded) : (s.peek d).rst = s.rst := rfl
@[simp] theorem peek_events (d : Decoded) : (s.peek d).events = s.events := rfl
@[simp] theorem peek_point (d : Decoded) : (s.peek d).point = s.point := rfl
@[simp] theorem peek_freeCtr (d : Decoded) : (s.peek d).freeCtr = s.freeCtr := rfl

/-! ### retire -/

@[simp] theorem retire_regs (d : Decoded) : (s.retire d).regs = s.regs := rfl
@[simp] theorem retire_res (d : Decoded) : (s.retire d).res = s.res.filter (fun n => decide (n ∉ d.reserved)) := rfl
@[simp] theorem retire_s1In (d : Decoded) : (s.retire d).s1In = s.s1In := rfl
@[simp] theorem retire_s1Out (d : Decoded) : (s.retire d).s1Out = s.s1Out := rfl
@[simp] theorem retire_s2In (d : Decoded) : (s.retire d).s2In = s.s2In := rfl
@[simp] theorem retire_s2Out (d : Decoded) : (s.retire d).s2Out = s.s2Out := rfl
@[simp] theorem retire_s3In (d : Decoded) : (s.retire d).s3In = none := rfl
@[simp] theorem retire_s3Out (d : Decoded) : (s.retire d).s3Out = none := rfl
@[simp] theorem retire_lsuCnt (d : Decoded) : (s.retire d).lsuCnt = s.lsuCnt := rfl
@[simp] theorem retire_retired (d : Decoded) : (s.retire d).retired = s.retired + 1 := rfl
@[simp] theorem retire_mem (d : Decoded) : (s.retire d).mem = s.mem := rfl
@[simp] theorem retire_ib (d : Decoded) : (s.retire d).ib = s.ib := rfl
@[simp] theorem retire_lbl (d : Decoded) : (s.retire d).lbl = s.lbl := rfl
@[simp] theorem retire_cfg (d : Decoded) : (s.retire d).cfg = s.cfg := rfl
@[simp] theorem retire_cycle (d : Decoded) : (s.retire d).cycle = s.cycle := rfl
@[simp] theorem retire_rst (d : Decoded) : (s.retire d).rst = s.rst := rfl
@[simp] theorem retire_events (d : Decoded) : (s.retire d).events = s.events ++ [.retire s.cycle d.idx] := rfl
@[simp] theorem retire_point (d : Decoded) : (s.retire d).point = s.point := rfl
@[simp] theorem retire_freeCtr (d : Decoded) : (s.retire d).freeCtr = s.freeCtr := rfl

/-! ### nextCycle -/

@[simp] theorem nextCycle_regs : s.nextCycle.regs = s.regs := rfl
@[simp] theorem nextCycle_res : s.nextCycle.res = s.res := rfl
@[simp] theorem nextCycle_s1In : s.nextCycle.s1In = s.s1In := rfl
@[simp] theorem nextCycle_s1Out : s.nextCycle.s1Out = s.s1Out := rfl
@[simp] theorem nextCycle_s2In : s.nextCycle.s2In = s.s2In := rfl
@[simp] theorem nextCycle_s2Out : s.nextCycle.s2Out = s.s2Out := rfl
@[simp] theorem nextCycle_s3In : s.nextCycle.s3In = s.s3In := rfl
@[simp] theorem nextCycle_s3Out : s.nextCycle.s3Out = s.s3Out := rfl
@[simp] theorem nextCycle_lsuCnt : s.nextCycle.lsuCnt = s.lsuCnt := rfl
@[simp] theorem nextCycle_retired : s.nextCycle.retired = s.retired := rfl
@[simp] theorem nextCycle_mem : s.nextCycle.mem = s.mem := rfl
@[simp] theorem nextCycle_ib : s.nextCycle.ib = s.ib := rfl
@[simp] theorem nextCycle_lbl : s.nextCycle.lbl = s.lbl := rfl
@[simp] theorem nextCycle_cfg : s.nextCycle.cfg = s.cfg := rfl
@[simp] theorem nextCycle_cycle : s.nextCycle.cycle = s.cycle + 1 := rfl
@[simp] theorem nextCycle_rst : s.nextCycle.rst = s.rst := rfl
@[simp] theorem nextCycle_events : s.nextCycle.events = s.events := rfl
@[simp] theorem nextCycle_point : s.nextCycle.point = s.point := rfl
@[simp] theorem nextCycle_freeCtr : s.nextCycle.freeCtr = s.freeCtr := rfl

end

section
variable (s : State)

/-! ### write -/

@[simp] theorem write_res (n : RegName) (v : Int) : (s.write n v).res = s.res := by
  cases n <;> rfl
@[simp] theorem write_s1In (n : RegName) (v : Int) : (s.write n v).s1In = s.s1In := by
  cases n <;> rfl
@[simp] theorem write_s1Out (n : RegName) (v : Int) : (s.write n v).s1Out = s.s1Out := by
  cases n <;> rfl
@[simp] theorem write_s2In (n : RegName) (v : Int) : (s.write n v).s2In = s.s2In := by
  cases n <;> rfl
@[simp] theorem write_s2Out (n : RegName) (v : Int) : (s.write n v).s2Out = s.s2Out := by
  cases n <;> rfl
@[simp] theorem write_s3In (n : RegName) (v : Int) : (s.write n v).s3In = s.s3In := by
  cases n <;> rfl
@[simp] theorem write_s3Out (n : RegName) (v : Int) : (s.write n v).s3Out = s.s3Out := by
  cases n <;> rfl
@[simp] theorem write_lsuCnt (n : RegName) (v : Int) : (s.write n v).lsuCnt = s.lsuCnt := by
  cases n <;> rfl
@[simp] theorem write_retired (n : RegName) (v : Int) : (s.write n v).retired = s.retired := by
  cases n <;> rfl
@[simp] theorem write_mem (n : RegName) (v : Int) : (s.write n v).mem = s.mem := by
  cases n <;> rfl
@[simp] theorem write_ib (n : RegName) (v : Int) : (s.write n v).ib = s.ib := by
  cases n <;> rfl
@[simp] theorem write_lbl (n : RegName) (v : Int) : (s.write n v).lbl = s.lbl := by
  cases n <;> rfl
@[simp] theorem write_cfg (n : RegName) (v : Int) : (s.write n v).cfg = s.cfg := by
  cases n <;> rfl
@[simp] theorem write_cycle (n : RegName) (v : Int) : (s.write n v).cycle = s.cycle := by
  cases n <;> rfl
@[simp] theorem write_rst (n : RegName) (v : Int) : (s.write n v).rst = s.rst := by
  cases n <;> rfl
@[simp] theorem write_events (n : RegName) (v : Int) : (s.write n v).events = s.events := by
  cases n <;> rfl
@[simp] theorem write_point (n : RegName) (v : Int) : (s.write n v).point = s.point := by
  cases n <;> rfl
@[simp] theorem write_freeCtr (n : RegName) (v : Int) : (s.write n v).freeCtr = s.freeCtr := by
  cases n <;> rfl

/-! ### writeNamed -/

@[simp] theorem writeNamed_res (o : Operand) (v : Int) : (s.writeNamed o v).res = s.res := by
  cases o <;> first | rfl | exact write_res s _ v
@[simp] theorem writeNamed_s1In (o : Operand) (v : Int) : (s.writeNamed o v).s1In = s.s1In := by
  cases o <;> first | rfl | exact write_s1In s _ v
@[simp] theorem writeNamed_s1Out (o : Operand) (v : Int) : (s.writeNamed o v).s1Out = s.s1Out := by
  cases o <;> first | rfl | exact write_s1Out s _ v
@[simp] theorem writeNamed_s2In (o : Operand) (v : Int) : (s.writeNamed o v).s2In = s.s2In := by
  cases o <;> first | rfl | exact write_s2In s _ v
@[simp] theorem writeNamed_s2Out (o : Operand) (v : Int) : (s.writeNamed o v).s2Out = s.s2Out := by
  cases o <;> first | rfl | exact write_s2Out s _ v
@[simp] theorem writeNamed_s3In (o : Operand) (v : Int) : (s.writeNamed o v).s3In = s.s3In := by
  cases o <;> first | rfl | exact write_s3In s _ v
@[simp] theorem writeNamed_s3Out (o : Operand) (v : Int) : (s.writeNamed o v).s3Out = s.s3Out := by
  cases o <;> first | rfl | exact write_s3Out s _ v
@[simp] theorem writeNamed_lsuCnt (o : Operand) (v : Int) : (s.writeNamed o v).lsuCnt = s.lsuCnt := by
  cases o <;> first | rfl | exact write_lsuCnt s _ v
@[simp] theorem writeNamed_retired (o : Operand) (v : Int) : (s.writeNamed o v).retired = s.retired := by
  cases o <;> first | rfl | exact write_retired s _ v
@[simp] theorem writeNamed_mem (o : Operand) (v : Int) : (s.writeNamed o v).mem = s.mem := by
  cases o <;> first | rfl | exact write_mem s _ v
@[simp] theorem writeNamed_ib (o : Operand) (v : Int) : (s.writeNamed o v).ib = s.ib := by
  cases o <;> first | rfl | exact write_ib s _ v
@[simp] theorem writeNamed_lbl (o : Operand) (v : Int) : (s.writeNamed o v).lbl = s.lbl := by
  cases o <;> first | rfl | exact write_lbl s _ v
@[simp] theorem writeNamed_cfg (o : Operand) (v : Int) : (s.writeNamed o v).cfg = s.cfg := by
  cases o <;> first | rfl | exact write_cfg s _ v
@[simp] theorem writeNamed_cycle (o : Operand) (v : Int) : (s.writeNamed o v).cycle = s.cycle := by
  cases o <;> first | rfl | exact write_cycle s _ v
@[simp] theorem writeNamed_rst (o : Operand) (v : Int) : (s.writeNamed o v).rst = s.rst := by
  cases o <;> first | rfl | exact write_rst s _ v
@[simp] theorem writeNamed_events (o : Operand) (v : Int) : (s.writeNamed o v).events = s.events := by
  cases o <;> first | rfl | exact write_events s _ v
@[simp] theorem writeNamed_point (o : Operand) (v : Int) : (s.writeNamed o v).point = s.point := by
  cases o <;> first | rfl | exact write_point s _ v
@[simp] theorem writeNamed_freeCtr (o : Operand) (v : Int) : (s.writeNamed o v).freeCtr = s.freeCtr := by
  cases o <;> first | rfl | exact write_freeCtr s _ v

/-! ### increment -/

@[simp] theorem increment_res (n : RegName) (k : Int) : (s.increment n k).res = s.res := write_res s n _
@[simp] theorem increment_s1In (n : RegName) (k : Int) : (s.increment n k).s1In = s.s1In := write_s1In s n _
@[simp] theorem increment_s1Out (n : RegName) (k : Int) : (s.increment n k).s1Out = s.s1Out := write_s1Out s n _
@[simp] theorem increment_s2In (n : RegName) (k : Int) : (s.increment n k).s2In = s.s2In := write_s2In s n _
@[simp] theorem increment_s2Out (n : RegName) (k : Int) : (s.increment n k).s2Out = s.s2Out := write_s2Out s n _
@[simp] theorem increment_s3In (n : RegName) (k : Int) : (s.increment n k).s3In = s.s3In := write_s3In s n _
@[simp] theorem increment_s3Out (n : RegName) (k : Int) : (s.increment n k).s3Out = s.s3Out := write_s3Out s n _
@[simp] theorem increment_lsuCnt (n : RegName) (k : Int) : (s.increment n k).lsuCnt = s.lsuCnt := write_lsuCnt s n _
@[simp] theorem increment_retired (n : RegName) (k : Int) : (s.increment n k).retired = s.retired := write_retired s n _
@[simp] theorem increment_mem (n : RegName) (k : Int) : (s.increment n k).mem = s.mem := write_mem s n _
@[simp] theorem increment_ib (n : RegName) (k : Int) : (s.increment n k).ib = s.ib := write_ib s n _
@[simp] theorem increment_lbl (n : RegName) (k : Int) : (s.increment n k).lbl = s.lbl := write_lbl s n _
@[simp] theorem increment_cfg (n : RegName) (k : Int) : (s.increment n k).cfg = s.cfg := write_cfg s n _
@[simp] theorem increment_cycle (n : RegName) (k : Int) : (s.increment n k).cycle = s.cycle := write_cycle s n _
@[simp] theorem increment_rst (n : RegName) (k : Int) : (s.increment n k).rst = s.rst := write_rst s n _
@[simp] theorem increment_events (n : RegName) (k : Int) : (s.increment n k).events = s.events := write_events s n _
@[simp] theorem increment_point (n : RegName) (k : Int) : (s.increment n k).point = s.point := write_point s n _
@[simp] theorem increment_freeCtr (n : RegName) (k : Int) : (s.increment n k).freeCtr = s.freeCtr := write_freeCtr s n _

/-! ### finishWith -/

@[simp] theorem finishWith_regs (d : Decoded) (r : Option Int) : (s.finishWith d r).regs = s.regs := by
  cases r <;> rfl
@[simp] theorem finishWith_res (d : Decoded) (r : Option Int) : (s.finishWith d r).res = s.res := by
  cases r <;> rfl
@[simp] theorem finishWith_s1In (d : Decoded) (r : Option Int) : (s.finishWith d r).s1In = s.s1In := by
  cases r <;> rfl
@[simp] theorem finishWith_s1Out (d : Decoded) (r : Option Int) : (s.finishWith d r).s1Out = s.s1Out := by
  cases r <;> rfl
@[simp] theorem finishWith_s3In (d : Decoded) (r : Option Int) : (s.finishWith d r).s3In = s.s3In := by
  cases r <;> rfl
@[simp] theorem finishWith_s3Out (d : Decoded) (r : Option Int) : (s.finishWith d r).s3Out = s.s3Out := by
  cases r <;> rfl
@[simp] theorem finishWith_lsuCnt (d : Decoded) (r : Option Int) : (s.finishWith d r).lsuCnt = s.lsuCnt := by
  cases r <;> rfl
@[simp] theorem finishWith_retired (d : Decoded) (r : Option Int) : (s.finishWith d r).retired = s.retired := by
  cases r <;> rfl
@[simp] theorem finishWith_mem (d : Decoded) (r : Option Int) : (s.finishWith d r).mem = s.mem := by
  cases r <;> rfl
@[simp] theorem finishWith_ib (d : Decoded) (r : Option Int) : (s.finishWith d r).ib = s.ib := by
  cases r <;> rfl
@[simp] theorem finishWith_lbl (d : Decoded) (r : Option Int) : (s.finishWith d r).lbl = s.lbl := by
  cases r <;> rfl
@[simp] theorem finishWith_cfg (d : Decoded) (r : Option Int) : (s.finishWith d r).cfg = s.cfg := by
  cases r <;> rfl
@[simp] theorem finishWith_cycle (d : Decoded) (r : Option Int) : (s.finishWith d r).cycle = s.cycle := by
  cases r <;> rfl
@[simp] theorem finishWith_rst (d : Decoded) (r : Option Int) : (s.finishWith d r).rst = s.rst := by
  cases r <;> rfl
@[simp] theorem finishWith_events (d : Decoded) (r : Option Int) : (s.finishWith d r).events = s.events := by
  cases r <;> rfl
@[simp] theorem finishWith_point (d : Decoded) (r : Option Int) : (s.finishWith d r).point = s.point := by
  cases r <;> rfl

/-! ### afterBound -/

@[simp] theorem afterBound_regs (o : Operand) : (s.afterBound o).regs = s.regs := by
  unfold State.afterBound; split <;> rfl
@[simp] theorem afterBound_res (o : Operand) : (s.afterBound o).res = s.res := by
  unfold State.afterBound; split <;> rfl
@[simp] theorem afterBound_s1In (o : Operand) : (s.afterBound o).s1In = s.s1In := by
  unfold State.afterBound; split <;> rfl
@[simp] theorem afterBound_s1Out (o : Operand) : (s.afterBound o).s1Out = s.s1Out := by
  unfold State.afterBound; split <;> rfl
@[simp] theorem afterBound_s2In (o : Operand) : (s.afterBound o).s2In = s.s2In := by
  unfold State.afterBound; split <;> rfl
@[simp] theorem afterBound_s2Out (o : Operand) : (s.afterBound o).s2Out = s.s2Out := by
  unfold State.afterBound; split <;> rfl
@[simp] theorem afterBound_s3In (o : Operand) : (s.afterBound o).s3In = s.s3In := by
  unfold State.afterBound; split <;> rfl
@[simp] theorem afterBound_s3Out (o : Operand) : (s.afterBound o).s3Out = s.s3Out := by
  unfold State.afterBound; split <;> rfl
@[simp] theorem afterBound_lsuCnt (o : Operand) : (s.afterBound o).lsuCnt = s.lsuCnt := by
  unfold State.afterBound; split <;> rfl
@[simp] theorem afterBound_retired (o : Operand) : (s.afterBound o).retired = s.retired := by
  unfold State.afterBound; split <;> rfl
@[simp] theorem afterBound_mem (o : Operand) : (s.afterBound o).mem = s.mem := by
  unfold State.afterBound; split <;> rfl
@[simp] theorem afterBound_ib (o : Operand) : (s.afterBound o).ib = s.ib := by
  unfold State.afterBound; split <;> rfl
@[simp] theorem afterBound_lbl (o : Operand) : (s.afterBound o).lbl = s.lbl := by
  unfold State.afterBound; split <;> rfl
@[simp] theorem afterBound_cfg (o : Operand) : (s.afterBound o).cfg = s.cfg := by
  unfold State.afterBound; split <;> rfl
@[simp] theorem afterBound_cycle (o : Operand) : (s.afterBound o).cycle = s.cycle := by
  unfold State.afterBound; split <;> rfl
@[simp] theorem afterBound_rst (o : Operand) : (s.afterBound o).rst = s.rst := by
  unfold State.afterBound; split <;> rfl
@[simp] theorem afterBound_events (o : Operand) : (s.afterBound o).events = s.events := by
  unfold State.afterBound; split <;> rfl
@[simp] theorem afterBound_point (o : Operand) : (s.afterBound o).point = s.point := by
  unfold State.afterBound; split <;> rfl

@[simp] theorem finishWith_s2In (d : Decoded) (r : Option Int) : (s.finishWith d r).s2In = none := by
  cases r <;> rfl

end

end Sys2Proof.Machine
end

