-- ==== Sys2Proof/Laws/Ops.lean ====
section
/-! SUPPORT. What each shared operation can do, said once: registers, reservations, the buffer, and one
inversion lemma for each operation that answers an outcome. -/

namespace Sys2Proof.Machine

/-! ### Registers -/

theorem reg_number_inj {q r : Reg} (h : q.number = r.number) : q = r := by
  revert h
  cases q <;> cases r <;> decide

/-- A register after a write to a register (R25, R26). -/
@[simp] theorem reg_setReg (s : State) (r q : Reg) (v : Int) :
    (s.setReg r v).reg q = if q = r then wrap s.cfg.xlen v else s.reg q := by
  unfold State.reg State.setReg
  by_cases h : q = r
  · subst h; simp
  · have hn : r.number ≠ q.number := fun e => h (reg_number_inj e).symm
    simp [h, hn]

/-- The register a name stands for, if it is known (R25). -/
def knownReg : RegName → Option Reg
  | .known r => some r
  | .num _ => none
  | .tok _ => none

/-- The register an operand names, if it names a known one (R107). -/
def namedReg : Operand → Option Reg
  | .reg n => knownReg n
  | .absent => none
  | .regOff _ _ _ => none
  | .imm _ _ => none
  | .label _ _ => none

/-- A register after a write to a name (R26). -/
theorem reg_write (s : State) (n : RegName) (v : Int) (q : Reg) :
    (s.write n v).reg q = if knownReg n = some q then wrap s.cfg.xlen v else s.reg q := by
  cases n <;> simp [State.write, knownReg, eq_comm]

/-- A register after a write to the register named by an operand (R26, R107). -/
theorem reg_writeNamed (s : State) (o : Operand) (v : Int) (q : Reg) :
    (s.writeNamed o v).reg q = if namedReg o = some q then wrap s.cfg.xlen v else s.reg q := by
  cases o with
  | reg n => exact reg_write s n v q
  | _ => simp [State.writeNamed, namedReg]

/-- `increment(pc, 1)` (R27). -/
theorem reg_increment_pc (s : State) (k : Int) (q : Reg) :
    (s.increment (.known .pc) k).reg q = if q = .pc then wrap s.cfg.xlen (s.pcV + k) else s.reg q := by
  simp [State.increment, State.write, State.read, State.pcV]

/-- The register file decides the registers. -/
theorem reg_congr {s t : State} (h : s.regs = t.regs) (q : Reg) : s.reg q = t.reg q := by
  simp only [State.reg, h]

/-- Two register files that agree on every register are equal. -/
theorem regs_ext {s t : State} (h : ∀ q, s.reg q = t.reg q) : s.regs = t.regs := by
  apply Vector.ext
  intro i hi
  have key : ∀ q : Reg, s.regs[q.number]'(reg_number_lt q) = t.regs[q.number]'(reg_number_lt q) := h
  have hex : ∃ q : Reg, q.number = i := by
    have : ∀ j : Fin 19, ∃ q : Reg, q.number = j.val := by
      intro j
      fin_cases j
      exacts [⟨.pc, rfl⟩, ⟨.x0, rfl⟩, ⟨.x1, rfl⟩, ⟨.x2, rfl⟩, ⟨.x3, rfl⟩, ⟨.x4, rfl⟩, ⟨.x5, rfl⟩, ⟨.t0, rfl⟩,
        ⟨.t1, rfl⟩, ⟨.t2, rfl⟩, ⟨.t3, rfl⟩, ⟨.t4, rfl⟩, ⟨.t5, rfl⟩, ⟨.s0, rfl⟩, ⟨.s1, rfl⟩, ⟨.s2, rfl⟩,
        ⟨.s3, rfl⟩, ⟨.s4, rfl⟩, ⟨.s5, rfl⟩]
    exact this ⟨i, hi⟩
  obtain ⟨q, rfl⟩ := hex
  exact key q

theorem read_congr {s t : State} (h : s.regs = t.regs) (n : RegName) : s.read n = t.read n := by
  cases n
  · exact reg_congr h _
  · rfl
  · rfl

/-- Every register of the reset state is 0 (R47). -/
theorem reset_reg (q : Reg) : State.reset.reg q = 0 := by
  cases q <;> decide

theorem toReset_reg (s : State) (q : Reg) : s.toReset.reg q = 0 := by
  simp [State.reg, State.toReset]

/-! ### Tokens and names -/

/-- A register name is its name string again (R21, R82). -/
@[simp] theorem token_regNameOf (t : Token) : (regNameOf t).token = some t := by
  unfold regNameOf
  split <;> rfl

/-- Register names are keyed by name string (R21, R29). -/
theorem regNameOf_inj {t u : Token} (h : regNameOf t = regNameOf u) : t = u := by
  simpa using congrArg RegName.token h

/-- The token an operand was written with is found again (R80, R88). -/
@[simp] theorem token_operandOf (lbl : List (Token × Nat)) (t : Token) : (operandOf lbl t).token = some t := by
  have carried : t.isEmpty = false → carriedToken t = some t := fun h => by simp [carriedToken, h]
  unfold operandOf
  split
  · next h => simp [Operand.token, List.isEmpty_iff.1 h]
  · next h =>
    have ht := carried (by simpa using h)
    split
    · simp [Operand.token]
    · split
      · exact ht
      · split
        · exact ht
        · split <;> exact ht

/-- The reservation name of an operand token is the token, whatever its class (R29, R101). -/
theorem nameOf_operandOf (lbl : List (Token × Nat)) (t : Token) :
    nameOf (operandOf lbl t) = .name (regNameOf t) := by
  have ht := token_operandOf lbl t
  cases ho : operandOf lbl t with
  | reg n =>
    unfold operandOf at ho
    split at ho
    · cases ho
    · split at ho
      · cases ho; rfl
      · split at ho
        · cases ho
        · split at ho
          · cases ho
          · split at ho <;> cases ho
  | _ =>
    rw [ho] at ht
    simp [nameOf, ht]

@[simp] theorem nameOf_reg (n : RegName) : nameOf (.reg n) = .name n := rfl

/-- An absent operand is the empty token (R80, R101). -/
@[simp] theorem nameOf_absent : nameOf .absent = .name (.tok []) := rfl

@[simp] theorem targetOf_label (s : State) (target : Option Int) (text : Token) :
    s.targetOf (.label target text) = target := rfl

/-- The target of a branch is the direct lookup of its token (R89, R202). -/
theorem targetOf_operandOf (s : State) (t : Token) : s.targetOf (operandOf s.lbl t) = labelAddress s.lbl t := by
  have ht := token_operandOf s.lbl t
  cases ho : operandOf s.lbl t with
  | label target text =>
    unfold operandOf at ho
    split at ho
    · cases ho
    · split at ho
      · cases ho
      · split at ho
        · cases ho
        · split at ho
          · cases ho
          · split at ho <;> cases ho
            rfl
  | _ =>
    rw [ho] at ht
    simp [State.targetOf, ht]

/-! ### Reservations -/

theorem mem_addName (res : List ResName) (n m : ResName) : m ∈ addName res n ↔ m ∈ res ∨ m = n := by
  unfold addName
  split
  · next h => exact ⟨.inl, fun h' => h'.elim id (fun e => e ▸ h)⟩
  · simp

/-- The names after `reserve(L)` are those before and those of `L` (R30). -/
theorem mem_foldl_addName (l res : List ResName) (m : ResName) :
    m ∈ l.foldl addName res ↔ m ∈ res ∨ m ∈ l := by
  induction l generalizing res with
  | nil => simp
  | cons n l ih => simp [ih, mem_addName, or_assoc]

theorem nodup_addName {res : List ResName} (h : res.Nodup) (n : ResName) : (addName res n).Nodup := by
  unfold addName
  split
  · exact h
  · next hn => exact h.append (by simp) (by simpa using hn)

/-- `reserve(L)` keeps every name in the set at most once (R29, R30). -/
theorem nodup_foldl_addName {res : List ResName} (h : res.Nodup) (l : List ResName) :
    (l.foldl addName res).Nodup := by
  induction l generalizing res with
  | nil => exact h
  | cons n l ih => exact ih (nodup_addName h n)

/-- `release(L)` takes out the names of `L` and no other (R31). -/
theorem mem_release (s : State) (l : List ResName) (m : ResName) :
    m ∈ (s.release l).res ↔ m ∈ s.res ∧ m ∉ l := by
  simp

/-- `isReserved(L)` (R32). -/
theorem isReserved_iff (s : State) (l : List ResName) : s.isReserved l = true ↔ ∃ n ∈ l, n ∈ s.res := by
  simp [State.isReserved]

theorem isReserved_congr {s t : State} (h : s.res = t.res) (l : List ResName) :
    s.isReserved l = t.isReserved l := by
  simp only [State.isReserved, h]

/-! ### The buffer -/

theorem fetch_congr {s t : State} (h : s.ib = t.ib) (a : Int) : s.fetch a = t.fetch a := by
  simp only [State.fetch, h]

theorem decode_congr {s t : State} (hc : s.cfg = t.cfg) (hl : s.lbl = t.lbl) (x : Slot) :
    s.decode x = t.decode x := by
  simp only [State.decode, hc, hl]

/-- `fetch(a)` finds a slot exactly at the indices of the buffer (R43). -/
theorem fetch_isSome_iff (s : State) (a : Int) : (s.fetch a).isSome = true ↔ 0 ≤ a ∧ a < (s.size : Int) := by
  unfold State.fetch State.size
  split
  · next h => simp; omega
  · next h => simp [h]

/-- Everything `withInstr` can do when it answers a next state. -/
theorem withInstr_next {s t : State} {idx : Int} {k : Instr → Out} (h : withInstr s idx k = .next t) :
    ∃ x i, s.fetch idx = some x ∧ s.decode x = .ok i ∧ k i = .next t := by
  unfold withInstr at h
  split at h
  · cases h
  · next x hx =>
    split at h
    · cases h
    · next i hi => exact ⟨x, i, hx, hi, h⟩

theorem withInstr_of {s : State} {idx : Int} {x : Slot} {i : Instr} (hx : s.fetch idx = some x)
    (hi : s.decode x = .ok i) (k : Instr → Out) : withInstr s idx k = k i := by
  simp only [withInstr, hx, hi]

/-! ### Outcomes -/

@[simp] theorem andThen_of_next (s : State) (f : State → Out) : andThen (.next s) f = f s := rfl
@[simp] theorem andThen_of_fault (r : Fault) (f : State → Out) : andThen (.fault r) f = .fault r := rfl
@[simp] theorem andThen_of_refused (r : Refusal) (f : State → Out) : andThen (.refused r) f = .refused r := rfl

/-- Sequencing answers a next state exactly where both parts do. -/
theorem andThen_next {o : Out} {f : State → Out} {t : State} :
    andThen o f = .next t ↔ ∃ u, o = .next u ∧ f u = .next t := by
  cases o <;> simp [andThen]

/-! ### Stage 2 and commit, one inversion lemma each -/

theorem aluOne_next {f : Int → Option Int} {d : Decoded} {s t : State} (h : aluOne f d s = .next t) :
    ∃ x, d.op1V = some x ∧ t = s.finishWith d (f x) := by
  unfold aluOne at h
  split at h
  · next x hx => exact ⟨x, hx, by cases h; rfl⟩
  · cases h

theorem aluTwo_next {f : Option Nat → Int → Int → Option Int} {d : Decoded} {s t : State}
    (h : aluTwo f d s = .next t) :
    ∃ x y, d.op1V = some x ∧ d.op2V = some y ∧ t = s.finishWith d (f s.cfg.xlen x y) := by
  unfold aluTwo at h
  split at h
  · next x y hx hy => exact ⟨x, y, hx, hy, by cases h; rfl⟩
  · cases h

/-- A result that is stated, or a free value (entry 5). -/
theorem finishWith_s2Out (s : State) (d : Decoded) (r : Option Int) :
    (s.finishWith d r).s2Out = some { d with res := some (r.getD s.free) } := by
  cases r <;> rfl

theorem finishWith_freeCtr (s : State) (d : Decoded) (r : Option Int) :
    (s.finishWith d r).freeCtr = if r.isSome then s.freeCtr else s.freeCtr + 1 := by
  cases r <;> rfl

/-- `LsuStep(d)` (R190): it starts the countdown, counts on, or performs the access. -/
theorem lsuVisit_next {access : Decoded → State → Out} {d : Decoded} {s t : State}
    (h : lsuVisit access d s = .next t) :
    (d.stalled = false ∧ t = ({ s with lsuCnt := s.cfg.lsuDelay }).peek { d with stalled := true }) ∨
    (d.stalled = true ∧ 2 ≤ s.lsuCnt ∧ t = ({ s with lsuCnt := s.lsuCnt - 1 }).peek d) ∨
    (d.stalled = true ∧ s.lsuCnt ≤ 1 ∧ access { d with stalled := false } { s with lsuCnt := 0 } = .next t) := by
  unfold lsuVisit at h
  split at h
  · next hd =>
    split at h
    · exact .inr (.inr ⟨hd, by omega, h⟩)
    · exact .inr (.inl ⟨hd, by omega, by cases h; rfl⟩)
  · next hd => exact .inl ⟨by simpa using hd, by cases h; rfl⟩

theorem loadAccess_next {d : Decoded} {s t : State} (h : loadAccess d s = .next t) :
    ∃ a, d.op1V = some a ∧
      t = s.finish { d with memV := some (s.memRead a), res := some (s.memRead a) } := by
  unfold loadAccess at h
  split at h
  · next a ha => exact ⟨a, ha, by cases h; rfl⟩
  · cases h

theorem storeAccess_next {d : Decoded} {s t : State} (h : storeAccess d s = .next t) :
    ∃ a v, d.op1V = some a ∧ d.dstV = some v ∧ t = (s.memWrite a v).finish d := by
  unfold storeAccess at h
  split at h
  · next a v ha hv => exact ⟨a, v, ha, hv, by cases h; rfl⟩
  · cases h

theorem ckWb_next {dst : Operand} {d : Decoded} {s t : State} (h : ckWb dst d s = .next t) :
    ∃ v, d.res = some v ∧ t = (s.writeNamed dst v).retire d := by
  unfold ckWb at h
  split at h
  · next v hv => exact ⟨v, hv, by cases h; rfl⟩
  · cases h

theorem ckJal_next {dst : Operand} {d : Decoded} {s t : State} (h : ckJal dst d s = .next t) :
    ∃ v, d.op1V = some v ∧ t = ((s.writeNamed dst v).write (.known .pc) v).retire d := by
  unfold ckJal at h
  split at h
  · next v hv => exact ⟨v, hv, by cases h; rfl⟩
  · cases h

theorem ckBranch_next {op1 op2 : Operand} {d : Decoded} {s t : State} (h : ckBranch op1 op2 d s = .next t) :
    ((s.cfg.brWbUncond = true ∨ pcName ∈ d.reserved) ∧ ∃ v, s.targetOf op2 = some v ∧
      t = ((s.writeNamed op1 v).write (.known .pc) v).retire d) ∨
    (s.cfg.brWbUncond = false ∧ pcName ∉ d.reserved ∧ t = s.retire d) := by
  unfold ckBranch at h
  split at h
  · next hc =>
    split at h
    · next v hv => exact .inl ⟨by simpa using hc, v, hv, by cases h; rfl⟩
    · cases h
  · next hc =>
    simp only [Bool.or_eq_true, decide_eq_true_eq, not_or, Bool.not_eq_true] at hc
    exact .inr ⟨hc.1, hc.2, by cases h; rfl⟩

theorem latchOperands_next {d a b : Operand} {s t : State} (h : latchOperands d a b s = .next t) :
    ∃ x, s.s1In = some x ∧
      t = { s with s1Out := some { x with dstV := s.val d, op1V := s.val a, op2V := s.val b }, s1In := none } := by
  unfold latchOperands at h
  split at h
  · next x hx => exact ⟨x, hx, by cases h; rfl⟩
  · cases h

/-- Everything an instruction can do, by the plug-in point (R127). -/
theorem alongThePipe_next {d a b : Operand} {adm : State → Out} {exe com : Decoded → State → Out}
    {s t : State} (h : alongThePipe d a b adm exe com s = .next t) :
    (s.point = .atAdmission ∧ adm s = .next t) ∨
    (s.point = .atOperands ∧ ∃ x, s.s1In = some x ∧
      t = { s with s1Out := some { x with dstV := s.val d, op1V := s.val a, op2V := s.val b }, s1In := none }) ∨
    (s.point = .atExecute ∧ ∃ x, s.s2In = some x ∧ exe x s = .next t) ∨
    (s.point = .atCommit ∧ ∃ x, s.s3In = some x ∧ com x s = .next t) := by
  unfold alongThePipe at h
  split at h
  · next hp => exact .inl ⟨hp, h⟩
  · next hp => exact .inr (.inl ⟨hp, latchOperands_next h⟩)
  · next hp =>
    split at h
    · next x hx => exact .inr (.inr (.inl ⟨hp, x, hx, h⟩))
    · cases h
  · next hp =>
    split at h
    · next x hx => exact .inr (.inr (.inr ⟨hp, x, hx, h⟩))
    · cases h

/-- The meaning at a plug-in point, and nothing else. -/
theorem callAt_next {p : Point} {i : Instr} {s t : State} (h : callAt p i s = .next t) :
    ∃ u, exec i { s with point := p } = .next u ∧ t = { u with point := s.point } := by
  obtain ⟨u, hu, ht⟩ := andThen_next.1 h
  exact ⟨u, hu, by cases ht; rfl⟩

/-- Everything step N1 can do (R124): nothing, or the admission of an unblocked candidate. -/
theorem stepN1_next {s t : State} (h : stepN1 s = .next t) :
    t = s ∨ (s.s1In = none ∧ ∃ x i, s.fetch s.pcV = some x ∧ s.decode x = .ok i ∧ s.blocked i = false ∧
      callAt .atAdmission i s = .next t) := by
  unfold stepN1 at h
  split at h
  · next h1 =>
    split at h
    · cases h; exact .inl rfl
    · next x hx =>
      unfold considerSlot at h
      split at h
      · split at h
        · cases h; exact .inl rfl
        · cases h
      · next i hi =>
        split at h
        · cases h; exact .inl rfl
        · next hb => exact .inr ⟨h1, x, i, hx, hi, by simpa using hb, h⟩
  · cases h; exact .inl rfl

/-- Step N3 moves a completed instruction into stage 3 or does nothing (R122). -/
theorem stepN3_cases (s : State) :
    (∃ d, s.s3In = none ∧ s.lsuCnt = 0 ∧ s.s2Out = some d ∧
      stepN3 s = { s with s3In := some d, s2Out := none }) ∨
    (¬(s.s3In = none ∧ s.lsuCnt = 0 ∧ s.s2Out ≠ none) ∧ stepN3 s = s) := by
  unfold stepN3
  split
  · next h =>
    obtain ⟨d, hd⟩ := Option.ne_none_iff_exists'.1 h.2.2
    exact .inl ⟨d, h.1, h.2.1, hd, by rw [hd]⟩
  · next h => exact .inr ⟨h, rfl⟩

/-- Step N2 moves an instruction into stage 2 or does nothing (R123). -/
theorem stepN2_cases (s : State) :
    (∃ d, s.s2In = none ∧ s.s1Out = some d ∧ stepN2 s = { s with s2In := some d, s1Out := none }) ∨
    (¬(s.s2In = none ∧ s.s1Out ≠ none) ∧ stepN2 s = s) := by
  unfold stepN2
  split
  · next h =>
    obtain ⟨d, hd⟩ := Option.ne_none_iff_exists'.1 h.2
    exact .inl ⟨d, h.1, hd, by rw [hd]⟩
  · next h => exact .inr ⟨h, rfl⟩

/-- Everything one step of the machine can do (R120, R140, R247, R263). -/
theorem driverStep_next {s t : State} (h : driverStep s = .next t) :
    s.cfg.legal = true ∧
    ((s.rst = true ∧ t = s.toReset) ∨ (s.rst = false ∧ s.ended = true ∧ t = s) ∨
      (s.rst = false ∧ s.ended = false ∧ clockCycle s = .next t)) := by
  unfold driverStep at h
  split at h
  · next hl =>
    refine ⟨hl, ?_⟩
    split at h
    · next hr => exact .inl ⟨hr, by cases h; rfl⟩
    · next hr =>
      split at h
      · next he => exact .inr (.inl ⟨by simpa using hr, he, by cases h; rfl⟩)
      · next he => exact .inr (.inr ⟨by simpa using hr, by simpa using he, h⟩)
  · cases h

end Sys2Proof.Machine
end

