-- ==== Sys2Proof/Laws/Exec.lean ====
section
/-! SUPPORT. What `exec` can do at each plug-in point, said once for all instructions, and what the six
steps of a cycle can do. -/

set_option autoImplicit false

namespace Sys2Proof.Machine

/-- The reservations an admission makes (R126): none, `dst` of a write-back instruction, or `dst` and `pc`
of `jal` and of a branch. -/
abbrev AdmissionNames (i : Instr) (rl : List ResName) : Prop :=
  (rl = [] ∧ i.wb = false) ∨ (rl = [nameOf i.dst] ∧ i.wb = true) ∨
    (rl = [nameOf i.dst, pcName] ∧ i.wb = false ∧ (i.wf = true → i.dst.isReg = true))

/-- What an admission with these reservations leaves (R126): only the registers, and of them `pc` only, the
reservation set, stage 1 and the count of free values can differ. -/
abbrev AdmittedWith (rl : List ResName) (s t : State) : Prop :=
  (t.regs = s.regs ∨ t.regs = (s.increment (.known .pc) 1).regs) ∧
    t = { s with
      regs := t.regs
      res := rl.foldl addName s.res
      s1In := some (Decoded.fresh s.pcV rl)
      freeCtr := t.freeCtr }

theorem akWb_next {dst : Operand} {s t : State} (h : akWb dst s = .next t) : AdmittedWith [nameOf dst] s t := by
  cases h
  exact ⟨.inr rfl, rfl⟩

theorem akPlain_next {s t : State} (h : akPlain s = .next t) : AdmittedWith [] s t := by
  cases h
  exact ⟨.inr rfl, rfl⟩

theorem akJump_next {dst : Operand} {s t : State} (h : akJump dst s = .next t) :
    AdmittedWith [nameOf dst, pcName] s t := by
  cases h
  exact ⟨.inl rfl, rfl⟩

/-- A branch reserves nothing, or `dst` and `pc` (R126, R202). -/
theorem akCompare_next {holds : Int → Int → Bool} {dst op1 : Operand} {s t : State}
    (h : akCompare holds dst op1 s = .next t) : AdmittedWith [] s t ∨ AdmittedWith [nameOf dst, pcName] s t := by
  have hb : s.afterBound op1 = { s with freeCtr := (s.afterBound op1).freeCtr } := by
    unfold State.afterBound
    split <;> rfl
  unfold akCompare akBranch at h
  generalize holds (s.readNamed dst) (s.bound op1) = taken at h
  rw [hb] at h
  cases h
  cases taken
  · exact .inl ⟨.inr rfl, rfl⟩
  · exact .inr ⟨.inl rfl, rfl⟩

/-- Everything an admission does (R126). -/
theorem exec_atAdmission {i : Instr} {s t : State} (hp : s.point = .atAdmission) (h : exec i s = .next t) :
    ∃ rl, AdmissionNames i rl ∧ AdmittedWith rl s t := by
  cases i <;>
    simp only [exec, execAdd, execAddi, execLi, execLw, execSlli, execSlri, execSub, execSw, execJal, execBge,
      execBle, execOther, execOtherReserved, alongThePipe, hp] at h
  case sw | other | otherReserved => exact ⟨[], .inl ⟨rfl, rfl⟩, akPlain_next h⟩
  case jal d a b =>
    exact ⟨_, .inr (.inr ⟨rfl, rfl, fun hw => by simp only [Instr.wf, Bool.and_eq_true] at hw; exact hw.1⟩),
      akJump_next h⟩
  case bge d a b | ble d a b =>
    rcases akCompare_next h with h | h
    · exact ⟨[], .inl ⟨rfl, rfl⟩, h⟩
    · exact ⟨_, .inr (.inr ⟨rfl, rfl, fun hw => by simp only [Instr.wf, Bool.and_eq_true] at hw; exact hw.1.1⟩), h⟩
  all_goals exact ⟨_, .inr (.inl ⟨rfl, rfl⟩), akWb_next h⟩

/-- Everything an operand fetch does (R132). -/
theorem exec_atOperands {i : Instr} {s t : State} (hp : s.point = .atOperands) (h : exec i s = .next t) :
    ∃ d, s.s1In = some d ∧
      t = { s with
        s1Out := some { d with dstV := s.val i.dst, op1V := s.val i.op1, op2V := s.val i.op2 }
        s1In := none } := by
  cases i <;>
    simp only [exec, execAdd, execAddi, execLi, execLw, execSlli, execSlri, execSub, execSw, execJal, execBge,
      execBle, execOther, execOtherReserved, alongThePipe, hp] at h <;>
    exact latchOperands_next h

/-- The stage 2 work of an instruction that is no load and no store (R130, R131): it completes, with a
result where it writes back. -/
theorem exec_atExecute {i : Instr} {s t : State} (hp : s.point = .atExecute) (hm : (i.st || i.ld) = false)
    (h : exec i s = .next t) :
    ∃ d r, s.s2In = some d ∧ (i.wb = true → r.isSome = true) ∧ (i.wb = false → r = d.res) ∧
      t = { s with s2Out := some { d with res := r }, s2In := none, freeCtr := t.freeCtr } := by
  have fin : ∀ (d : Decoded) (r : Option Int), s.finishWith d r =
      { s with
        s2Out := some { d with res := some (r.getD s.free) }
        s2In := none
        freeCtr := (s.finishWith d r).freeCtr } := by
    intro d r
    cases r <;> rfl
  cases i <;> first | (simp [Instr.st, Instr.ld] at hm; done) | skip
  all_goals
    simp only [exec, execAdd, execAddi, execLi, execSlli, execSlri, execSub, execJal, execBge, execBle,
      execOther, execOtherReserved, alongThePipe, hp] at h
    split at h
    rotate_left
    · cases h
    next d hd =>
      first
        | (cases h; exact ⟨d, d.res, hd, by simp [Instr.wb], fun _ => rfl, rfl⟩)
        | (obtain ⟨x, -, rfl⟩ := aluOne_next h
           exact ⟨d, _, hd, fun _ => rfl, by simp [Instr.wb], fin _ _⟩)
        | (obtain ⟨x, y, -, -, rfl⟩ := aluTwo_next h
           exact ⟨d, _, hd, fun _ => rfl, by simp [Instr.wb], fin _ _⟩)

/-- The stage 2 work of a load or a store (R190): it starts the countdown, counts on, or performs the
access and completes. -/
theorem exec_atExecute_memory {i : Instr} {s t : State} (hp : s.point = .atExecute) (hm : (i.st || i.ld) = true)
    (h : exec i s = .next t) :
    ∃ d, s.s2In = some d ∧
      ((d.stalled = false ∧ t = ({ s with lsuCnt := s.cfg.lsuDelay }).peek { d with stalled := true }) ∨
       (d.stalled = true ∧ 2 ≤ s.lsuCnt ∧ t = ({ s with lsuCnt := s.lsuCnt - 1 }).peek d) ∨
       (d.stalled = true ∧ s.lsuCnt ≤ 1 ∧ i.ld = true ∧ ∃ a, d.op1V = some a ∧
         t = ({ s with lsuCnt := 0 }).finish
           { d with stalled := false, memV := some (s.memRead a), res := some (s.memRead a) }) ∨
       (d.stalled = true ∧ s.lsuCnt ≤ 1 ∧ i.st = true ∧ ∃ a v, d.op1V = some a ∧ d.dstV = some v ∧
         t = ({ s with lsuCnt := 0 }.memWrite a v).finish { d with stalled := false })) := by
  cases i <;> first | (simp [Instr.st, Instr.ld] at hm; done) | skip
  all_goals
    simp only [exec, execLw, execSw, alongThePipe, hp] at h
    split at h
    rotate_left
    · cases h
  · next d hd =>
    refine ⟨d, hd, ?_⟩
    rcases lsuVisit_next h with h1 | h1 | ⟨h1, h2, h3⟩
    · exact .inl h1
    · exact .inr (.inl h1)
    · obtain ⟨a, ha, rfl⟩ := loadAccess_next h3
      exact .inr (.inr (.inl ⟨h1, h2, rfl, a, ha, rfl⟩))
  · next d hd =>
    refine ⟨d, hd, ?_⟩
    rcases lsuVisit_next h with h1 | h1 | ⟨h1, h2, h3⟩
    · exact .inl h1
    · exact .inr (.inl h1)
    · obtain ⟨a, v, ha, hv, rfl⟩ := storeAccess_next h3
      exact .inr (.inr (.inr ⟨h1, h2, rfl, a, v, ha, hv, rfl⟩))

theorem writeNamed_eq (s : State) (o : Operand) (v : Int) :
    s.writeNamed o v = { s with regs := (s.writeNamed o v).regs } := by
  cases o with
  | reg n => cases n <;> rfl
  | _ => rfl

/-- Everything a commit does (R129): it writes registers and retires. -/
theorem exec_atCommit {i : Instr} {s t : State} (hp : s.point = .atCommit) (h : exec i s = .next t) :
    ∃ d regs, s.s3In = some d ∧ t = ({ s with regs := regs }).retire d := by
  have wn : ∀ (o : Operand) (v : Int) (d : Decoded),
      (s.writeNamed o v).retire d = ({ s with regs := (s.writeNamed o v).regs }).retire d := by
    intro o v d
    rw [← writeNamed_eq]
  have wnpc : ∀ (o : Operand) (v : Int) (d : Decoded), ((s.writeNamed o v).write (.known .pc) v).retire d =
      ({ s with regs := ((s.writeNamed o v).write (.known .pc) v).regs }).retire d := by
    intro o v d
    rw [writeNamed_eq]
    rfl
  cases i <;>
    simp only [exec, execAdd, execAddi, execLi, execLw, execSlli, execSlri, execSub, execSw, execJal, execBge,
      execBle, execOther, execOtherReserved, alongThePipe, hp] at h <;>
    split at h
  all_goals first | (cases h; done) | skip
  all_goals
    next d hd =>
      first
        | (cases h; exact ⟨d, s.regs, hd, rfl⟩)
        | (obtain ⟨v, -, rfl⟩ := ckWb_next h; exact ⟨d, _, hd, wn _ _ _⟩)
        | (obtain ⟨v, -, rfl⟩ := ckJal_next h; exact ⟨d, _, hd, wnpc _ _ _⟩)
        | (rcases ckBranch_next h with ⟨-, v, -, rfl⟩ | ⟨-, -, rfl⟩
           · exact ⟨d, _, hd, wnpc _ _ _⟩
           · exact ⟨d, s.regs, hd, rfl⟩)

/-! ### The six steps of a cycle -/

/-- Step N1 (R124, R126): nothing, or the admission of an unblocked candidate. -/
theorem stepN1_admits {s t : State} (h : stepN1 s = .next t) :
    t = s ∨ ∃ x i rl regs fc, s.s1In = none ∧ s.fetch s.pcV = some x ∧ s.decode x = .ok i ∧ s.blocked i = false ∧
      AdmissionNames i rl ∧ (regs = s.regs ∨ regs = (s.increment (.known .pc) 1).regs) ∧
      t = { s with
        regs := regs
        res := rl.foldl addName s.res
        s1In := some (Decoded.fresh s.pcV rl)
        freeCtr := fc } := by
  rcases stepN1_next h with rfl | ⟨h1, x, i, hx, hi, hb, hc⟩
  · exact .inl rfl
  · obtain ⟨u, hu, rfl⟩ := callAt_next hc
    obtain ⟨rl, hrl, hregs, ht⟩ := exec_atAdmission rfl hu
    refine .inr ⟨x, i, rl, u.regs, u.freeCtr, h1, hx, hi, hb, hrl, hregs, ?_⟩
    rw [ht]
    rfl

/-- Step P3 (R129): nothing, or the commit and the retirement of what stage 3 holds. -/
theorem stepP3_commits {s t : State} (h : stepP3 s = .next t) :
    (s.s3In = none ∧ t = s) ∨
    ∃ d x i regs, s.s3In = some d ∧ s.fetch d.idx = some x ∧ s.decode x = .ok i ∧
      t = ({ s with regs := regs }).retire d := by
  unfold stepP3 at h
  split at h
  · next d hd =>
    obtain ⟨x, i, hx, hi, hc⟩ := withInstr_next h
    obtain ⟨u, hu, rfl⟩ := callAt_next hc
    obtain ⟨e, regs, he, rfl⟩ := exec_atCommit rfl hu
    have : d = e := Option.some.inj (hd.symm.trans he)
    subst this
    exact .inr ⟨d, x, i, regs, hd, hx, hi, rfl⟩
  · next hd => exact .inl ⟨hd, by cases h; rfl⟩

/-- Step P1 (R132): nothing, or the operands of what stage 1 holds are read and it moves on. -/
theorem stepP1_reads {s t : State} (h : stepP1 s = .next t) :
    ((s.s1In = none ∨ s.s1Out ≠ none) ∧ t = s) ∨
    ∃ d x i, s.s1In = some d ∧ s.s1Out = none ∧ s.fetch d.idx = some x ∧ s.decode x = .ok i ∧
      t = { s with
        s1Out := some { d with dstV := s.val i.dst, op1V := s.val i.op1, op2V := s.val i.op2 }
        s1In := none } := by
  unfold stepP1 at h
  split at h
  · next d hd hn =>
    obtain ⟨x, i, hx, hi, hc⟩ := withInstr_next h
    obtain ⟨u, hu, rfl⟩ := callAt_next hc
    obtain ⟨e, he, rfl⟩ := exec_atOperands rfl hu
    have : d = e := Option.some.inj (hd.symm.trans he)
    subst this
    refine .inr ⟨d, x, i, hd, hn, hx, hi, ?_⟩
    rfl
  · next hno =>
    refine .inl ⟨?_, by cases h; rfl⟩
    cases h1 : s.s1In with
    | none => exact .inl rfl
    | some d =>
      right
      intro h2
      exact hno d h1 h2

/-- Step P2 (R130, R131, R190): nothing; a completion at once; or a visit of a load or a store, which
starts the countdown, counts on, or performs the access. -/
theorem stepP2_executes {s t : State} (h : stepP2 s = .next t) :
    (s.s2In = none ∧ t = s) ∨
    ∃ d x i, s.s2In = some d ∧ s.fetch d.idx = some x ∧ s.decode x = .ok i ∧
      (((i.st || i.ld) = false ∧ ∃ r fc, (i.wb = true → r.isSome = true) ∧ (i.wb = false → r = d.res) ∧
          t = { s with s2Out := some { d with res := r }, s2In := none, freeCtr := fc }) ∨
       ((i.st || i.ld) = true ∧
        ((d.stalled = false ∧ t = ({ s with lsuCnt := s.cfg.lsuDelay }).peek { d with stalled := true }) ∨
         (d.stalled = true ∧ 2 ≤ s.lsuCnt ∧ t = ({ s with lsuCnt := s.lsuCnt - 1 }).peek d) ∨
         (d.stalled = true ∧ s.lsuCnt ≤ 1 ∧ i.ld = true ∧ ∃ a, d.op1V = some a ∧
           t = ({ s with lsuCnt := 0 }).finish
             { d with stalled := false, memV := some (s.memRead a), res := some (s.memRead a) }) ∨
         (d.stalled = true ∧ s.lsuCnt ≤ 1 ∧ i.st = true ∧ ∃ a v, d.op1V = some a ∧ d.dstV = some v ∧
           t = ({ s with lsuCnt := 0 }.memWrite a v).finish { d with stalled := false })))) := by
  unfold stepP2 at h
  split at h
  · next d hd =>
    obtain ⟨x, i, hx, hi, hc⟩ := withInstr_next h
    obtain ⟨u, hu, rfl⟩ := callAt_next hc
    refine .inr ⟨d, x, i, hd, hx, hi, ?_⟩
    cases hm : i.st || i.ld
    · obtain ⟨e, r, he, hr, hr', ht⟩ := exec_atExecute rfl hm hu
      have : d = e := Option.some.inj (hd.symm.trans he)
      subst this
      exact .inl ⟨rfl, r, u.freeCtr, hr, hr', by rw [ht]⟩
    · obtain ⟨e, he, hcase⟩ := exec_atExecute_memory rfl hm hu
      have : d = e := Option.some.inj (hd.symm.trans he)
      subst this
      refine .inr ⟨rfl, ?_⟩
      rcases hcase with ⟨h1, rfl⟩ | ⟨h1, h2, rfl⟩ | ⟨h1, h2, h3, a, ha, rfl⟩ | ⟨h1, h2, h3, a, v, ha, hv, rfl⟩
      · exact .inl ⟨h1, rfl⟩
      · exact .inr (.inl ⟨h1, h2, rfl⟩)
      · exact .inr (.inr (.inl ⟨h1, h2, h3, a, ha, rfl⟩))
      · exact .inr (.inr (.inr ⟨h1, h2, h3, a, v, ha, hv, rfl⟩))
  · next hd => exact .inl ⟨hd, by cases h; rfl⟩

/-- A cycle answers a next state exactly where its six steps do (R120, R121, R128). -/
theorem clockCycle_next {s t : State} (h : clockCycle s = .next t) :
    ∃ n p q, stepN1 (stepN2 (stepN3 (s.nextCycle.emit (.clk false)))) = .next n ∧
      stepP3 (n.emit (.clk true)) = .next p ∧ stepP2 p = .next q ∧ stepP1 q = .next t := by
  unfold clockCycle negedge at h
  obtain ⟨n, hn, h⟩ := andThen_next.1 h
  unfold posedge at h
  obtain ⟨q, hq, h⟩ := andThen_next.1 h
  obtain ⟨p, hp, hq⟩ := andThen_next.1 hq
  exact ⟨n, p, q, hn, hp, hq, h⟩

/-- Everything a step can do: hold at reset, hold after the end, or run one cycle (R120, R140, R263). -/
theorem step_next {s t : State} (h : step s = .next t) :
    s.cfg.legal = true ∧
    ((s.rst = true ∧ t = s.toReset) ∨ (s.rst = false ∧ s.ended = true ∧ t = s) ∨
      (s.rst = false ∧ s.ended = false ∧ clockCycle s = .next t)) :=
  driverStep_next h

end Sys2Proof.Machine
end

