-- ==== Sys2Proof/Laws/PerInstr.lean ====
section
/-! SUPPORT. Per-instruction laws about the syntax of the thirteen rows: the opcode number of a row
selects the row again (R107). -/

set_option autoImplicit false

/-- The row an opcode number selects, with the operands of the instruction, is the instruction (R107). -/
def Sys2Proof.Laws.OpcodeRow.Statement (i : Sys2Proof.Instr) : Prop :=
  Sys2Proof.instrOfOpc i.opc i.dst i.op1 i.op2 = i

theorem Sys2Proof.Laws.OpcodeRow.add (d a b : Sys2Proof.Operand) :
    Sys2Proof.Laws.OpcodeRow.Statement (.add d a b) := rfl

theorem Sys2Proof.Laws.OpcodeRow.addi (d a b : Sys2Proof.Operand) :
    Sys2Proof.Laws.OpcodeRow.Statement (.addi d a b) := rfl

theorem Sys2Proof.Laws.OpcodeRow.li (d a b : Sys2Proof.Operand) :
    Sys2Proof.Laws.OpcodeRow.Statement (.li d a b) := rfl

theorem Sys2Proof.Laws.OpcodeRow.lw (d a b : Sys2Proof.Operand) :
    Sys2Proof.Laws.OpcodeRow.Statement (.lw d a b) := rfl

theorem Sys2Proof.Laws.OpcodeRow.slli (d a b : Sys2Proof.Operand) :
    Sys2Proof.Laws.OpcodeRow.Statement (.slli d a b) := rfl

theorem Sys2Proof.Laws.OpcodeRow.slri (d a b : Sys2Proof.Operand) :
    Sys2Proof.Laws.OpcodeRow.Statement (.slri d a b) := rfl

theorem Sys2Proof.Laws.OpcodeRow.sub (d a b : Sys2Proof.Operand) :
    Sys2Proof.Laws.OpcodeRow.Statement (.sub d a b) := rfl

theorem Sys2Proof.Laws.OpcodeRow.sw (d a b : Sys2Proof.Operand) :
    Sys2Proof.Laws.OpcodeRow.Statement (.sw d a b) := rfl

theorem Sys2Proof.Laws.OpcodeRow.jal (d a b : Sys2Proof.Operand) :
    Sys2Proof.Laws.OpcodeRow.Statement (.jal d a b) := rfl

theorem Sys2Proof.Laws.OpcodeRow.bge (d a b : Sys2Proof.Operand) :
    Sys2Proof.Laws.OpcodeRow.Statement (.bge d a b) := rfl

theorem Sys2Proof.Laws.OpcodeRow.ble (d a b : Sys2Proof.Operand) :
    Sys2Proof.Laws.OpcodeRow.Statement (.ble d a b) := rfl

theorem Sys2Proof.Laws.OpcodeRow.other (d a b : Sys2Proof.Operand) :
    Sys2Proof.Laws.OpcodeRow.Statement (.other d a b) := rfl

theorem Sys2Proof.Laws.OpcodeRow.otherReserved (k : Fin 4) (d a b : Sys2Proof.Operand) :
    Sys2Proof.Laws.OpcodeRow.Statement (.otherReserved k d a b) := by
  match k with
  | 0 => rfl
  | 1 => rfl
  | 2 => rfl
  | 3 => rfl
end

