-- ==== Sys2Proof/Tests/Slice0.lean ====
section
/-! SUPPORT. Tests of the model. Words, values and end states are those of spec/95_test_vectors.md (its
section is named at each group); the last part shows for every statement with hypotheses a state and
operands that meet them. -/

set_option autoImplicit false

namespace Sys2Proof.Machine.Tests

/-! ### Operands and small states -/

abbrev rPc : Operand := .reg (.known .pc)
abbrev rX1 : Operand := .reg (.known .x1)
abbrev rT0 : Operand := .reg (.known .t0)
abbrev rT1 : Operand := .reg (.known .t1)
abbrev rT2 : Operand := .reg (.known .t2)
abbrev rT3 : Operand := .reg (.known .t3)
/-- `t0` as a name in the reservation set. -/
abbrev nT0 : ResName := .name (.known .t0)
abbrev nX1 : ResName := .name (.known .x1)
/-- The unknown name of register number 19 (R106). -/
abbrev rNum : Operand := .reg (.num 0)

/-- Reset, with a program of binary words. -/
def prog (ws : List Nat) : State := { State.reset with ib := ws.map (fun w => .word w []) }

/-- A decoded instruction at index 0 with these operand values. -/
def held (dv av bv : Option Int) : Decoded :=
  { idx := 0, dstV := dv, op1V := av, op2V := bv, memV := none, res := none, reserved := [], stalled := false }

/-- Reset, standing at stage 2 with this instruction there. -/
def stage2 (d : Decoded) : State := { State.reset with point := .atExecute, s2In := some d }

/-- Reset, standing at the last visit of a memory access of one cycle. -/
def lastVisit (d : Decoded) : State :=
  { State.reset with point := .atExecute, s2In := some { d with stalled := true }, lsuCnt := 1 }

/-- Reset, standing at the commit of an instruction with this result. -/
def stage3 (d : Decoded) (r : Option Int) : State :=
  { State.reset with point := .atCommit, s3In := some { d with res := r } }

/-- The result that stage 2 leaves. -/
def resultOf (o : Out) : Option Int := (nextState o).bind (fun t => t.s2Out.bind (fun d => d.res))

/-- A register after. -/
def regAfter (q : Reg) (o : Out) : Option Int := (nextState o).map (fun t => t.reg q)

/-- A cell after. -/
def cellAfter (a : Int) (o : Out) : Option Int := (nextState o).map (fun t => t.memRead a)

/-- The outcome is a next state. -/
def goesOn (o : Out) : Bool := (nextState o).isSome

/-! ### Well-formedness: an ill-formed term for each check (R100, R101, U4) -/

theorem test_wf_refuses_write_back_without_register_dst :
    (Instr.add (.imm 1) rT0 rT1).wf = false ∧ (Instr.addi .absent rT0 rT1).wf = false ∧
    (Instr.sub (.label (some 0)) rT0 rT1).wf = false ∧ (Instr.slli (.regOff 0 (.known .t0)) rT0 rT1).wf = false ∧
    (Instr.slri (.imm 1) rT0 rT1).wf = false ∧ (Instr.li (.imm 1) rT0 .absent).wf = false ∧
    (Instr.lw (.imm 1) rT0 .absent).wf = false ∧ (Instr.jal (.imm 1) (.imm 0) .absent).wf = false ∧
    (Instr.bge (.imm 1) (.imm 0) (.label (some 0))).wf = false ∧
    (Instr.ble .absent (.imm 0) (.label (some 0))).wf = false := by decide

theorem test_wf_refuses_missing_sources :
    (Instr.add rT0 .absent rT1).wf = false ∧ (Instr.add rT0 rT1 .absent).wf = false ∧
    (Instr.addi rT0 .absent rT1).wf = false ∧ (Instr.addi rT0 rT1 (.label none)).wf = false ∧
    (Instr.sub rT0 .absent rT1).wf = false ∧ (Instr.sub rT0 rT1 .absent).wf = false ∧
    (Instr.slli rT0 .absent rT1).wf = false ∧ (Instr.slli rT0 rT1 .absent).wf = false ∧
    (Instr.slri rT0 .absent rT1).wf = false ∧ (Instr.slri rT0 rT1 .absent).wf = false ∧
    (Instr.li rT0 .absent .absent).wf = false ∧ (Instr.lw rT0 (.label none) .absent).wf = false ∧
    (Instr.jal rT0 (.label none) .absent).wf = false := by decide

theorem test_wf_refuses_bad_stores_and_branches :
    (Instr.sw (.regOff 0 (.known .t0)) rT1 .absent).wf = false ∧ (Instr.sw .absent rT1 .absent).wf = false ∧
    (Instr.sw rT0 .absent .absent).wf = false ∧
    (Instr.bge rT0 rT1 (.label (some 0))).wf = false ∧ (Instr.ble rT0 rT1 (.label (some 0))).wf = false ∧
    (Instr.bge rT0 (.imm 0) (.label none)).wf = false ∧ (Instr.ble rT0 (.imm 0) rT1).wf = false := by decide

theorem test_wf_takes_the_worked_forms :
    (Instr.sw (.imm 5) (.regOff 0 (.known .t1)) .absent).wf = true ∧
    (Instr.addi rT0 rT1 rT2).wf = true ∧ (Instr.li rT0 (.label (some 1)) .absent).wf = true ∧
    (Instr.jal rX1 (.regOff 2 (.known .pc)) .absent).wf = true ∧
    (Instr.other .absent .absent .absent).wf = true ∧ (Instr.otherReserved 3 .absent .absent .absent).wf = true := by
  decide

theorem test_encodable_refuses_what_has_no_word :
    (Instr.li (.reg (.tok ['t', '9'])) (.imm 0) .absent).encodable 32 = false ∧
    (Instr.li rT0 (.imm 2147483648) .absent).encodable 32 = false ∧
    (Instr.li rT0 (.regOff (-2147483649) (.known .t0)) .absent).encodable 32 = false ∧
    (Instr.li rT0 (.regOff 0 (.tok ['q'])) .absent).encodable 32 = false ∧
    (Instr.jal rT0 (.label (some 2147483648)) .absent).encodable 32 = false ∧
    (Instr.li rT0 (.imm (-2147483648)) .absent).encodable 32 = true := by decide

/-! ### Decoding of words (95_test_vectors.md section 4) -/

theorem test_decode_li : decodeWord 32 0x00000000000000000050300000000393 = .ok (.li rT0 (.imm 5) .absent) := by rfl

theorem test_decode_add : decodeWord 32 0x00000000041000000003900000000491 = .ok (.add rT2 rT0 rT1) := by rfl

theorem test_decode_addi : decodeWord 32 0x00000000103000000004900000000512 = .ok (.addi rT3 rT2 (.imm 1)) := by rfl

theorem test_decode_sub : decodeWord 32 0x00000000041000000003900000000497 = .ok (.sub rT2 rT0 rT1) := by rfl

theorem test_decode_slli : decodeWord 32 0x00000000403000000004100000000395 = .ok (.slli rT0 rT1 (.imm 4)) := by rfl

theorem test_decode_slri : decodeWord 32 0x00000000403000000004100000000396 = .ok (.slri rT0 rT1 (.imm 4)) := by rfl

theorem test_decode_lw :
    decodeWord 32 0x00000000000fffffffc3a00000000414 = .ok (.lw rT1 (.regOff (-4) (.known .t0)) .absent) := by rfl

theorem test_decode_sw :
    decodeWord 32 0x00000000000000000044200000000398 = .ok (.sw rT0 (.regOff 4 (.known .t1)) .absent) ∧
    decodeWord 32 0x00000000000000000004200000005038 = .ok (.sw (.imm 5) (.regOff 0 (.known .t1)) .absent) ∧
    decodeWord 32 0x0000000000000000000a200000000998 = .ok (.sw rNum (.regOff 0 (.num 1)) .absent) :=
  ⟨rfl, rfl, rfl⟩

theorem test_decode_jal :
    decodeWord 32 0x00000000000000000020400000000119 = .ok (.jal rX1 (.label (some 2)) .absent) ∧
    decodeWord 32 0x00000000000000000020200000000119 = .ok (.jal rX1 (.regOff 2 (.known .pc)) .absent) :=
  ⟨rfl, rfl⟩

theorem test_decode_bge :
    decodeWord 32 0x0000000030400000000030000000039a = .ok (.bge rT0 (.imm 0) (.label (some 3))) ∧
    decodeWord 32 0x00000000704ffffffff030000000039a = .ok (.bge rT0 (.imm (-1)) (.label (some 7))) := ⟨rfl, rfl⟩

theorem test_decode_ble :
    decodeWord 32 0x0000000050400000000030000000039b = .ok (.ble rT0 (.imm 0) (.label (some 5))) := by rfl

theorem test_decode_other :
    decodeWord 32 0 = .ok (.other .absent .absent .absent) ∧
    decodeWord 32 0x00000000049000000004100000000390 = .ok (.other rT0 rT1 rT2) := ⟨rfl, rfl⟩

/-- Opcode 12 with the descriptors of `add t2,t0,t1`, and 15 with none (R107). -/
theorem test_decode_otherReserved :
    decodeWord 32 0x0000000004100000000390000000049c = .ok (.otherReserved 0 rT2 rT0 rT1) ∧
    decodeWord 32 0xf = .ok (.otherReserved 3 .absent .absent .absent) := ⟨rfl, rfl⟩

theorem test_decode_refuses_reserved_words :
    decodeWord 32 0x60 = .error (.reservedKind 6) ∧ decodeWord 32 0x70 = .error (.reservedKind 7) ∧
    decodeWord 32 0x10000000000000000000000000000000 = .error .nonzeroTop := ⟨rfl, rfl, rfl⟩

theorem test_encode_worked_words :
    encode 32 (.lw rT1 (.regOff (-4) (.known .t0)) .absent) = 0x00000000000fffffffc3a00000000414 ∧
    encode 32 (.bge rT0 (.imm (-1)) (.label (some 7))) = 0x00000000704ffffffff030000000039a ∧
    encode 32 (.otherReserved 0 rT2 rT0 rT1) = 0x0000000004100000000390000000049c := by decide

/-! ### The classifier (95_test_vectors.md S8; 30_encoding.md R82 to R95) -/

theorem test_classifier :
    operandOf [] ['-', '4', '(', 't', '0', ')'] = .regOff (-4) (.known .t0) ['-', '4', '(', 't', '0', ')'] ∧
    operandOf [] ['t', '6'] = .reg (.tok ['t', '6']) ∧ operandOf [] ['p', 'c'] = rPc ∧
    operandOf [] ['0', 'x', '1', 'f'] = .imm 31 ['0', 'x', '1', 'f'] ∧ operandOf [] ['3', '2'] = .imm 32 ['3', '2'] ∧
    operandOf [] ['-', '4'] = .label none ['-', '4'] ∧
    operandOf [(['e', 'n', 'd'], 3)] ['e', 'n', 'd'] = .label (some 3) ['e', 'n', 'd'] ∧
    operandOf [] [] = .absent := by decide

/-- S6: a label declared twice maps to the later index, for references before and after. -/
theorem test_label_redeclared :
    (load Config.standard
      [⟨[], some ['a'], ['l', 'i'], some ['t', '0'], some ['a'], none⟩,
       ⟨[], some ['a'], ['l', 'i'], some ['t', '1'], some ['A'], none⟩]).toOption.map
      (fun s => (s.lbl, (s.fetch 0).map (fun x => (s.decode x).toOption))) =
    some ([(['a'], 1)], some (some (.li rT0 (.label (some 1) ['a']) .absent))) := by decide

/-- U4: a program with a record that is not well-formed is refused before cycle 1. -/
theorem test_loader_refuses :
    load Config.standard [⟨[], none, ['j', 'a', 'l'], some ['x', '1'], some ['n', 'o'], none⟩] =
      .error (.notWellFormed 0) := by rfl

/-- R101, R107, U6: `bge t0,t1,7` in a binary image is not well-formed, and the image is refused; so is an image
with a reserved word. -/
theorem test_image_loader_refuses :
    decodeWord 32 0x70400000000410000000039a = .ok (.bge rT0 rT1 (.label (some 7))) ∧
    loadWords Config.standard [(0x70400000000410000000039a, [])] = .error (.notWellFormed 0) ∧
    loadWords Config.standard [(0x50300000000393, []), (0x60, [])] = .error (.notWellFormed 1) ∧
    loadWords Config.standard [] = .error .noProgram := ⟨rfl, rfl, rfl, rfl⟩

/-- R29: `5` and `0x5` are two names, and a `dst` token `foo` is the base of `8(foo)`. -/
theorem test_names_are_strings :
    nameOf (operandOf [] ['5']) ≠ nameOf (operandOf [] ['0', 'x', '5']) ∧
    [nameOf (operandOf [] ['f', 'o', 'o'])] = regsOf (operandOf [] ['8', '(', 'f', 'o', 'o', ')']) := by decide

/-- R89: a label named `t1` is no value, but a branch finds it. -/
theorem test_branch_target_is_looked_up :
    let s := { State.reset with lbl := [(['t', '1'], 4)] }
    s.targetOf (operandOf s.lbl ['t', '1']) = some 4 ∧ s.val (operandOf s.lbl ['t', '1']) = some 0 ∧
    s.targetOf (operandOf s.lbl ['t', '2']) = none := by decide

/-- R81: a label in capitals beyond ASCII (É, Я, Ω) is the same label in small letters. -/
theorem test_lower_case_beyond_ascii :
    lowerToken ['É', 'Я', 'Ω', 'L', 'ß', '7'] = ['é', 'я', 'ω', 'l', 'ß', '7'] := by decide

/-- R263, R90, R106: `ib_word` for `li t0,0xffffffff` and for `sw t9,0(foo)` (95_test_vectors.md section 4). -/
theorem test_ib_word_of_a_record :
    (load Config.standard
      [⟨[], none, ['l', 'i'], some ['t', '0'], some ['0', 'x', 'f', 'f', 'f', 'f', 'f', 'f', 'f', 'f'], none⟩]).toOption.map
      (fun s => s.ports.ibWord) = some (some 0xffffffff0300000000393) ∧
    (load Config.standard
      [⟨[], none, ['s', 'w'], some ['t', '9'], some ['0', '(', 'f', 'o', 'o', ')'], none⟩]).toOption.map
      (fun s => s.ports.ibWord) = some (some 0x0000000000000000000a200000000998) := by decide

/-! ### One call of a meaning (95_test_vectors.md section 2.1, "Single-step values") -/

theorem test_add_wraps :
    resultOf (exec (.add rT2 rT0 rT1) (stage2 (held (some 0) (some 2147483647) (some 1)))) = some (-2147483648) := by
  decide

theorem test_addi_wraps_to_zero :
    resultOf (exec (.addi rT2 rT0 (.imm 1)) (stage2 (held (some 0) (some (-1)) (some 1)))) = some 0 := by decide

theorem test_sub_order_and_wrap :
    resultOf (exec (.sub rT2 rT0 rT1) (stage2 (held (some 0) (some 3) (some 5)))) = some (-2) ∧
    resultOf (exec (.sub rT2 rT0 rT1) (stage2 (held (some 0) (some (-2147483648)) (some 1)))) = some 2147483647 := by
  decide

theorem test_slli_amount_is_not_reduced :
    resultOf (exec (.slli rT2 rT0 rT1) (stage2 (held (some 0) (some (-3)) (some 2)))) = some (-12) ∧
    resultOf (exec (.slli rT2 rT0 rT1) (stage2 (held (some 0) (some 1) (some 31)))) = some (-2147483648) ∧
    resultOf (exec (.slli rT2 rT0 rT1) (stage2 (held (some 0) (some 1) (some 32)))) = some 0 := by decide

theorem test_slri_rounds_down :
    resultOf (exec (.slri rT2 rT0 rT1) (stage2 (held (some 0) (some (-7)) (some 1)))) = some (-4) ∧
    resultOf (exec (.slri rT2 rT0 rT1) (stage2 (held (some 0) (some (-2147483648)) (some 100)))) = some (-1) ∧
    resultOf (exec (.slri rT2 rT0 rT1) (stage2 (held (some 0) (some 9) (some 100)))) = some 0 := by decide

theorem test_li_copies :
    resultOf (exec (.li rT0 (.imm 5) .absent) (stage2 (held (some 0) (some 5) none))) = some 5 := by decide

/-- A2: the literal 0xffffffff reads as -1 at 32 bits and as itself at an infinite width. -/
theorem test_literal_wraps :
    State.reset.val (.imm 0xffffffff) = some (-1) ∧
    ({ State.reset with cfg := { Config.standard with xlen := none } } : State).val (.imm 0xffffffff) =
      some 4294967295 := by decide

/-- M9: the load reads its cell; M1: an unwritten cell reads 0. -/
theorem test_lw_reads_the_cell :
    resultOf (exec (.lw rT0 (.imm 32) .absent)
      { lastVisit (held (some 0) (some 32) none) with mem := [(32, 16)] }) = some 16 ∧
    resultOf (exec (.lw rT0 (.imm 100) .absent) (lastVisit (held (some 0) (some 100) none))) = some 0 := by decide

/-- M3: a negative address is a cell of its own. -/
theorem test_sw_writes_one_cell :
    cellAfter (-8) (exec (.sw (.imm 9) (.regOff 0 (.known .t1)) .absent)
      (lastVisit (held (some 9) (some (-8)) none))) = some 9 ∧
    cellAfter (-7) (exec (.sw (.imm 9) (.regOff 0 (.known .t1)) .absent)
      (lastVisit (held (some 9) (some (-8)) none))) = some 0 := by decide

/-- R201: `jal` writes its target into `dst` too, no return address. -/
theorem test_jal_links_the_target :
    regAfter .x1 (exec (.jal rX1 (.label (some 2)) .absent) (stage3 (held (some 0) (some 2) none) none)) = some 2 ∧
    regAfter .pc (exec (.jal rX1 (.label (some 2)) .absent) (stage3 (held (some 0) (some 2) none) none)) = some 2 := by
  decide

/-- S4 and S5: `bge t0,0,loop` is taken at `t0 = 0`; not taken at a bound one above. -/
theorem test_bge_is_signed_and_includes_equality :
    regAfter .pc (exec (.bge rT0 (.imm 0) (.label (some 0))) (prog [])) = some 0 ∧
    regAfter .pc (exec (.bge rT0 (.imm 1) (.label (some 0))) (prog [])) = some 1 ∧
    regAfter .pc (exec (.bge rT0 (.imm 0xffffffff) (.label (some 0))) (prog [])) = some 0 := by decide

theorem test_ble_is_signed_and_includes_equality :
    regAfter .pc (exec (.ble rT0 (.imm 0) (.label (some 0))) (prog [])) = some 0 ∧
    regAfter .pc (exec (.ble rT0 (.imm 0xffffffff) (.label (some 0))) (prog [])) = some 1 := by decide

/-- R205, R270: with the literal text a branch not taken writes `pc` when it retires; with the other
reading it does not. -/
theorem test_branch_not_taken_at_commit :
    regAfter .pc (exec (.ble rT0 (.imm (-1)) (.label (some 7))) (stage3 (held (some 5) (some (-1)) (some 7)) none)) =
      some 7 ∧
    regAfter .pc (exec (.ble rT0 (.imm (-1)) (.label (some 7)))
      { stage3 (held (some 5) (some (-1)) (some 7)) none with
        cfg := { Config.standard with brWbUncond := false } }) = some 0 := by decide

theorem test_other_only_advances :
    regAfter .pc (exec (.other rT0 rT1 rT2) (prog [])) = some 1 ∧
    ((nextState (exec (.other rT0 rT1 rT2) (prog []))).map (fun t => t.res)) = some [] := by decide

/-- S3: behind `li t0,1` the instruction `add t1,t0,t0` is held back, but not `li t1,1`. -/
theorem test_hazard :
    ({ State.reset with res := [nT0] } : State).blocked (.add rT1 rT0 rT0) = true ∧
    ({ State.reset with res := [nT0] } : State).blocked (.li rT1 (.imm 1) .absent) = false ∧
    ({ State.reset with res := [nT0] } : State).blocked (.sw rT0 (.imm 50) .absent) = true ∧
    ({ State.reset with res := [nT0] } : State).blocked (.jal rT0 (.imm 0) .absent) = true := by decide

/-! ### One cycle -/

/-- The first cycle after reset admits any opcode number; its operands are latched in the same cycle. -/
theorem test_every_opcode_enters :
    goesOn (step (State.reset.withFetchWord 8 0)) = true ∧ goesOn (step (State.reset.withFetchWord 8 1)) = true ∧
    goesOn (step (State.reset.withFetchWord 8 2)) = true ∧ goesOn (step (State.reset.withFetchWord 8 3)) = true ∧
    goesOn (step (State.reset.withFetchWord 8 4)) = true ∧ goesOn (step (State.reset.withFetchWord 8 5)) = true ∧
    goesOn (step (State.reset.withFetchWord 8 6)) = true ∧ goesOn (step (State.reset.withFetchWord 8 7)) = true ∧
    goesOn (step (State.reset.withFetchWord 8 8)) = true ∧ goesOn (step (State.reset.withFetchWord 8 9)) = true ∧
    goesOn (step (State.reset.withFetchWord 8 10)) = true ∧ goesOn (step (State.reset.withFetchWord 8 11)) = true ∧
    goesOn (step (State.reset.withFetchWord 8 12)) = true ∧ goesOn (step (State.reset.withFetchWord 8 15)) = true := by
  refine ⟨?_, ?_, ?_, ?_, ?_, ?_, ?_, ?_, ?_, ?_, ?_, ?_, ?_, ?_⟩ <;> rfl

/-- P1, cycle 1: `li t0,5` is admitted at `pc = 0`, its operands latched, `t0` reserved, `pc = 1`. -/
theorem test_first_cycle :
    (nextState (step (prog [0x50300000000393]))).map
      (fun t => (t.pcV, t.res, t.s1In, t.s1Out.map (fun d => (d.idx, d.dstV, d.op1V, d.op2V)), t.cycle)) =
    some (1, [nT0], none, some (0, some 0, some 5, none), 1) := by rfl

/-- R128, R266: the target that a branch not taken, `ble t0,-1,7`, writes at its commit is what `li t1,pc` in
stage 1 reads from `pc` on the same edge (entry 30). -/
theorem test_shadow_reads_the_target :
    let s := { State.reset with
      ib := [.word (encode 32 (.ble rT0 (.imm (-1)) (.label (some 7)))) [], .word (encode 32 (.li rT1 rPc .absent)) []]
      s3In := some (held (some 5) (some (-1)) (some 7))
      s1In := some { held none none none with idx := 1 } }
    (nextState (posedge s)).bind (fun t => t.s1Out.bind (fun d => d.op1V)) = some 7 := by rfl

/-- R270 (c): the first shadow instruction, `li t1,pc` in stage 1 while the branch is in stage 2, reads the
incremented `pc`. -/
theorem test_shadow_reads_the_incremented_pc :
    let s := ({ State.reset with
      ib := [.word (encode 32 (.ble rT0 (.imm (-1)) (.label (some 7)))) [], .word (encode 32 (.li rT1 rPc .absent)) []]
      s2In := some (held (some 5) (some (-1)) (some 7))
      s1In := some { held none none none with idx := 1 } } : State).setReg .pc 2
    (nextState (posedge s)).bind (fun t => t.s1Out.bind (fun d => d.op1V)) = some 2 := by rfl

/-- A word that is not well-formed is refused where it would be admitted. -/
theorem test_reserved_word_is_refused :
    step (prog [0x60]) = .refused (.undecodable (.reservedKind 6)) := by rfl

/-! ### Witnesses: for each statement with hypotheses, a state and operands that meet them -/

/-- The word of `li t0,5`, of `lw t0,0` and of `sw 5,0(t1)` (95_test_vectors.md section 4). -/
abbrev liWord : Nat := 0x50300000000393
abbrev lwWord : Nat := 0x300000000394
abbrev swWord : Nat := 0x4200000005038

/-- An admission; and a rising edge with an instruction in each of the three stages. -/
theorem witness_StepRunsTheDecodedInstruction :
    ((prog [liWord]).Running ∧ (prog [liWord]).s1In = none ∧
     (prog [liWord]).fetch (prog [liWord]).pcV = some (.word liWord []) ∧
     (prog [liWord]).decode (.word liWord []) = .ok (.li rT0 (.imm 5) .absent) ∧
     (prog [liWord]).blocked (.li rT0 (.imm 5) .absent) = false) ∧
    (let d := held (some 0) (some 5) none
     let u := { prog [liWord] with s1In := some d, s2In := some d, s3In := some { d with res := some 5 } }
     u.fetch d.idx = some (.word liWord []) ∧ u.decode (.word liWord []) = .ok (.li rT0 (.imm 5) .absent) ∧
     u.s3In ≠ none ∧ u.s2In = some d ∧ u.s1In = some d ∧ u.s1Out = none) ∧
    (let d := held (some 0) (some 5) none
     let u := { State.reset with s1Out := some d }
     u.s3In = none ∧ u.s2In = none ∧ u.s1Out ≠ none) := by
  refine ⟨⟨by decide, rfl, rfl, rfl, by decide⟩, ⟨rfl, rfl, by decide, rfl, rfl, rfl⟩, rfl, rfl, by decide⟩

/-- The three ways in which step N3 does nothing, and the one in which it moves. -/
theorem witness_StageThreeTakesACompletedInstruction :
    (∃ s : State, s.s3In = none ∧ s.lsuCnt = 0 ∧ s.s2Out ≠ none) ∧ (∃ s : State, s.s3In ≠ none) ∧
    (∃ s : State, s.lsuCnt ≠ 0) ∧ (∃ s : State, s.s2Out = none) :=
  ⟨⟨{ State.reset with s2Out := some (held none none none) }, by decide⟩,
   ⟨stage3 (held none none none) none, by decide⟩, ⟨{ State.reset with lsuCnt := 1 }, by decide⟩,
   ⟨State.reset, by decide⟩⟩

theorem witness_StageTwoTakesAnInstruction :
    (∃ s : State, s.s2In = none ∧ s.s1Out ≠ none) ∧ (∃ s : State, s.s2In ≠ none) ∧ (∃ s : State, s.s1Out = none) :=
  ⟨⟨{ State.reset with s1Out := some (held none none none) }, by decide⟩,
   ⟨stage2 (held none none none), by decide⟩, ⟨State.reset, by decide⟩⟩

/-- Each disjunct of the hazard check alone, and none of them. -/
theorem witness_BlockedExactlyByThreeHazards :
    ({ State.reset with res := [pcName] } : State).blocked (.other .absent .absent .absent) = true ∧
    ({ State.reset with res := [nT0] } : State).blocked (.li rT0 (.imm 1) .absent) = true ∧
    ({ State.reset with res := [nT0] } : State).blocked (.sw rT0 (.imm 1) .absent) = true ∧
    ({ State.reset with res := [nT0] } : State).blocked (.li rT1 (.regOff 4 (.known .t0)) .absent) = true ∧
    ({ State.reset with res := [nT0] } : State).blocked (.add rT1 rT2 rT0) = true ∧
    ({ State.reset with res := [nT0] } : State).blocked (.li rT1 (.imm 1) .absent) = false := by decide

theorem witness_NothingIsAdmittedWhileHeldBack :
    (∃ s : State, s.s1In ≠ none) ∧ (∃ s : State, s.fetch s.pcV = none) ∧ (∃ s : State, pcName ∈ s.res) ∧
    ∃ (s : State) (x : Slot) (i : Instr), s.fetch s.pcV = some x ∧ s.decode x = .ok i ∧ s.blocked i = true :=
  ⟨⟨{ State.reset with s1In := some (held none none none) }, by decide⟩, ⟨State.reset, rfl⟩,
   ⟨{ State.reset with res := [pcName] }, by decide⟩,
   ⟨{ prog [liWord] with res := [nT0] }, .word liWord [], .li rT0 (.imm 5) .absent, rfl, rfl, by decide⟩⟩

theorem witness_ReservedWordIsRefusedAtAdmission :
    (prog [0x60]).s1In = none ∧ (prog [0x60]).fetch (prog [0x60]).pcV = some (.word 0x60 []) ∧
    (prog [0x60]).decode (.word 0x60 []) = .error (.reservedKind 6) ∧ pcName ∉ (prog [0x60]).res := by
  refine ⟨rfl, rfl, rfl, by decide⟩

/-- The unknown names: register number 19, and the token `t6`. -/
theorem witness_unknown_names :
    (∀ r, RegName.num 0 ≠ .known r) ∧ (∀ r, RegName.tok ['t', '6'] ≠ .known r) := by
  constructor <;> intro r h <;> cases h

theorem witness_IncrementAddsAndWraps : ∃ n : RegName, ∀ r, n ≠ .known r := ⟨_, witness_unknown_names.1⟩

theorem witness_RegistersReadAndWriteByName : ∃ n : RegName, ∀ r, n ≠ .known r := ⟨_, witness_unknown_names.2⟩

/-- A literal, and an unknown register. -/
theorem witness_OperandsThatNameNoRegisterAreInert :
    (∀ r, Operand.imm 5 ≠ .reg (.known r)) ∧ ∀ r, rNum ≠ .reg (.known r) :=
  ⟨(fun _ h => by cases h), (fun _ h => by cases h)⟩

theorem witness_ReserveIsTheUnion :
    (∃ s : State, s.res.Nodup) ∧ ∃ (s : State) (l : List ResName), l ≠ [] ∧ ∀ n ∈ l, n ∈ s.res :=
  ⟨⟨State.reset, by decide⟩, ⟨{ State.reset with res := [nT0, pcName] }, [pcName], by decide⟩⟩

theorem witness_ReleaseIsTheDifference :
    ∃ (s : State) (l : List ResName), l ≠ [] ∧ ∀ n ∈ l, n ∉ s.res :=
  ⟨{ State.reset with res := [nT0] }, [pcName], by decide⟩

theorem witness_WriteBackInstructionsAreAdmitted :
    (Instr.add rT2 rT0 rT1).wb = true ∧ (Instr.addi rT2 rT0 rT1).wb = true ∧ (Instr.li rT2 rT0 rT1).wb = true ∧
    (Instr.lw rT2 rT0 rT1).wb = true ∧ (Instr.slli rT2 rT0 rT1).wb = true ∧ (Instr.slri rT2 rT0 rT1).wb = true ∧
    (Instr.sub rT2 rT0 rT1).wb = true ∧ State.reset.point = .atAdmission := by decide

/-- Also for the plain instructions and for `jal`: the state after reset stands at admission. -/
theorem witness_PlainInstructionsAreAdmitted :
    ∃ (k : Fin 4) (d a b : Operand) (i : Instr) (s : State),
      (i = .sw d a b ∨ i = .other d a b ∨ i = .otherReserved k d a b) ∧ s.point = .atAdmission :=
  ⟨3, rT0, rT1, rT2, .otherReserved 3 rT0 rT1 rT2, State.reset, .inr (.inr rfl), rfl⟩

theorem witness_JumpIsAdmittedWithPcReserved : State.reset.point = .atAdmission := rfl

/-- At reset `bge t0,0` is taken (equality) and `ble t0,0xffffffff` is not: `-1` is below 0. -/
theorem witness_BranchesAreDecidedAtAdmission :
    (∃ (d b : Operand) (v : Int) (i : Instr) (taken : Prop) (s : State),
      (i = .bge d (.imm v) b ∧ (taken ↔ wrap s.cfg.xlen v ≤ s.readNamed d)) ∧ s.point = .atAdmission ∧ taken) ∧
    (∃ (d b : Operand) (v : Int) (i : Instr) (taken : Prop) (s : State),
      (i = .ble d (.imm v) b ∧ (taken ↔ s.readNamed d ≤ wrap s.cfg.xlen v)) ∧ s.point = .atAdmission ∧ ¬taken) :=
  ⟨⟨rT0, .label (some 0), 0, _, True, State.reset, ⟨rfl, by decide⟩, rfl, trivial⟩,
   ⟨rT0, .label (some 0), 0xffffffff, _, False, State.reset, ⟨rfl, by decide⟩, rfl, id⟩⟩

theorem witness_BranchBoundWithoutALiteralIsFree :
    (∀ v text, rT1 ≠ Operand.imm v text) ∧ (∀ v text, Operand.absent ≠ .imm v text) ∧
    State.reset.point = .atAdmission :=
  ⟨(fun _ _ h => by cases h), (fun _ _ h => by cases h), rfl⟩

theorem witness_EveryInstructionReadsItsOperands :
    ∃ (s : State) (d : Decoded), s.point = .atOperands ∧ s.s1In = some d :=
  ⟨{ State.reset with point := .atOperands, s1In := some (held none none none) }, _, rfl, rfl⟩

/-- The greatest and the least value of 32 bits are in range, one further is not. -/
theorem witness_OperandValueByClass :
    (∀ r, RegName.num 0 ≠ .known r) ∧ InRange State.reset.cfg.xlen 2147483647 ∧
    InRange State.reset.cfg.xlen (-2147483648) ∧ ¬InRange State.reset.cfg.xlen 2147483648 :=
  ⟨witness_unknown_names.1, by decide, by decide, by decide⟩

theorem witness_SumsAndDifferencesComplete :
    let d := held (some 0) (some 2147483647) (some 1)
    (stage2 d).point = .atExecute ∧ (stage2 d).s2In = some d ∧ d.op1V = some 2147483647 ∧ d.op2V = some 1 := by
  decide

theorem witness_LoadImmediateCopies :
    let d := held (some 0) (some 5) none
    (stage2 d).point = .atExecute ∧ (stage2 d).s2In = some d ∧ d.op1V = some 5 := by decide

/-- The least amount, 0, and one that is more than the width. -/
theorem witness_ShiftsCompleteWithPowersOfTwo :
    let d := held (some 0) (some 5) (some ((0 : Nat) : Int))
    let e := held (some 0) (some 1) (some ((1000 : Nat) : Int))
    (stage2 d).point = .atExecute ∧ (stage2 d).s2In = some d ∧ d.op1V = some 5 ∧ d.op2V = some ((0 : Nat) : Int) ∧
    (stage2 e).s2In = some e ∧ e.op2V = some ((1000 : Nat) : Int) := by decide

/-- The least amounts of the two clauses at 32 bits, 32 and 31, and both signs. -/
theorem witness_LongShiftsLeaveZeroOrTheSign :
    let d := held (some 0) (some (-2147483648)) (some ((32 : Nat) : Int))
    let e := held (some 0) (some 2147483647) (some ((31 : Nat) : Int))
    State.reset.cfg.xlen = some 32 ∧ InRange State.reset.cfg.xlen (-2147483648) ∧
    InRange State.reset.cfg.xlen 2147483647 ∧ (stage2 d).cfg = State.reset.cfg ∧ (stage2 e).cfg = State.reset.cfg ∧
    (stage2 d).point = .atExecute ∧ (stage2 d).s2In = some d ∧ d.op1V = some (-2147483648) ∧
    d.op2V = some ((32 : Nat) : Int) ∧ (stage2 e).point = .atExecute ∧ (stage2 e).s2In = some e ∧
    e.op1V = some 2147483647 ∧ e.op2V = some ((31 : Nat) : Int) ∧ 32 ≤ 32 ∧ 32 - 1 ≤ 31 := by decide

theorem witness_NegativeShiftAmountGivesAFreeValue :
    let d := held (some 0) (some 5) (some (-1))
    (stage2 d).point = .atExecute ∧ (stage2 d).s2In = some d ∧ d.op1V = some 5 ∧ d.op2V = some (-1) ∧
    (-1 : Int) < 0 := by decide

/-- A first visit; and a later one at the least count that does not reach 0. -/
theorem witness_MemoryInstructionsCountDown :
    let d := held (some 5) (some 0) none
    let e := { d with stalled := true }
    let s := { stage2 e with lsuCnt := 2 }
    (stage2 d).point = .atExecute ∧ (stage2 d).s2In = some d ∧ d.stalled = false ∧
    s.point = .atExecute ∧ s.s2In = some e ∧ e.stalled = true ∧ 2 ≤ s.lsuCnt := by decide

theorem witness_LoadCompletesWithTheCell :
    let d := { held (some 0) (some (-8)) none with stalled := true }
    (lastVisit d).point = .atExecute ∧ (lastVisit d).s2In = some d ∧ d.stalled = true ∧ (lastVisit d).lsuCnt = 1 ∧
    d.op1V = some (-8) := by decide

/-- The same for a store, over a cell that is listed already; storing 0 takes it out of the list. -/
theorem witness_StoreCompletesInItsCell :
    let d := { held (some 0) (some (-8)) none with stalled := true }
    let s := { lastVisit d with mem := [(-8, 9)] }
    Memory.wf s.mem ∧ s.point = .atExecute ∧ s.s2In = some d ∧ d.stalled = true ∧ s.lsuCnt = 1 ∧
    d.op1V = some (-8) ∧ d.dstV = some 0 := by decide

theorem witness_InstructionsWithoutResultPassStageTwo :
    ∃ (k : Fin 4) (dst op1 op2 : Operand) (i : Instr) (s : State) (d : Decoded),
      (i = .jal dst op1 op2 ∨ i = .bge dst op1 op2 ∨ i = .ble dst op1 op2 ∨ i = .other dst op1 op2 ∨
        i = .otherReserved k dst op1 op2) ∧ s.point = .atExecute ∧ s.s2In = some d :=
  ⟨0, rX1, .label (some 2), .absent, _, stage2 (held (some 0) (some 2) none), _, .inl rfl, rfl, rfl⟩

/-- Each clause: a missing first source, second source, address, store data, jump target, branch target. -/
theorem witness_MissingValueStopsWhereItIsUsed :
    (let d := held none none none
     (stage2 d).point = .atExecute ∧ (stage2 d).s2In = some d ∧ d.op1V = none ∧ d.op2V = none) ∧
    (let d := { held none none none with stalled := true }
     (lastVisit d).point = .atExecute ∧ (lastVisit d).s2In = some d ∧ d.stalled = true ∧ (lastVisit d).lsuCnt = 1 ∧
     d.op1V = none ∧ d.dstV = none) ∧
    (let d := held none none none
     (stage3 d none).point = .atCommit ∧ (stage3 d none).s3In = some d ∧ d.op1V = none ∧
     (stage3 d none).cfg.brWbUncond = true ∧ (stage3 d none).targetOf (.label none) = none ∧
     (stage3 d none).targetOf (.imm 5) = none) ∧
    (let d := { held none none none with reserved := [nT0, pcName] }
     let s := { stage3 d none with cfg := { Config.standard with brWbUncond := false } }
     s.point = .atCommit ∧ s.s3In = some d ∧ pcName ∈ d.reserved ∧ s.targetOf (.label none) = none) := by
  decide

/-- A commit with a result, of an instruction that reserved its `dst`. -/
abbrev committing (r : Option Int) (names : List ResName) : Decoded :=
  { held (some 5) (some 7) none with res := r, reserved := names }

theorem witness_WriteBackInstructionsCommitTheirResult :
    let d := committing (some 7) [nT0]
    let s := { State.reset with point := .atCommit, s3In := some d, res := [nT0] }
    (Instr.add rT0 rT1 rT2).wb = true ∧ s.point = .atCommit ∧ s.s3In = some d ∧ d.res = some 7 := by decide

/-- Commits without a result, for the four statements about them; the branch with and without `pc`
reserved, with each value of `BR_WB_UNCOND`. -/
theorem witness_PlainInstructionsCommitNothing :
    ∃ (k : Fin 4) (dst op1 op2 : Operand) (i : Instr) (s : State) (d : Decoded),
      (i = .sw dst op1 op2 ∨ i = .other dst op1 op2 ∨ i = .otherReserved k dst op1 op2) ∧
      s.point = .atCommit ∧ s.s3In = some d :=
  ⟨0, rT0, rT1, .absent, _, stage3 (committing none []) none, _, .inl rfl, rfl, rfl⟩

theorem witness_JumpCommitsItsTargetAndNoLink :
    let d := committing none [nX1, pcName]
    (stage3 d none).point = .atCommit ∧ (stage3 d none).s3In = some d ∧ d.op1V = some 7 := by decide

theorem witness_BranchCommitsByTheParameter :
    let d := committing none [nT0, pcName]
    let e := committing none []
    let s := stage3 d none
    let u := { stage3 e none with cfg := { Config.standard with brWbUncond := false } }
    s.targetOf (.label (some 7)) = some 7 ∧ u.targetOf (.label (some 7)) = some 7 ∧
    s.point = .atCommit ∧ s.s3In = some d ∧ s.cfg.brWbUncond = true ∧ pcName ∈ d.reserved ∧
    u.point = .atCommit ∧ u.s3In = some e ∧ u.cfg.brWbUncond = false ∧ pcName ∉ e.reserved := by decide

theorem witness_BranchOverwritesTheRegisterOfOpOne :
    let d := committing none []
    ∃ (n : RegName) (i : Instr), i = .bge rT0 (.reg n) (.label (some 7)) ∧
      (stage3 d none).targetOf (.label (some 7)) = some 7 ∧
      (stage3 d none).point = .atCommit ∧ (stage3 d none).s3In = some d ∧ (stage3 d none).cfg.brWbUncond = true :=
  ⟨.known .t1, _, rfl, by decide⟩

theorem witness_ResetPinHoldsTheMachine :
    let s := { prog [liWord] with rst := true, retired := 3 }
    s.cfg.legal = true ∧ s.rst = true := by decide

/-- No program; a drained program; a capped one, in the first cycle past the cap. -/
theorem witness_EndedRunHoldsItsState :
    (State.reset.cfg.legal = true ∧ State.reset.rst = false ∧ State.reset.size = 0) ∧
    (let s := (prog [liWord]).setReg .pc 1
     s.cfg.legal = true ∧ s.rst = false ∧ s.size ≠ 0 ∧ s.emptyPipe = true) ∧
    (let s := { prog [liWord] with cycle := 10000 }
     s.cfg.legal = true ∧ s.rst = false ∧ s.emptyPipe = false ∧ s.cfg.cycleCap ≤ s.cycle) := by decide

theorem witness_IllegalParametersAreRefused :
    ({ Config.standard with lsuDelay := 0 } : Config).lsuDelay = 0 ∧
    ({ Config.standard with xlen := some 0 } : Config).xlen = some 0 := by decide

/-- A cycle in which something happens: an instruction is admitted (also for the statements that carry an
invariant from a state to the next one). -/
theorem witness_ProgramAndParametersAreReadOnly : ∃ s t : State, step s = .next t ∧ s ≠ t :=
  ⟨prog [liWord], _, rfl, fun h => absurd (congrArg State.cycle h) (by decide)⟩

/-- The last visit of `sw 5,0(t1)` in stage 2: the cell 0 changes. -/
theorem witness_OnlyAStoreChangesMemory :
    let d := { held (some 5) (some 0) none with stalled := true }
    let s := { (prog [swWord]).setReg .pc 1 with s2In := some d, s2Out := some d, lsuCnt := 1 }
    Memory.wf s.mem ∧ s.rst = false ∧ ∃ t, step s = .next t ∧ t.memRead 0 ≠ s.memRead 0 :=
  ⟨by decide, rfl, _, rfl, by decide⟩

/-- A cycle that retires nothing, and one that retires an instruction. -/
theorem witness_EachCycleRetiresAtMostOne :
    ((prog [liWord]).Running ∧ (stepN3 (prog [liWord])).s3In = none ∧ ∃ t, step (prog [liWord]) = .next t) ∧
    (let s := { prog [liWord] with s2Out := some (committing (some 5) []) }
     s.Running ∧ (stepN3 s).s3In ≠ none ∧ ∃ t, step s = .next t) :=
  ⟨⟨by decide, rfl, _, rfl⟩, by decide, by decide, _, rfl⟩

theorem witness_RetiredNeverPassesTheCycleNumber :
    (prog [liWord]).retired ≤ (prog [liWord]).cycle ∧ ∃ t, step (prog [liWord]) = .next t := ⟨by decide, _, rfl⟩

theorem witness_MemoryFormIsKept :
    let s := { prog [liWord] with mem := [(-8, 9), (0, 5)] }
    Memory.wf s.mem ∧ ∃ t, step s = .next t := ⟨by decide, _, rfl⟩

/-- A program loaded at reset meets the invariants of the latches, the reservations and the data. -/
theorem witness_invariants (ws : List Nat) :
    PipeInv (prog ws) ∧ ReservationInv (prog ws) ∧ DataInv (prog ws) := by
  refine ⟨⟨rfl, rfl, ?_, ?_, ?_, ?_, ?_, ?_⟩, ⟨?_, ?_, ?_⟩, ⟨?_, ?_, ?_, ?_⟩⟩ <;>
    simp [prog, State.reset, State.inFlight]

theorem witness_StoredValuesStayInRange : RangeInv (prog [liWord]) ∧ ∃ t, step (prog [liWord]) = .next t := by
  refine ⟨⟨fun q => by cases q <;> decide, by decide, by decide⟩, _, rfl⟩

theorem witness_PipelineInvariantIsKept : PipeInv (prog [liWord]) ∧ ∃ t, step (prog [liWord]) = .next t :=
  ⟨(witness_invariants _).1, _, rfl⟩

theorem witness_ReservationInvariantIsKept :
    (prog [liWord]).ProgramWf ∧ PipeInv (prog [liWord]) ∧ ReservationInv (prog [liWord]) ∧
    ∃ t, step (prog [liWord]) = .next t :=
  ⟨by decide, (witness_invariants _).1, (witness_invariants _).2.1, _, rfl⟩

/-- Nothing in flight, and `pc` at the first index past the program. -/
theorem witness_EmptyPipeMeansNothingInFlight :
    PipeInv (prog []) ∧ ReservationInv (prog []) ∧ (prog []).emptyPipe = true :=
  ⟨(witness_invariants _).1, (witness_invariants _).2.1, by decide⟩

theorem witness_WellFormedProgramsNeverStop :
    (prog [liWord]).cfg.legal = true ∧ (prog [liWord]).ProgramWf ∧ PipeInv (prog [liWord]) ∧ DataInv (prog [liWord]) :=
  ⟨by decide, by decide, (witness_invariants _).1, (witness_invariants _).2.2⟩

theorem witness_LoadedProgramsRunOn :
    (∃ s, load Config.standard [⟨[], none, ['l', 'i'], some ['t', '0'], some ['5'], none⟩] = .ok s) ∧
    ∃ s, loadWords Config.standard [(liWord, [])] = .ok s := ⟨⟨_, rfl⟩, _, rfl⟩

/-- `li t0,5` in three cycles, and `lw t0,0` in four. -/
theorem witness_OneInstructionRunsAsTheSequentialReading :
    (let s := { prog [liWord] with cfg := { Config.standard with brWbUncond := false } }
     let i := Instr.li rT0 (.imm 5) .absent
     s.Running ∧ s.Quiet ∧ s.cfg.brWbUncond = false ∧ s.fetch s.pcV = some (.word liWord []) ∧
     s.decode (.word liWord []) = .ok i ∧ i.wf = true ∧ s.fetch (wrap s.cfg.xlen (s.pcV + 1)) = none ∧
     3 = 3 + (if i.st || i.ld then s.cfg.lsuDelay else 0) ∧ s.cycle + 3 ≤ s.cfg.cycleCap) ∧
    (let s := { prog [lwWord] with cfg := { Config.standard with brWbUncond := false } }
     let i := Instr.lw rT0 (.imm 0) .absent
     s.Running ∧ s.Quiet ∧ s.cfg.brWbUncond = false ∧ s.fetch s.pcV = some (.word lwWord []) ∧
     s.decode (.word lwWord []) = .ok i ∧ i.wf = true ∧ s.fetch (wrap s.cfg.xlen (s.pcV + 1)) = none ∧
     4 = 3 + (if i.st || i.ld then s.cfg.lsuDelay else 0) ∧ s.cycle + 4 ≤ s.cfg.cycleCap) := by
  refine ⟨⟨by decide, by decide, rfl, rfl, rfl, rfl, rfl, by decide, by decide⟩,
    ⟨by decide, by decide, rfl, rfl, rfl, rfl, rfl, by decide, by decide⟩⟩

/-- The least width, and every operand class at 32 bits with its values at the ends of the range. -/
theorem witness_DecodeOfEncodeIsTheInstruction :
    1 ≤ 1 ∧ (Instr.li rT0 (.imm (-1)) (.label (some 0))).encodable 1 = true ∧
    (Instr.sw (.imm 2147483647) (.regOff (-2147483648) (.num 12)) (.label none)).encodable 32 = true ∧
    (Instr.otherReserved 3 .absent rPc (.label (some (-2147483648)))).encodable 32 = true := by decide

/-- A program whose two names are unknown; the loader accepts it too. -/
theorem witness_AssembledWordsDecodeToTheirRecords :
    let rs : List RawRecord := [⟨[], none, ['s', 'w'], some ['t', '9'], some ['0', '(', 'f', 'o', 'o', ')'], none⟩]
    (∃ ws, assemble 32 (Program.ofRecords rs) = .ok ws ∧ ws = [0x0000000000000000000a200000000998]) ∧
    ∃ s, load Config.standard rs = .ok s ∧ Config.standard.xlen = some 32 :=
  ⟨⟨_, rfl, by decide⟩, _, rfl, rfl⟩

/-- A token of each class. -/
theorem witness_OperandClassesAreDisjoint :
    isRegister ['t', '0'] = true ∧ isRegisterOffset ['-', '4', '(', 't', '0', ')'] = true ∧
    isHexImmediate ['0', 'x', 'f'] = true ∧ isDecimalImmediate ['5'] = true := by decide

/-- A program with a label that is bound, on the last of the two records that carry it. -/
theorem witness_BuiltProgramsHaveSoundLabels :
    let nop : RawRecord := ⟨[], some ['a'], ['n', 'o', 'p'], none, none, none⟩
    (Program.ofRecords [nop, nop]).lbl = [(['a'], 1)] ∧
    (Program.ofRecords [nop, nop]).ib[0]?.map Record.label = some ['a'] := by decide

theorem witness_LoaderAcceptsOnlyWellFormedPrograms :
    (∃ s, load Config.standard [⟨[], some ['a'], ['j', 'a', 'l'], some ['x', '1'], some ['a'], none⟩] = .ok s) ∧
    ∃ s, loadWords Config.standard [(liWord, [])] = .ok s := ⟨⟨_, rfl⟩, _, rfl⟩

theorem witness_PlacedWordIsFetchedNext :
    decodeTableWord 96 0x50300000000393 = some (.li rT0 (.imm 5) .absent) := by rfl

/-- A word the decoder takes, and one just past its last bit that it refuses. -/
theorem witness_DecoderRefusesExactlyTheReservedWords :
    (∃ i, decodeWord 32 0xf = .ok i) ∧ (0xf : Nat) < 2 ^ (28 + 3 * 32) ∧
    decodeWord 32 (2 ^ (28 + 3 * 32)) = .error .nonzeroTop := ⟨⟨_, rfl⟩, by decide, rfl⟩

end Sys2Proof.Machine.Tests
end

/-! Parameters out of range are refused (R5, U9), and no step takes a stored value out of the range of
`wrap` (R9). -/

namespace Sys2Proof.Machine

set_option autoImplicit false

section LegalParameters

/-- The parameters a machine may have (R5, U9, entry 14). -/
theorem config_legal_iff (c : Config) : c.legal = true ↔ 1 ≤ c.lsuDelay ∧ c.xlen ≠ some 0 := by
  simp [Config.legal]

theorem step_of_not_legal {s : State} (h : ¬ s.cfg.legal = true) : step s = .refused .illegalParameter :=
  if_neg h

/-- Settles O39: neither half of `Config.legal` survives the parameter that is out of range. -/
theorem illegalParametersAreRefused : Obligations.IllegalParametersAreRefused := by
  intro s hbad
  apply step_of_not_legal
  rw [config_legal_iff]
  rintro ⟨hdelay, hwidth⟩
  rcases hbad with hzero | hzero
  · omega
  · exact hwidth hzero

end LegalParameters

section Values

/-! ### Values in range -/

/-- A right shift moves a value towards 0, or to -1, and so keeps it in range (R9, R176). -/
theorem shiftRight_inRange {x : Option Nat} {v : Int} (h : InRange x v) (k : Nat) : InRange x (shiftRight v k) := by
  have hk : (0 : Int) < ((2 ^ k : Nat) : Int) := pow_pos_int k
  cases x with
  | none => rfl
  | some n =>
    rw [shiftRight_eq]
    cases n with
    | zero =>
      have hv : v = 0 := by simpa [InRange, wrap, eq_comm] using h
      rw [hv, Int.zero_ediv]
      exact inRange_zero _
    | succ n =>
      rw [inRange_iff (by omega)] at h ⊢
      obtain ⟨hlo, hhi⟩ := h
      have hm := pow_pos_int (n + 1 - 1)
      generalize ((2 ^ (n + 1 - 1) : Nat) : Int) = m at hlo hhi hm ⊢
      constructor
      · rw [Int.le_ediv_iff_mul_le hk]
        nlinarith
      · rw [Int.ediv_lt_iff_lt_mul hk]
        nlinarith

/-- A result of `slli`, where one is stated, is in range (R175). -/
theorem shiftLeftBy_inRange {x : Option Nat} {v k r : Int} (h : shiftLeftBy x v k = some r) : InRange x r := by
  simp only [shiftLeftBy, Option.ite_none_right_eq_some, Option.some.injEq] at h
  exact h.2 ▸ shiftLeft_inRange x v k.toNat

/-- A result of `slri`, where one is stated, is in range if the value shifted is (R176). -/
theorem shiftRightBy_inRange {x : Option Nat} {v k r : Int} (hv : InRange x v) (h : shiftRightBy v k = some r) :
    InRange x r := by
  simp only [shiftRightBy, Option.ite_none_right_eq_some, Option.some.injEq] at h
  exact h.2 ▸ shiftRight_inRange hv k.toNat

/-- The free value is in range by its definition (entry 5). -/
theorem free_inRange (s : State) : InRange s.cfg.xlen s.free := inRange_wrap _ _

/-! ### The values of a decoded instruction -/

/-- The values of a decoded instruction, field by field (R35). -/
theorem allInRange_iff {x : Option Nat} {d : Decoded} : d.AllInRange x ↔
    (∀ v ∈ d.dstV, InRange x v) ∧ (∀ v ∈ d.op1V, InRange x v) ∧ (∀ v ∈ d.op2V, InRange x v) ∧
      (∀ v ∈ d.memV, InRange x v) ∧ ∀ v ∈ d.res, InRange x v := by
  simp only [Decoded.AllInRange, List.forall_mem_cons, List.not_mem_nil, false_imp_iff, implies_true, and_true]

/-- A new decoded instruction holds no value (R36). -/
theorem fresh_allInRange (x : Option Nat) (idx : Int) (rl : List ResName) : (Decoded.fresh idx rl).AllInRange x := by
  simp [allInRange_iff, Decoded.fresh]

theorem allInRange_withRes {x : Option Nat} {d : Decoded} {r : Int} (hd : d.AllInRange x) (hr : InRange x r) :
    ({ d with res := some r } : Decoded).AllInRange x := by
  obtain ⟨h1, h2, h3, h4, -⟩ := allInRange_iff.1 hd
  exact allInRange_iff.2 ⟨h1, h2, h3, h4, by rintro _ ⟨⟩; exact hr⟩

theorem allInRange_withLoaded {x : Option Nat} {d : Decoded} {r : Int} (hd : d.AllInRange x) (hr : InRange x r) :
    ({ d with memV := some r, res := some r } : Decoded).AllInRange x := by
  obtain ⟨h1, h2, h3, -, -⟩ := allInRange_iff.1 hd
  exact allInRange_iff.2 ⟨h1, h2, h3, by rintro _ ⟨⟩; exact hr, by rintro _ ⟨⟩; exact hr⟩

/-! ### What keeps the invariant of R9 -/

/-- Where a latched instruction stands (R34). -/
theorem mem_latched {s : State} {d : Decoded} : d ∈ s.latched ↔
    s.s1In = some d ∨ s.s1Out = some d ∨ s.s2In = some d ∨ s.s2Out = some d ∨ s.s3In = some d ∨ s.s3Out = some d := by
  simp only [State.latched, List.mem_append, Option.mem_toList, or_assoc]

/-- The invariant depends on registers, memory and latches only, and a latch may take an instruction whose
values are in range. -/
theorem RangeInv.of_frame {s t : State} (h : RangeInv s) (hcfg : t.cfg = s.cfg) (hregs : t.regs = s.regs)
    (hmem : t.mem = s.mem) (hlatched : ∀ d ∈ t.latched, d ∈ s.latched ∨ d.AllInRange s.cfg.xlen) : RangeInv t where
  registers q := by rw [hcfg, reg_congr hregs q]; exact h.registers q
  cells := by rw [hcfg, hmem]; exact h.cells
  latches d hd := by rw [hcfg]; exact (hlatched d hd).elim (h.latches d) id

theorem RangeInv.write {s : State} (h : RangeInv s) (n : RegName) (v : Int) : RangeInv (s.write n v) where
  registers q := by
    rw [write_cfg, reg_write]
    split
    · exact inRange_wrap _ v
    · exact h.registers q
  cells := by simpa only [write_cfg, write_mem] using h.cells
  latches := by
    simpa only [State.latched, write_cfg, write_s1In, write_s1Out, write_s2In, write_s2Out, write_s3In,
      write_s3Out] using h.latches

theorem RangeInv.writeNamed {s : State} (h : RangeInv s) (o : Operand) (v : Int) : RangeInv (s.writeNamed o v) := by
  cases o with
  | reg n => exact h.write n v
  | _ => exact h

/-- A write keeps the invariant if the address and the value are in range (R63). -/
theorem RangeInv.memWrite {s : State} (h : RangeInv s) {a v : Int} (ha : InRange s.cfg.xlen a)
    (hv : InRange s.cfg.xlen v) : RangeInv (s.memWrite a v) where
  registers := h.registers
  cells p hp := by
    rcases mem_writeCell hp with hp | rfl
    · exact h.cells p hp
    · exact ⟨ha, hv⟩
  latches := h.latches

theorem RangeInv.place {s : State} (h : RangeInv s) (a : Int) (rl : List ResName) : RangeInv (s.place a rl) :=
  h.of_frame rfl rfl rfl fun d hd => by
    simp only [mem_latched, place_s1In, place_s1Out, place_s2In, place_s2Out, place_s3In, place_s3Out,
      Option.some.injEq] at hd ⊢
    rcases hd with rfl | hd
    · exact .inr (fresh_allInRange _ a rl)
    · exact .inl (.inr hd)

theorem RangeInv.pastBranch {s : State} (h : RangeInv s) (taken : Bool) : RangeInv (s.pastBranch taken) := by
  cases taken with
  | true => exact h.of_frame rfl rfl rfl fun _ hd => .inl hd
  | false =>
    have hpc : RangeInv (s.increment (.known .pc) 1) := h.write _ _
    exact hpc.of_frame rfl rfl rfl fun _ hd => .inl hd

theorem RangeInv.afterBound {s : State} (h : RangeInv s) (op1 : Operand) : RangeInv (s.afterBound op1) := by
  unfold State.afterBound
  split
  · exact h
  · exact h.of_frame rfl rfl rfl fun _ hd => .inl hd

theorem RangeInv.finish {s : State} (h : RangeInv s) {d : Decoded} (hd : d.AllInRange s.cfg.xlen) :
    RangeInv (s.finish d) :=
  h.of_frame rfl rfl rfl fun e he => by
    simp only [mem_latched, finish_s1In, finish_s1Out, finish_s2In, finish_s2Out, finish_s3In, finish_s3Out] at he ⊢
    grind

theorem RangeInv.peek {s : State} (h : RangeInv s) {d : Decoded} (hd : d.AllInRange s.cfg.xlen) :
    RangeInv (s.peek d) :=
  h.of_frame rfl rfl rfl fun e he => by
    simp only [mem_latched, peek_s1In, peek_s1Out, peek_s2In, peek_s2Out, peek_s3In, peek_s3Out] at he ⊢
    grind

/-- Completion with a result that, where it is stated, is in range (R131). -/
theorem RangeInv.finishWith {s : State} (h : RangeInv s) {d : Decoded} (hd : d.AllInRange s.cfg.xlen)
    {r : Option Int} (hr : ∀ v ∈ r, InRange s.cfg.xlen v) : RangeInv (s.finishWith d r) := by
  cases r with
  | some v => exact h.finish (allInRange_withRes hd (hr v rfl))
  | none =>
    have huse : RangeInv s.useFree := h.of_frame rfl rfl rfl fun _ he => .inl he
    exact huse.finish (allInRange_withRes hd (free_inRange s))

theorem RangeInv.retire {s : State} (h : RangeInv s) (d : Decoded) : RangeInv (s.retire d) :=
  h.of_frame rfl rfl rfl fun e he => by
    simp only [mem_latched, retire_s1In, retire_s1Out, retire_s2In, retire_s2Out, retire_s3In, retire_s3Out] at he ⊢
    grind

theorem RangeInv.toReset (s : State) : RangeInv s.toReset where
  registers q := by rw [toReset_reg]; exact inRange_zero _
  cells _ hp := nomatch hp
  latches _ hd := nomatch hd

/-! ### Values read are in range -/

theorem RangeInv.read {s : State} (h : RangeInv s) (n : RegName) : InRange s.cfg.xlen (s.read n) := by
  cases n with
  | known r => exact h.registers r
  | num _ => exact inRange_zero _
  | tok _ => exact inRange_zero _

/-- The value of an operand is a register's, or goes through `wrap` (R136). -/
theorem RangeInv.val {s : State} (h : RangeInv s) (o : Operand) : ∀ v ∈ s.val o, InRange s.cfg.xlen v := by
  intro v hv
  cases o with
  | absent => cases hv
  | reg n => cases hv; exact h.read n
  | regOff off b text => cases hv; exact inRange_wrap _ _
  | imm w text => cases hv; exact inRange_wrap _ _
  | label target text =>
    cases target with
    | none => cases hv
    | some t => cases hv; exact inRange_wrap _ _

theorem RangeInv.memRead {s : State} (h : RangeInv s) (a : Int) : InRange s.cfg.xlen (s.memRead a) := by
  rcases readCell_mem_or s.mem a with hunwritten | hlisted
  · unfold State.memRead
    rw [hunwritten]
    exact inRange_zero _
  · exact (h.cells _ hlisted).2

/-! ### Meanings that keep the invariant -/

/-- A meaning or a step keeps the invariant of R9. -/
def KeepsRange (f : State → Out) : Prop := ∀ s t, RangeInv s → f s = .next t → RangeInv t

/-- The work of a stage on a decoded instruction keeps the invariant of R9, if the values of that instruction
are in range. -/
def StageKeepsRange (f : Decoded → State → Out) : Prop :=
  ∀ d s t, RangeInv s → d.AllInRange s.cfg.xlen → f d s = .next t → RangeInv t

/-! #### Admission (R126) -/

theorem akWb_keepsRange (dst : Operand) : KeepsRange (akWb dst) := by
  rintro s _ h ⟨⟩
  exact RangeInv.place (h.write _ _) _ _

theorem akPlain_keepsRange : KeepsRange akPlain := by
  rintro s _ h ⟨⟩
  exact RangeInv.place (h.write _ _) _ _

theorem akJump_keepsRange (dst : Operand) : KeepsRange (akJump dst) := by
  rintro s _ h ⟨⟩
  exact h.place _ _

theorem akCompare_keepsRange (holds : Int → Int → Bool) (dst op1 : Operand) : KeepsRange (akCompare holds dst op1) := by
  rintro s _ h ⟨⟩
  exact ((h.afterBound op1).pastBranch _).place _ _

/-! #### Stage 2 (R130, R131, R190) -/

theorem finishPlain_keepsRange : StageKeepsRange finishPlain := by
  rintro d s _ h hd ⟨⟩
  exact h.finish hd

theorem aluOne_keepsRange {f : Int → Option Int} (hf : ∀ x v, InRange x v → ∀ r ∈ f v, InRange x r) :
    StageKeepsRange (aluOne f) := by
  intro d s t h hd ht
  obtain ⟨v, hv, rfl⟩ := aluOne_next ht
  obtain ⟨-, hop1, -⟩ := allInRange_iff.1 hd
  exact h.finishWith hd (hf _ v (hop1 v hv))

theorem aluTwo_keepsRange {f : Option Nat → Int → Int → Option Int}
    (hf : ∀ x v w, InRange x v → ∀ r ∈ f x v w, InRange x r) : StageKeepsRange (aluTwo f) := by
  intro d s t h hd ht
  obtain ⟨v, w, hv, -, rfl⟩ := aluTwo_next ht
  obtain ⟨-, hop1, -⟩ := allInRange_iff.1 hd
  exact h.finishWith hd (hf _ v w (hop1 v hv))

/-- The formulas of R172 to R174 end in `wrap`. -/
theorem aluTwo_wrap_keepsRange (f : Int → Int → Int) : StageKeepsRange (aluTwo fun n x y => some (wrap n (f x y))) :=
  aluTwo_keepsRange fun x v w _ r hr => by cases hr; exact inRange_wrap x _

theorem loadAccess_keepsRange : StageKeepsRange loadAccess := by
  intro d s t h hd ht
  obtain ⟨a, -, rfl⟩ := loadAccess_next ht
  exact h.finish (allInRange_withLoaded hd (h.memRead a))

theorem storeAccess_keepsRange : StageKeepsRange storeAccess := by
  intro d s t h hd ht
  obtain ⟨a, v, ha, hv, rfl⟩ := storeAccess_next ht
  obtain ⟨hdst, hop1, -⟩ := allInRange_iff.1 hd
  exact (h.memWrite (hop1 a ha) (hdst v hv)).finish hd

/-- The countdown holds no value, so a visit keeps what the access keeps (R190). -/
theorem lsuVisit_keepsRange {access : Decoded → State → Out} (haccess : StageKeepsRange access) :
    StageKeepsRange (lsuVisit access) := by
  intro d s t h hd ht
  have counting : ∀ k, RangeInv { s with lsuCnt := k } := fun k => h.of_frame rfl rfl rfl fun _ hd => .inl hd
  rcases lsuVisit_next ht with ⟨-, rfl⟩ | ⟨-, -, rfl⟩ | ⟨-, -, ht⟩
  · exact (counting _).peek hd
  · exact (counting _).peek hd
  · exact haccess { d with stalled := false } _ t (counting 0) hd ht

/-! #### Commit (R129, R201, R202) -/

theorem ckNone_keepsRange : StageKeepsRange ckNone := by
  rintro d s _ h - ⟨⟩
  exact h.retire d

theorem ckWb_keepsRange (dst : Operand) : StageKeepsRange (ckWb dst) := by
  intro d s t h _ ht
  obtain ⟨v, -, rfl⟩ := ckWb_next ht
  exact (h.writeNamed dst v).retire d

theorem ckJal_keepsRange (dst : Operand) : StageKeepsRange (ckJal dst) := by
  intro d s t h _ ht
  obtain ⟨v, -, rfl⟩ := ckJal_next ht
  exact ((h.writeNamed dst v).write _ v).retire d

theorem ckBranch_keepsRange (op1 op2 : Operand) : StageKeepsRange (ckBranch op1 op2) := by
  intro d s t h _ ht
  rcases ckBranch_next ht with ⟨-, v, -, rfl⟩ | ⟨-, -, rfl⟩
  · exact ((h.writeNamed op1 v).write _ v).retire d
  · exact h.retire d

/-! #### The instructions (R127) -/

/-- The operand fetch latches operand values (R132, R136). -/
theorem latchOperands_keepsRange (dst op1 op2 : Operand) : KeepsRange (latchOperands dst op1 op2) := by
  intro s t h ht
  obtain ⟨d, hd, rfl⟩ := latchOperands_next ht
  have hlatched := h.latches d (mem_latched.2 (.inl hd))
  obtain ⟨-, -, -, hmemV, hres⟩ := allInRange_iff.1 hlatched
  refine h.of_frame rfl rfl rfl fun e he => ?_
  rcases mem_latched.1 he with he | he | he
  · cases he
  · cases he
    exact .inr (allInRange_iff.2 ⟨h.val dst, h.val op1, h.val op2, hmemV, hres⟩)
  · exact .inl (mem_latched.2 (.inr (.inr he)))

/-- An instruction keeps the invariant if its admission, its stage 2 work and its commit do (R127). -/
theorem alongThePipe_keepsRange {dst op1 op2 : Operand} {admission : State → Out}
    {execute commit : Decoded → State → Out} (hadmission : KeepsRange admission)
    (hexecute : StageKeepsRange execute) (hcommit : StageKeepsRange commit) :
    KeepsRange (alongThePipe dst op1 op2 admission execute commit) := by
  intro s t h ht
  rcases alongThePipe_next ht with ⟨-, ht⟩ | ⟨-, d, hd, rfl⟩ | ⟨-, d, hd, ht⟩ | ⟨-, d, hd, ht⟩
  · exact hadmission s t h ht
  · exact latchOperands_keepsRange dst op1 op2 s _ h (by simp only [latchOperands, hd])
  · exact hexecute d s t h (h.latches d (mem_latched.2 (by simp [hd]))) ht
  · exact hcommit d s t h (h.latches d (mem_latched.2 (by simp [hd]))) ht

/-- Every instruction keeps every stored value in range, at every place of the pipe (R9). -/
theorem exec_keepsRange (i : Instr) : KeepsRange (exec i) := by
  cases i with
  | add d a b | addi d a b =>
    exact alongThePipe_keepsRange (akWb_keepsRange d) (aluTwo_wrap_keepsRange (· + ·)) (ckWb_keepsRange d)
  | sub d a b =>
    exact alongThePipe_keepsRange (akWb_keepsRange d) (aluTwo_wrap_keepsRange (· - ·)) (ckWb_keepsRange d)
  | li d a b =>
    have hcopy : ∀ x v, InRange x v → ∀ r ∈ some v, InRange x r := by
      rintro x v hv _ ⟨⟩
      exact hv
    exact alongThePipe_keepsRange (akWb_keepsRange d) (aluOne_keepsRange hcopy) (ckWb_keepsRange d)
  | slli d a b =>
    exact alongThePipe_keepsRange (akWb_keepsRange d)
      (aluTwo_keepsRange fun _ _ _ _ _ hr => shiftLeftBy_inRange hr) (ckWb_keepsRange d)
  | slri d a b =>
    exact alongThePipe_keepsRange (akWb_keepsRange d)
      (aluTwo_keepsRange fun _ _ _ hv _ hr => shiftRightBy_inRange hv hr) (ckWb_keepsRange d)
  | lw d a b =>
    exact alongThePipe_keepsRange (akWb_keepsRange d) (lsuVisit_keepsRange loadAccess_keepsRange) (ckWb_keepsRange d)
  | sw d a b =>
    exact alongThePipe_keepsRange akPlain_keepsRange (lsuVisit_keepsRange storeAccess_keepsRange) ckNone_keepsRange
  | jal d a b => exact alongThePipe_keepsRange (akJump_keepsRange d) finishPlain_keepsRange (ckJal_keepsRange d)
  | bge d a b | ble d a b =>
    exact alongThePipe_keepsRange (akCompare_keepsRange _ d a) finishPlain_keepsRange (ckBranch_keepsRange a b)
  | other d a b | otherReserved k d a b =>
    exact alongThePipe_keepsRange akPlain_keepsRange finishPlain_keepsRange ckNone_keepsRange

/-! ### The cycle -/

theorem RangeInv.emit {s : State} (h : RangeInv s) (e : Event) : RangeInv (s.emit e) :=
  h.of_frame rfl rfl rfl fun _ hd => .inl hd

theorem RangeInv.nextCycle {s : State} (h : RangeInv s) : RangeInv s.nextCycle :=
  h.of_frame rfl rfl rfl fun _ hd => .inl hd

/-- Step N3 moves what a latch holds to another latch (R122). -/
theorem RangeInv.stepN3 {s : State} (h : RangeInv s) : RangeInv (stepN3 s) := by
  rcases stepN3_cases s with ⟨d, -, -, hd, hs⟩ | ⟨-, hs⟩
  · rw [hs]
    refine h.of_frame rfl rfl rfl fun e he => .inl ?_
    simp only [mem_latched] at he ⊢
    grind
  · rwa [hs]

/-- Step N2 moves what a latch holds to another latch (R123). -/
theorem RangeInv.stepN2 {s : State} (h : RangeInv s) : RangeInv (stepN2 s) := by
  rcases stepN2_cases s with ⟨d, -, hd, hs⟩ | ⟨-, hs⟩
  · rw [hs]
    refine h.of_frame rfl rfl rfl fun e he => .inl ?_
    simp only [mem_latched] at he ⊢
    grind
  · rwa [hs]

theorem callAt_keepsRange (p : Point) (i : Instr) : KeepsRange (callAt p i) := by
  intro s t h ht
  obtain ⟨u, hu, rfl⟩ := callAt_next ht
  have hpoint : RangeInv { s with point := p } := h.of_frame rfl rfl rfl fun _ hd => .inl hd
  exact (exec_keepsRange i _ u hpoint hu).of_frame rfl rfl rfl fun _ hd => .inl hd

theorem stepN1_keepsRange : KeepsRange stepN1 := by
  intro s t h ht
  rcases stepN1_next ht with rfl | ⟨-, -, i, -, -, -, ht⟩
  · exact h
  · exact callAt_keepsRange _ i s t h ht

/-- A rising-edge step calls the meaning of what its latch holds, or does nothing (R128). -/
theorem withInstr_keepsRange {s t : State} (h : RangeInv s) {idx : Int} {p : Point}
    (ht : withInstr s idx (fun i => callAt p i s) = .next t) : RangeInv t := by
  obtain ⟨-, i, -, -, ht⟩ := withInstr_next ht
  exact callAt_keepsRange p i s t h ht

theorem stepP3_keepsRange : KeepsRange stepP3 := by
  intro s t h ht
  unfold stepP3 at ht
  split at ht
  · exact withInstr_keepsRange h ht
  · cases ht; exact h

theorem stepP2_keepsRange : KeepsRange stepP2 := by
  intro s t h ht
  unfold stepP2 at ht
  split at ht
  · exact withInstr_keepsRange h ht
  · cases ht; exact h

theorem stepP1_keepsRange : KeepsRange stepP1 := by
  intro s t h ht
  unfold stepP1 at ht
  split at ht
  · exact withInstr_keepsRange h ht
  · cases ht; exact h

theorem clockCycle_keepsRange : KeepsRange clockCycle := by
  intro s t h ht
  obtain ⟨n, p, q, hn, hp, hq, ht⟩ := clockCycle_next ht
  have hlow : RangeInv n := stepN1_keepsRange _ n (h.nextCycle.emit _).stepN3.stepN2 hn
  have hcommitted : RangeInv p := stepP3_keepsRange _ p (hlow.emit _) hp
  have hexecuted : RangeInv q := stepP2_keepsRange p q hcommitted hq
  exact stepP1_keepsRange q t hexecuted ht

/-- Settles O45: reset zeroes every value, an ended run keeps them, and a cycle is made of steps that keep
the invariant. -/
theorem storedValuesStayInRange : Obligations.StoredValuesStayInRange := by
  intro s t h ht
  obtain ⟨-, ⟨-, rfl⟩ | ⟨-, -, rfl⟩ | ⟨-, -, ht⟩⟩ := step_next ht
  · exact RangeInv.toReset s
  · exact h
  · exact clockCycle_keepsRange s t h ht

end Values

end Sys2Proof.Machine

/-! What every step keeps of the state that is no register and no latch (R6, R38, R39, R42), what the named
operations on the state do (R25 to R31, R43), the labels of a built program (R96 to R98), and reset (R47). -/

namespace Sys2Proof.Machine

set_option autoImplicit false

section CycleFrame

/-! ### What a cycle keeps -/

/-- A part of a cycle in which at most `k` instructions retire: it writes no program, no parameter, no pin and
no cycle number, and keeps the canonical form of memory. Parts compose, and the counts add up. -/
structure PartOfCycle (k : Nat) (s t : State) : Prop where
  ib : t.ib = s.ib
  lbl : t.lbl = s.lbl
  cfg : t.cfg = s.cfg
  rst : t.rst = s.rst
  point : t.point = s.point
  cycle : t.cycle = s.cycle
  retired : t.retired ≤ s.retired + k
  memory : Memory.wf s.mem → Memory.wf t.mem

theorem PartOfCycle.nothing (k : Nat) (s : State) : PartOfCycle k s s :=
  ⟨rfl, rfl, rfl, rfl, rfl, rfl, Nat.le_add_right _ k, id⟩

theorem PartOfCycle.trans {k l : Nat} {s t u : State} (h : PartOfCycle k s t) (h' : PartOfCycle l t u) :
    PartOfCycle (k + l) s u where
  ib := h'.ib.trans h.ib
  lbl := h'.lbl.trans h.lbl
  cfg := h'.cfg.trans h.cfg
  rst := h'.rst.trans h.rst
  point := h'.point.trans h.point
  cycle := h'.cycle.trans h.cycle
  retired := by
    have h₁ := h.retired
    have h₂ := h'.retired
    omega
  memory hm := h'.memory (h.memory hm)

/-- Registers, reservations, latches, the countdown, events and the count of free values are free to change. -/
theorem PartOfCycle.of_frame {s t : State} (h : t = { s with
      regs := t.regs, res := t.res, s1In := t.s1In, s1Out := t.s1Out, s2In := t.s2In, s2Out := t.s2Out
      s3In := t.s3In, s3Out := t.s3Out, lsuCnt := t.lsuCnt, events := t.events, freeCtr := t.freeCtr }) :
    PartOfCycle 0 s t where
  ib := by rw [h]
  lbl := by rw [h]
  cfg := by rw [h]
  rst := by rw [h]
  point := by rw [h]
  cycle := by rw [h]
  retired := by rw [h]; exact le_rfl
  memory hm := by rw [h]; exact hm

theorem emit_partOfCycle (s : State) (e : Event) : PartOfCycle 0 s (s.emit e) := .of_frame rfl

/-- Step N3 writes two latches (R122). -/
theorem stepN3_partOfCycle (s : State) : PartOfCycle 0 s (stepN3 s) := by
  rcases stepN3_cases s with ⟨d, -, -, -, hs⟩ | ⟨-, hs⟩
  · rw [hs]
    exact .of_frame rfl
  · rw [hs]
    exact .nothing 0 s

/-- Step N2 writes two latches (R123). -/
theorem stepN2_partOfCycle (s : State) : PartOfCycle 0 s (stepN2 s) := by
  rcases stepN2_cases s with ⟨d, -, -, hs⟩ | ⟨-, hs⟩
  · rw [hs]
    exact .of_frame rfl
  · rw [hs]
    exact .nothing 0 s

/-- An admission writes `pc`, the reservation set and stage 1 (R126). -/
theorem stepN1_partOfCycle {s t : State} (h : stepN1 s = .next t) : PartOfCycle 0 s t := by
  rcases stepN1_admits h with rfl | ⟨_, _, _, _, _, -, -, -, -, -, -, rfl⟩
  · exact .nothing 0 t
  · exact .of_frame rfl

/-- The commit is the one part of a cycle that retires, and it retires one instruction (R129). -/
theorem stepP3_partOfCycle {s t : State} (h : stepP3 s = .next t) : PartOfCycle 1 s t := by
  rcases stepP3_commits h with ⟨-, rfl⟩ | ⟨_, _, _, _, -, -, -, rfl⟩
  · exact .nothing 1 t
  · exact ⟨rfl, rfl, rfl, rfl, rfl, rfl, le_rfl, id⟩

/-- Stage 2 is the one part of a cycle that writes memory, and only the access of a store does (R190, R192). -/
theorem stepP2_partOfCycle {s t : State} (h : stepP2 s = .next t) : PartOfCycle 0 s t := by
  rcases stepP2_executes h with ⟨-, rfl⟩ | ⟨d, x, i, -, -, -, ⟨-, r, fc, -, -, rfl⟩ | ⟨-, hvisit⟩⟩
  · exact .nothing 0 t
  · exact .of_frame rfl
  · rcases hvisit with ⟨-, rfl⟩ | ⟨-, -, rfl⟩ | ⟨-, -, -, a, -, rfl⟩ | ⟨-, -, -, a, v, -, -, rfl⟩
    · exact .of_frame rfl
    · exact .of_frame rfl
    · exact .of_frame rfl
    · exact ⟨rfl, rfl, rfl, rfl, rfl, rfl, le_rfl, fun hm => memory_wf_writeCell hm a v⟩

/-- An operand fetch writes the two latches of stage 1 (R132). -/
theorem stepP1_partOfCycle {s t : State} (h : stepP1 s = .next t) : PartOfCycle 0 s t := by
  rcases stepP1_reads h with ⟨-, rfl⟩ | ⟨_, _, _, -, -, -, -, rfl⟩
  · exact .nothing 0 t
  · exact .of_frame rfl

/-- A whole cycle, from the state that has its number: at most one instruction retires (R120, R129). -/
theorem clockCycle_partOfCycle {s t : State} (h : clockCycle s = .next t) : PartOfCycle 1 s.nextCycle t := by
  obtain ⟨n, p, q, hn, hp, hq, ht⟩ := clockCycle_next h
  have hlow : PartOfCycle 0 s.nextCycle n :=
    (((emit_partOfCycle _ _).trans (stepN3_partOfCycle _)).trans (stepN2_partOfCycle _)).trans
      (stepN1_partOfCycle hn)
  have hhigh : PartOfCycle 1 n t :=
    (((emit_partOfCycle _ _).trans (stepP3_partOfCycle hp)).trans (stepP2_partOfCycle hq)).trans
      (stepP1_partOfCycle ht)
  exact hlow.trans hhigh

/-- Settles O40: reset and a cycle leave these fields alone, and an ended run everything. -/
theorem programAndParametersAreReadOnly : Obligations.ProgramAndParametersAreReadOnly := by
  intro s t h
  obtain ⟨-, ⟨-, rfl⟩ | ⟨-, -, rfl⟩ | ⟨-, -, h⟩⟩ := step_next h
  · exact ⟨rfl, rfl, rfl, rfl, rfl⟩
  · exact ⟨rfl, rfl, rfl, rfl, rfl⟩
  · have hcycle := clockCycle_partOfCycle h
    exact ⟨hcycle.ib, hcycle.lbl, hcycle.cfg, hcycle.rst, hcycle.point⟩

/-- Settles O43: a cycle counts itself and retires at most one instruction; reset puts both counts to 0. -/
theorem retiredNeverPassesTheCycleNumber : Obligations.RetiredNeverPassesTheCycleNumber := by
  intro s t hle h
  obtain ⟨-, ⟨-, rfl⟩ | ⟨-, -, rfl⟩ | ⟨-, -, h⟩⟩ := step_next h
  · exact le_rfl
  · exact hle
  · have hcycle := clockCycle_partOfCycle h
    calc t.retired ≤ s.retired + 1 := hcycle.retired
      _ ≤ s.cycle + 1 := Nat.add_le_add_right hle 1
      _ = t.cycle := hcycle.cycle.symm

/-- Settles O44: reset empties the memory, and in a cycle only a store writes it, one cell through
`writeCell`. -/
theorem memoryFormIsKept : Obligations.MemoryFormIsKept := by
  intro s t hm h
  obtain ⟨-, ⟨-, rfl⟩ | ⟨-, -, rfl⟩ | ⟨-, -, h⟩⟩ := step_next h
  · exact reset_memory_wf
  · exact hm
  · exact (clockCycle_partOfCycle h).memory hm

end CycleFrame

section Labels

/-! ### The labels of a built program -/

/-- A label binding after a new one: that one, or an older one of another label (R96, R97 (c)). -/
theorem mem_bindLabel {lbl : List (Token × Nat)} {l m : Token} {j k : Nat} (hl : l ≠ []) :
    (m, k) ∈ bindLabel lbl l j ↔ (m = l ∧ k = j) ∨ ((m, k) ∈ lbl ∧ m ≠ l) := by
  simp [bindLabel, hl]

/-- A record without a label binds nothing (R96). -/
@[simp] theorem bindLabel_nil (lbl : List (Token × Nat)) (j : Nat) : bindLabel lbl [] j = lbl := rfl

/-- Binding a label keeps every label bound at most once (R97 (c)). -/
theorem nodup_bindLabel {lbl : List (Token × Nat)} (h : (lbl.map Prod.fst).Nodup) (l : Token) (j : Nat) :
    ((bindLabel lbl l j).map Prod.fst).Nodup := by
  unfold bindLabel
  split
  · exact h
  · have hfresh : l ∉ (lbl.filter fun p => decide (p.1 ≠ l)).map Prod.fst := by simp
    have hrest : ((lbl.filter fun p => decide (p.1 ≠ l)).map Prod.fst).Nodup :=
      h.sublist (List.filter_sublist.map Prod.fst)
    exact List.nodup_cons.2 ⟨hfresh, hrest⟩

/-- The records of a buffer after one is put at its end (R96). -/
theorem getElem?_append_record {ib : List Record} {c r : Record} {k : Nat} :
    (ib ++ [c])[k]? = some r ↔ ib[k]? = some r ∨ (k = ib.length ∧ r = c) := by
  rcases lt_trichotomy k ib.length with hk | rfl | hk
  · simp [List.getElem?_append_left hk, hk.ne]
  · simp [eq_comm]
  · have hlen : (ib ++ [c]).length ≤ k := by simpa using hk
    simp [List.getElem?_eq_none hlen, hk.le, hk.ne']

/-- Lower-casing keeps a mnemonic that is there (R81). -/
theorem construct_mn_ne_nil {r : RawRecord} (h : r.mn ≠ []) (id : Nat) : (construct r id).mn ≠ [] := by
  simpa [construct, lowerToken] using h

/-- The labels of a buffer under construction are sound: each is bound to the latest record that carries it,
none is left out, and the records are numbered (R42, R96 to R98). -/
structure Program.Sound (p : Program) : Prop where
  bound : ∀ l j, (l, j) ∈ p.lbl → l ≠ [] ∧ (∃ r, p.ib[j]? = some r ∧ r.label = l) ∧
    ∀ k r, j < k → p.ib[k]? = some r → r.label ≠ l
  once : (p.lbl.map Prod.fst).Nodup
  complete : ∀ (k : Nat) (r : Record), p.ib[k]? = some r → r.label ≠ [] → ∃ j, (r.label, j) ∈ p.lbl
  numbered : ∀ a r, p.ib[a]? = some r → r.id = a + 1 ∧ r.mn ≠ []

theorem Program.Sound.empty : Program.empty.Sound where
  bound _ _ h := nomatch h
  once := List.nodup_nil
  complete _ _ h := nomatch h
  numbered _ _ h := nomatch h

/-- The labels of a sound buffer after a record with its binding is put at its end. -/
theorem Program.Sound.extend {p : Program} (h : p.Sound) {c : Record} (hid : c.id = p.ib.length + 1)
    (hmn : c.mn ≠ []) : ({ ib := p.ib ++ [c], lbl := bindLabel p.lbl c.label p.ib.length } : Program).Sound where
  bound := by
    have older : ∀ l j, (l, j) ∈ p.lbl → l ≠ c.label → l ≠ [] ∧
        (∃ r, (p.ib ++ [c])[j]? = some r ∧ r.label = l) ∧
        ∀ k r, j < k → (p.ib ++ [c])[k]? = some r → r.label ≠ l := by
      intro l j hmem hne
      obtain ⟨hl, ⟨r, hr, hlabel⟩, hlatest⟩ := h.bound l j hmem
      refine ⟨hl, ⟨r, getElem?_append_record.2 (.inl hr), hlabel⟩, fun k q hjk hq => ?_⟩
      rcases getElem?_append_record.1 hq with hq | ⟨-, rfl⟩
      · exact hlatest k q hjk hq
      · exact hne.symm
    intro l j hmem
    by_cases hc : c.label = []
    · rw [hc, bindLabel_nil] at hmem
      obtain ⟨hl, -, -⟩ := h.bound l j hmem
      exact older l j hmem (hc ▸ hl)
    · rcases (mem_bindLabel hc).1 hmem with ⟨rfl, rfl⟩ | ⟨hold, hne⟩
      · refine ⟨hc, ⟨c, getElem?_append_record.2 (.inr ⟨rfl, rfl⟩), rfl⟩, fun k r hk hr => ?_⟩
        have hlt : k < (p.ib ++ [c]).length := (List.getElem?_eq_some_iff.1 hr).1
        simp only [List.length_append, List.length_singleton] at hlt
        omega
      · exact older l j hold hne
  once := nodup_bindLabel h.once _ _
  complete := by
    intro k r hr hlabel
    by_cases hc : c.label = []
    · rw [hc, bindLabel_nil]
      rcases getElem?_append_record.1 hr with hr | ⟨-, rfl⟩
      · exact h.complete k r hr hlabel
      · exact absurd hc hlabel
    · simp only [mem_bindLabel hc]
      by_cases heq : r.label = c.label
      · exact ⟨p.ib.length, .inl ⟨heq, rfl⟩⟩
      · rcases getElem?_append_record.1 hr with hr | ⟨-, rfl⟩
        · obtain ⟨j, hj⟩ := h.complete k r hr hlabel
          exact ⟨j, .inr ⟨hj, heq⟩⟩
        · exact absurd rfl heq
  numbered := by
    intro a r hr
    rcases getElem?_append_record.1 hr with hr | ⟨rfl, rfl⟩
    · exact h.numbered a r hr
    · exact ⟨hid, hmn⟩

/-- A record without a mnemonic is dropped, every other one goes to the end of the buffer (R96). -/
theorem Program.Sound.append {p : Program} (h : p.Sound) (r : RawRecord) : (p.append r).Sound := by
  unfold Program.append
  split
  · exact h
  · next hmn => exact h.extend rfl (construct_mn_ne_nil (by simpa using hmn) _)

theorem Program.Sound.foldl_append {p : Program} (h : p.Sound) (rs : List RawRecord) :
    (rs.foldl Program.append p).Sound := by
  induction rs generalizing p with
  | nil => exact h
  | cons r rs ih => exact ih (h.append r)

/-- Settles O58, by induction on the source: the empty buffer is sound and `append` keeps it so. -/
theorem builtProgramsHaveSoundLabels : Obligations.BuiltProgramsHaveSoundLabels := by
  rintro rs _ rfl
  have hsound : (Program.ofRecords rs).Sound := Program.Sound.empty.foldl_append rs
  exact ⟨hsound.bound, hsound.once, hsound.complete, hsound.numbered⟩

end Labels

section NamedOperations

/-! ### Registers by name -/

/-- A known register after `increment` (R27). -/
theorem reg_increment (s : State) (r q : Reg) (k : Int) :
    (s.increment (.known r) k).reg q = if q = r then wrap s.cfg.xlen (s.reg r + k) else s.reg q :=
  reg_setReg s r q (s.reg r + k)

/-- A write by name touches the register file only (R26). -/
theorem write_eq (s : State) (n : RegName) (v : Int) : s.write n v = { s with regs := (s.write n v).regs } :=
  writeNamed_eq s (.reg n) v

theorem read_of_unknown {n : RegName} (h : ∀ r, n ≠ .known r) (s : State) : s.read n = 0 := by
  cases n with
  | known r => exact absurd rfl (h r)
  | num _ => rfl
  | tok _ => rfl

theorem write_of_unknown {n : RegName} (h : ∀ r, n ≠ .known r) (s : State) (v : Int) : s.write n v = s := by
  cases n with
  | known r => exact absurd rfl (h r)
  | num _ => rfl
  | tok _ => rfl

/-- What a write by name puts into the register file does not depend on the reservations (R26). -/
theorem write_regs_of_res (s : State) (l : List ResName) (n : RegName) (v : Int) :
    (({ s with res := l } : State).write n v).regs = (s.write n v).regs := by
  cases n <;> rfl

/-- Settles O7: `increment` is a read and a write of the same name. -/
theorem incrementAddsAndWraps : Obligations.IncrementAddsAndWraps := fun s k =>
  ⟨fun r q => reg_increment s r q k, fun n => write_eq s n _, fun _ hn => write_of_unknown hn s _⟩

/-- Settles O8: a known name is its register, and an unknown one is inert. -/
theorem registersReadAndWriteByName : Obligations.RegistersReadAndWriteByName := fun s v =>
  ⟨fun r q => ⟨rfl, reg_setReg s r q v⟩,
    fun n => write_eq s n v,
    fun _ hn => ⟨read_of_unknown hn s, write_of_unknown hn s v⟩,
    fun n l => ⟨read_congr rfl n, write_regs_of_res s l n v⟩⟩

/-! ### The reservation set -/

/-- `reserve(L)` of names that are all reserved adds none (R30). -/
theorem foldl_addName_of_subset {l res : List ResName} (h : ∀ n ∈ l, n ∈ res) : l.foldl addName res = res := by
  induction l with
  | nil => rfl
  | cons n l ih =>
    obtain ⟨hn, hl⟩ := List.forall_mem_cons.1 h
    have hadd : addName res n = res := if_pos hn
    rw [List.foldl_cons, hadd, ih hl]

theorem reserve_of_subset {s : State} {l : List ResName} (h : ∀ n ∈ l, n ∈ s.res) : s.reserve l = s := by
  unfold State.reserve
  rw [foldl_addName_of_subset h]

/-- `release(L)` of names that are not reserved takes none out (R31). -/
theorem release_of_disjoint {s : State} {l : List ResName} (h : ∀ n ∈ l, n ∉ s.res) : s.release l = s := by
  have hkept : s.res.filter (fun n => decide (n ∉ l)) = s.res :=
    List.filter_eq_self.2 fun n hn => decide_eq_true fun hl => h n hl hn
  unfold State.release
  rw [hkept]

/-- Two operand tokens are one name exactly where they are the same token (R29). -/
theorem nameOf_operandOf_inj {lbl : List (Token × Nat)} {t u : Token} :
    nameOf (operandOf lbl t) = nameOf (operandOf lbl u) ↔ t = u := by
  refine ⟨fun h => ?_, fun h => by rw [h]⟩
  rw [nameOf_operandOf, nameOf_operandOf] at h
  exact regNameOf_inj (ResName.name.inj h)

/-- Settles O10: `reserve` adds its names one by one, and an operand's name is its token. -/
theorem reserveIsTheUnion : Obligations.ReserveIsTheUnion :=
  ⟨fun s l => ⟨mem_foldl_addName l s.res, fun h => nodup_foldl_addName h l, rfl, reserve_of_subset⟩,
    fun _ _ _ => nameOf_operandOf_inj⟩

/-- Settles O11: `release` filters the set, and no name outside the list is dropped. -/
theorem releaseIsTheDifference : Obligations.ReleaseIsTheDifference := fun s l =>
  ⟨mem_release s l, rfl, release_of_disjoint⟩

/-! ### The buffer -/

/-- Settles O12: `fetch` is the lookup in the buffer, guarded against negative addresses. -/
theorem fetchFindsExactlyTheIndices : Obligations.FetchFindsExactlyTheIndices := fun s a =>
  ⟨by rw [Option.ne_none_iff_isSome, fetch_isSome_iff], fun k => if_pos (Int.natCast_nonneg k)⟩

end NamedOperations

section Reset

/-! ### Reset -/

/-- The reset state is one that reset leaves as it is (R47, R260). -/
theorem toReset_reset : State.reset.toReset = State.reset := rfl

/-- Settles O36: every register is read out of the zeroed file, every cell out of the empty memory. -/
theorem resetPutsEveryPieceOfState : Obligations.ResetPutsEveryPieceOfState := fun s =>
  ⟨toReset_reg s, rfl, rfl, rfl, rfl, rfl, rfl, rfl, rfl, rfl, fun _ => rfl, rfl, rfl, rfl, rfl, toReset_reset⟩

/-- Empty latches and no countdown (R143 (a) to (d)). -/
theorem reset_pipeInv : PipeInv State.reset where
  stage3Empty := rfl
  stage3OutEmpty := rfl
  stage1Waits h := absurd rfl h
  stage2Waits _ h := nomatch h
  countdownIdle _ := rfl
  countdownBound := Nat.zero_le _
  fresh1 _ h := nomatch h
  fresh2 _ h := nomatch h

/-- Nothing in flight and nothing reserved (R143 (e)). -/
theorem reset_reservationInv : ReservationInv State.reset where
  once := List.nodup_nil
  union n := by simp [State.inFlight, State.reset]
  disjoint := List.Pairwise.nil

theorem reset_dataInv : DataInv State.reset where
  stage1 _ h := nomatch h
  stage1Out _ h := nomatch h
  stage2 _ h := nomatch h
  stage2Out _ h := nomatch h

/-- Settles O48: the values are in range because reset leaves the reset state as it is. -/
theorem resetMeetsTheInvariants : Obligations.ResetMeetsTheInvariants :=
  ⟨reset_memory_wf, RangeInv.toReset State.reset, reset_pipeInv, reset_reservationInv, reset_dataInv, le_rfl⟩

end Reset

end Sys2Proof.Machine

/-! Which cell a step may change, and to what (R65, R190). -/

namespace Sys2Proof.Machine

set_option autoImplicit false

section MemoryChange

/-! ### The instruction behind a handle -/

theorem instr_eq_sw_of_st {i : Instr} (h : i.st = true) : ∃ dst op1 op2, i = .sw dst op1 op2 := by
  cases i with
  | sw dst op1 op2 => exact ⟨dst, op1, op2, rfl⟩
  | _ => cases h

theorem instrAt_of {s : State} {idx : Int} {x : Slot} {i : Instr} (hx : s.fetch idx = some x)
    (hi : s.decode x = .ok i) : s.instrAt idx = some i := by
  simp only [State.instrAt, hx, hi]

theorem instrAt_congr {s t : State} (hib : t.ib = s.ib) (hlbl : t.lbl = s.lbl) (hcfg : t.cfg = s.cfg) (idx : Int) :
    t.instrAt idx = s.instrAt idx := by
  simp only [State.instrAt, fetch_congr hib, decode_congr hcfg hlbl]

/-! ### The parts of a cycle around stage 2 -/

/-- A part of a cycle that visits no memory: it leaves the cells, the countdown and the program alone. Every part
but step P2 is one. -/
structure VisitsNoMemory (s t : State) : Prop where
  mem : t.mem = s.mem
  lsuCnt : t.lsuCnt = s.lsuCnt
  instrAt : ∀ idx, t.instrAt idx = s.instrAt idx

theorem VisitsNoMemory.trans {s t u : State} (h : VisitsNoMemory s t) (h' : VisitsNoMemory t u) :
    VisitsNoMemory s u where
  mem := h'.mem.trans h.mem
  lsuCnt := h'.lsuCnt.trans h.lsuCnt
  instrAt idx := (h'.instrAt idx).trans (h.instrAt idx)

/-- A part of a cycle keeps the program (R42), so the cells and the countdown decide. -/
theorem PartOfCycle.visitsNoMemory {k : Nat} {s t : State} (h : PartOfCycle k s t) (hmem : t.mem = s.mem)
    (hcnt : t.lsuCnt = s.lsuCnt) : VisitsNoMemory s t :=
  ⟨hmem, hcnt, instrAt_congr h.ib h.lbl h.cfg⟩

theorem nextCycle_visitsNoMemory (s : State) : VisitsNoMemory s s.nextCycle := ⟨rfl, rfl, fun _ => rfl⟩

theorem emit_visitsNoMemory (s : State) (e : Event) : VisitsNoMemory s (s.emit e) := ⟨rfl, rfl, fun _ => rfl⟩

theorem stepN3_visitsNoMemory (s : State) : VisitsNoMemory s (stepN3 s) := by
  apply (stepN3_partOfCycle s).visitsNoMemory <;> rcases stepN3_cases s with ⟨_, -, -, -, hs⟩ | ⟨-, hs⟩ <;> rw [hs]

theorem stepN2_visitsNoMemory (s : State) : VisitsNoMemory s (stepN2 s) := by
  apply (stepN2_partOfCycle s).visitsNoMemory <;> rcases stepN2_cases s with ⟨_, -, -, hs⟩ | ⟨-, hs⟩ <;> rw [hs]

/-- An admission leaves stage 2 alone (R126). -/
theorem stepN1_leaves_stage2 {s t : State} (h : stepN1 s = .next t) : VisitsNoMemory s t ∧ t.s2In = s.s2In := by
  have hpart := stepN1_partOfCycle h
  rcases stepN1_admits h with rfl | ⟨_, _, _, _, _, -, -, -, -, -, -, rfl⟩
  · exact ⟨hpart.visitsNoMemory rfl rfl, rfl⟩
  · exact ⟨hpart.visitsNoMemory rfl rfl, rfl⟩

/-- A commit leaves stage 2 alone (R129). -/
theorem stepP3_leaves_stage2 {s t : State} (h : stepP3 s = .next t) : VisitsNoMemory s t ∧ t.s2In = s.s2In := by
  have hpart := stepP3_partOfCycle h
  rcases stepP3_commits h with ⟨-, rfl⟩ | ⟨_, _, _, _, -, -, -, rfl⟩
  · exact ⟨hpart.visitsNoMemory rfl rfl, rfl⟩
  · exact ⟨hpart.visitsNoMemory rfl rfl, rfl⟩

theorem stepP1_mem {s t : State} (h : stepP1 s = .next t) : t.mem = s.mem := by
  rcases stepP1_reads h with ⟨-, rfl⟩ | ⟨_, _, _, -, -, -, -, rfl⟩ <;> rfl

/-- Step N3 reads neither the cycle number nor the events (R122). -/
theorem stepN3_nextCycle_emit (s : State) (e : Event) :
    stepN3 (s.nextCycle.emit e) = (stepN3 s).nextCycle.emit e := by
  unfold stepN3
  rw [apply_ite fun u : State => u.nextCycle.emit e]
  rfl

/-- Step N2 reads neither the cycle number nor the events (R123). -/
theorem stepN2_nextCycle_emit (s : State) (e : Event) :
    stepN2 (s.nextCycle.emit e) = (stepN2 s).nextCycle.emit e := by
  unfold stepN2
  rw [apply_ite fun u : State => u.nextCycle.emit e]
  rfl

/-- What stage 2 holds after steps N3 and N2 is what step P2 finds in it: steps N1 and P3 come between (R121,
R128). -/
theorem stepP2_finds {s n p : State} (hn : stepN1 (stepN2 (stepN3 (s.nextCycle.emit (.clk false)))) = .next n)
    (hp : stepP3 (n.emit (.clk true)) = .next p) :
    VisitsNoMemory s p ∧ p.s2In = (stepN2 (stepN3 s)).s2In := by
  rw [stepN3_nextCycle_emit, stepN2_nextCycle_emit] at hn
  obtain ⟨hadmit, hadmit2⟩ := stepN1_leaves_stage2 hn
  obtain ⟨hcommit, hcommit2⟩ := stepP3_leaves_stage2 hp
  have hmoved : VisitsNoMemory s (stepN2 (stepN3 s)) := (stepN3_visitsNoMemory s).trans (stepN2_visitsNoMemory _)
  have hlow : VisitsNoMemory s n :=
    hmoved.trans ((nextCycle_visitsNoMemory _).trans ((emit_visitsNoMemory _ _).trans hadmit))
  exact ⟨hlow.trans ((emit_visitsNoMemory _ _).trans hcommit), hcommit2.trans hadmit2⟩

/-! ### The store in stage 2 -/

/-- Where step P2 changes a cell, it performs the access of the `sw` in stage 2, and the cell is the one at its
`op1V`, which takes its `dstV` (R190, R192). -/
theorem stepP2_changes_cell {s t : State} {a : Int} (hm : Memory.wf s.mem) (h : stepP2 s = .next t)
    (hne : t.memRead a ≠ s.memRead a) :
    ∃ d dst op1 op2, s.s2In = some d ∧ s.instrAt d.idx = some (.sw dst op1 op2) ∧
      d.stalled = true ∧ s.lsuCnt ≤ 1 ∧ d.op1V = some a ∧ d.dstV = some (t.memRead a) := by
  rcases stepP2_executes h with ⟨-, rfl⟩ | ⟨d, x, i, hd, hx, hi, ⟨-, r, fc, -, -, rfl⟩ | ⟨-, hvisit⟩⟩
  · exact absurd rfl hne
  · exact absurd rfl hne
  · rcases hvisit with ⟨-, rfl⟩ | ⟨-, -, rfl⟩ | ⟨-, -, -, b, -, rfl⟩ | ⟨hstalled, hcnt, hst, b, v, hb, hv, rfl⟩
    · exact absurd rfl hne
    · exact absurd rfl hne
    · exact absurd rfl hne
    · obtain ⟨dst, op1, op2, rfl⟩ := instr_eq_sw_of_st hst
      have hread : (({ s with lsuCnt := 0 }.memWrite b v).finish { d with stalled := false }).memRead a =
          if a = b then v else s.memRead a := memRead_memWrite (s := { s with lsuCnt := 0 }) hm b a v
      rw [hread] at hne ⊢
      have hab : a = b := by
        by_contra hab
        exact hne (if_neg hab)
      rw [if_pos hab, hab]
      exact ⟨d, dst, op1, op2, hd, instrAt_of hx hi, hstalled, hcnt, hb, hv⟩

/-- Settles O41: of the parts of a cycle step P2 alone writes a cell, and what it works on is what steps N3 and N2
left in stage 2. -/
theorem onlyAStoreChangesMemory : Obligations.OnlyAStoreChangesMemory := by
  intro s t a hm hrst h hne
  obtain ⟨-, ⟨hreset, -⟩ | ⟨-, -, rfl⟩ | ⟨-, -, h⟩⟩ := step_next h
  · exact absurd (hrst.symm.trans hreset) Bool.false_ne_true
  · exact absurd rfl hne
  · obtain ⟨n, p, q, hn, hp, hq, ht⟩ := clockCycle_next h
    obtain ⟨hframe, hstage2⟩ := stepP2_finds hn hp
    have hbefore : p.memRead a = s.memRead a := congrArg (readCell · a) hframe.mem
    have hafter : t.memRead a = q.memRead a := congrArg (readCell · a) (stepP1_mem ht)
    rw [hafter, ← hbefore] at hne
    rw [← hstage2, ← hframe.lsuCnt, hafter]
    simp only [← hframe.instrAt]
    exact stepP2_changes_cell (hframe.mem.symm ▸ hm) hq hne

end MemoryChange

end Sys2Proof.Machine

/-! The binary word (R104 to R107): what a field of a word is, which words the decoder takes, and that it finds
again what the encoder wrote. -/

namespace Sys2Proof

set_option autoImplicit false

section BinaryWord

/-! ### Fields of a number -/

/-- The field of `len` bits above `lo` bits is what stands there (R10). -/
theorem bitField_of_parts {w r f q lo len : Nat} (hw : w = r + 2 ^ lo * (f + 2 ^ len * q)) (hr : r < 2 ^ lo)
    (hf : f < 2 ^ len) : bitField w lo len = f := by
  have habove : w / 2 ^ lo = f + 2 ^ len * q := by
    rw [hw, Nat.add_mul_div_left _ _ (Nat.two_pow_pos lo), Nat.div_eq_of_lt hr, Nat.zero_add]
  rw [bitField, habove, Nat.add_mul_mod_self_left, Nat.mod_eq_of_lt hf]

theorem packDesc_lt {n kind reg val : Nat} (hk : kind < 8) (hr : reg < 32) (hv : val < 2 ^ n) :
    packDesc kind reg val < 2 ^ descBits n := by
  have hpow : 2 ^ descBits n = 256 * 2 ^ n := Nat.pow_add 2 8 n
  unfold packDesc
  omega

/-- A descriptor gives its three subfields back (R105). -/
theorem bitField_packDesc {n kind reg val : Nat} (hk : kind < 8) (hr : reg < 32) (hv : val < 2 ^ n) :
    bitField (packDesc kind reg val) 0 3 = kind ∧ bitField (packDesc kind reg val) 3 5 = reg ∧
      bitField (packDesc kind reg val) 8 n = val := by
  unfold packDesc
  exact ⟨bitField_of_parts (r := 0) (q := reg + 32 * val) (by omega) (by omega) hk,
    bitField_of_parts (r := kind) (q := val) (by omega) hk hr,
    bitField_of_parts (r := kind + 8 * reg) (q := 0) (by omega) (by omega) hv⟩

/-! ### The subfields of a descriptor -/

theorem regName_number_lt (m : RegName) : m.number < 32 := by
  cases m with
  | known r => exact (Machine.reg_number_lt r).trans (by decide)
  | num k => simp only [RegName.number]; omega
  | tok t => simp [RegName.number]

/-- A register name is found again by its number, if it has one (R106). -/
theorem regOfNumber_number {m : RegName} (h : m.numbered = true) : regOfNumber m.number = m := by
  cases m with
  | known r => cases r <;> rfl
  | num k =>
    have hnum : regOfNumber (k.val + 19) = .num (Fin.ofNat 13 k.val) := rfl
    rw [RegName.number, Nat.add_comm, hnum]
    simp
  | tok t => cases h

theorem valBits_lt (n : Nat) (v : Int) : valBits n v < 2 ^ n := by
  have h0 := Int.emod_nonneg v (pow_pos_int n).ne'
  have h1 := Int.emod_lt_of_pos v (pow_pos_int n)
  unfold valBits
  omega

/-- A `val` subfield is read back as the value in the range of the width (R9, R105). -/
theorem sextVal_valBits (n : Nat) (v : Int) : sextVal n (valBits n v) = wrap (some n) v := by
  have hbits : ((valBits n v : Nat) : Int) = v % ((2 ^ n : Nat) : Int) :=
    Int.toNat_of_nonneg (Int.emod_nonneg v (pow_pos_int n).ne')
  exact wrap_congr (by rw [hbits, Int.emod_emod])

/-- The values a `val` subfield has room for are those in range (R9, R105). -/
theorem fitsVal_iff {n : Nat} (hn : 1 ≤ n) (v : Int) : fitsVal n v = true ↔ InRange (some n) v := by
  simp only [fitsVal, Bool.and_eq_true, decide_eq_true_eq, inRange_iff hn]

theorem sextVal_valBits_of_fits {n : Nat} (hn : 1 ≤ n) {v : Int} (h : fitsVal n v = true) :
    sextVal n (valBits n v) = v :=
  (sextVal_valBits n v).trans ((fitsVal_iff hn v).1 h)

/-! ### One descriptor -/

theorem encodeOperand_lt (n : Nat) (o : Operand) : encodeOperand n o < 2 ^ descBits n := by
  have h0 : 0 < 2 ^ n := Nat.two_pow_pos n
  cases o with
  | absent => exact Nat.two_pow_pos _
  | reg m => exact packDesc_lt (by decide) (regName_number_lt m) h0
  | regOff off m text => exact packDesc_lt (by decide) (regName_number_lt m) (valBits_lt n off)
  | imm v text => exact packDesc_lt (by decide) (by decide) (valBits_lt n v)
  | label target text =>
    cases target with
    | none => exact packDesc_lt (by decide) (by decide) h0
    | some t => exact packDesc_lt (by decide) (by decide) (valBits_lt n t)

/-- An operand that has a descriptor is decoded from it (R105, R106). -/
theorem decodeOperand_encodeOperand {n : Nat} (hn : 1 ≤ n) {o : Operand} (h : o.encodable n = true) :
    decodeOperand n (encodeOperand n o) = .ok o := by
  have h0 : 0 < 2 ^ n := Nat.two_pow_pos n
  cases o with
  | absent => simp [encodeOperand, decodeOperand, bitField]
  | reg m =>
    obtain ⟨hkind, hreg, -⟩ := bitField_packDesc (kind := 1) (by decide) (regName_number_lt m) h0
    simp only [encodeOperand, decodeOperand, hkind, hreg, regOfNumber_number h]
  | regOff off m text =>
    simp only [Operand.encodable, Bool.and_eq_true, List.isEmpty_iff] at h
    obtain ⟨⟨hm, hoff⟩, rfl⟩ := h
    obtain ⟨hkind, hreg, hval⟩ := bitField_packDesc (kind := 2) (by decide) (regName_number_lt m) (valBits_lt n off)
    simp only [encodeOperand, decodeOperand, hkind, hreg, hval, regOfNumber_number hm, sextVal_valBits_of_fits hn hoff]
  | imm v text =>
    simp only [Operand.encodable, Bool.and_eq_true, List.isEmpty_iff] at h
    obtain ⟨hv, rfl⟩ := h
    obtain ⟨hkind, -, hval⟩ := bitField_packDesc (kind := 3) (reg := 0) (by decide) (by decide) (valBits_lt n v)
    simp only [encodeOperand, decodeOperand, hkind, hval, sextVal_valBits_of_fits hn hv]
  | label target text =>
    cases target with
    | none =>
      simp only [Operand.encodable, List.isEmpty_iff] at h
      subst h
      simp [encodeOperand, decodeOperand, packDesc, bitField]
    | some t =>
      simp only [Operand.encodable, Bool.and_eq_true, List.isEmpty_iff] at h
      obtain ⟨ht, rfl⟩ := h
      obtain ⟨hkind, -, hval⟩ := bitField_packDesc (kind := 4) (reg := 0) (by decide) (by decide) (valBits_lt n t)
      simp only [encodeOperand, decodeOperand, hkind, hval, sextVal_valBits_of_fits hn ht]

/-- A descriptor is refused exactly where its kind is 6 or 7 (R105). -/
theorem decodeOperand_ok_iff (n desc : Nat) : (∃ o, decodeOperand n desc = .ok o) ↔ desc % 8 < 6 := by
  have hkind : bitField desc 0 3 = desc % 8 := by simp [bitField]
  simp only [decodeOperand, hkind]
  generalize desc % 8 = kind
  split <;> simp

/-! ### The word -/

/-- The decoder takes a word exactly where nothing stands above its three descriptors and it takes each of
them (R104, R107). -/
theorem decodeWord_ok_iff {n w : Nat} {i : Instr} : decodeWord n w = .ok i ↔
    w / 2 ^ descLo n 3 = 0 ∧ ∃ d a b, decodeOperand n (bitField w (descLo n 0) (descBits n)) = .ok d ∧
      decodeOperand n (bitField w (descLo n 1) (descBits n)) = .ok a ∧
      decodeOperand n (bitField w (descLo n 2) (descBits n)) = .ok b ∧ i = instrOfOpc (bitField w 0 4) d a b := by
  constructor
  · intro h
    unfold decodeWord at h
    split at h
    · cases h
    · next htop =>
      split at h
      · cases h
      · next d hd =>
        split at h
        · cases h
        · next a ha =>
          split at h
          · cases h
          · next b hb =>
            cases h
            exact ⟨not_not.1 htop, d, a, b, hd, ha, hb, rfl⟩
  · rintro ⟨htop, d, a, b, hd, ha, hb, rfl⟩
    rw [decodeWord, if_neg (not_not.2 htop), hd, ha, hb]

theorem instr_opc_lt (i : Instr) : i.opc < 16 := by
  cases i with
  | otherReserved k d a b => simp only [Instr.opc]; omega
  | _ => simp [Instr.opc]

/-- The row of an opcode number has that number (R107). -/
theorem opc_instrOfOpc {k : Nat} (hk : k < 16) (d a b : Operand) : (instrOfOpc k d a b).opc = k := by
  interval_cases k <;> rfl

/-- The row of an instruction's own number, with its operands, is the instruction (R107). -/
theorem instrOfOpc_opc : ∀ i : Instr, instrOfOpc i.opc i.dst i.op1 i.op2 = i
  | .add d a b => Laws.OpcodeRow.add d a b
  | .addi d a b => Laws.OpcodeRow.addi d a b
  | .li d a b => Laws.OpcodeRow.li d a b
  | .lw d a b => Laws.OpcodeRow.lw d a b
  | .slli d a b => Laws.OpcodeRow.slli d a b
  | .slri d a b => Laws.OpcodeRow.slri d a b
  | .sub d a b => Laws.OpcodeRow.sub d a b
  | .sw d a b => Laws.OpcodeRow.sw d a b
  | .jal d a b => Laws.OpcodeRow.jal d a b
  | .bge d a b => Laws.OpcodeRow.bge d a b
  | .ble d a b => Laws.OpcodeRow.ble d a b
  | .other d a b => Laws.OpcodeRow.other d a b
  | .otherReserved k d a b => Laws.OpcodeRow.otherReserved k d a b

theorem descLo_succ (n k : Nat) : descLo n (k + 1) = descLo n k + descBits n := by
  unfold descLo
  ring

/-- A field above a number stays below the bits of both. -/
theorem field_above_lt {r f lo len : Nat} (hr : r < 2 ^ lo) (hf : f < 2 ^ len) : r + 2 ^ lo * f < 2 ^ (lo + len) := by
  calc r + 2 ^ lo * f < 2 ^ lo * (f + 1) := by rw [Nat.mul_succ]; omega
    _ ≤ 2 ^ lo * 2 ^ len := Nat.mul_le_mul_left _ hf
    _ = 2 ^ (lo + len) := (Nat.pow_add 2 lo len).symm

/-- The fields of an encoded word, and nothing above them (R104). -/
theorem bitField_encode (n : Nat) (i : Instr) :
    bitField (encode n i) 0 4 = i.opc ∧
    bitField (encode n i) (descLo n 0) (descBits n) = encodeOperand n i.dst ∧
    bitField (encode n i) (descLo n 1) (descBits n) = encodeOperand n i.op1 ∧
    bitField (encode n i) (descLo n 2) (descBits n) = encodeOperand n i.op2 ∧
    encode n i / 2 ^ descLo n 3 = 0 := by
  have hdst := encodeOperand_lt n i.dst
  have hop1 := encodeOperand_lt n i.op1
  have hop2 := encodeOperand_lt n i.op2
  have up0 : 2 ^ descLo n 0 = 2 ^ 4 := by simp [descLo]
  have up1 : 2 ^ descLo n 1 = 2 ^ descLo n 0 * 2 ^ descBits n := by rw [descLo_succ, pow_add]
  have up2 : 2 ^ descLo n 2 = 2 ^ descLo n 1 * 2 ^ descBits n := by rw [descLo_succ, pow_add]
  have below0 : i.opc < 2 ^ descLo n 0 := up0 ▸ instr_opc_lt i
  have below1 : i.opc + 2 ^ descLo n 0 * encodeOperand n i.dst < 2 ^ descLo n 1 :=
    descLo_succ n 0 ▸ field_above_lt below0 hdst
  have below2 : i.opc + 2 ^ descLo n 0 * encodeOperand n i.dst + 2 ^ descLo n 1 * encodeOperand n i.op1
      < 2 ^ descLo n 2 := descLo_succ n 1 ▸ field_above_lt below1 hop1
  have below3 : encode n i < 2 ^ descLo n 3 := descLo_succ n 2 ▸ field_above_lt below2 hop2
  refine ⟨bitField_of_parts (r := 0) (q := encodeOperand n i.dst +
      2 ^ descBits n * (encodeOperand n i.op1 + 2 ^ descBits n * encodeOperand n i.op2)) ?_ (by decide) (instr_opc_lt i),
    bitField_of_parts (q := encodeOperand n i.op1 + 2 ^ descBits n * encodeOperand n i.op2) ?_ below0 hdst,
    bitField_of_parts (q := encodeOperand n i.op2) ?_ below1 hop1,
    bitField_of_parts (q := 0) ?_ below2 hop2,
    Nat.div_eq_of_lt below3⟩
  all_goals
    simp only [encode, up2, up1, up0]
    ring

/-- Settles O53: each field of an encoded word is found again, and each descriptor is decoded to its operand. -/
theorem decodeOfEncodeIsTheInstruction : Obligations.DecodeOfEncodeIsTheInstruction := by
  intro n i hn henc
  simp only [Instr.encodable, Bool.and_eq_true] at henc
  obtain ⟨⟨hdst, hop1⟩, hop2⟩ := henc
  obtain ⟨hopc, hd, ha, hb, htop⟩ := bitField_encode n i
  refine decodeWord_ok_iff.2 ⟨htop, i.dst, i.op1, i.op2, ?_, ?_, ?_, ?_⟩
  · rw [hd, decodeOperand_encodeOperand hn hdst]
  · rw [ha, decodeOperand_encodeOperand hn hop1]
  · rw [hb, decodeOperand_encodeOperand hn hop2]
  · rw [hopc, instrOfOpc_opc]

/-! ### The reserved words -/

/-- A descriptor's kind is the three low bits of the word there (R104, R105). -/
theorem bitField_descBits_mod (n w lo : Nat) : bitField w lo (descBits n) % 8 = w / 2 ^ lo % 8 :=
  Nat.mod_mod_of_dvd _ (Nat.pow_dvd_pow 2 (show 3 ≤ descBits n by unfold descBits; omega))

/-- The decoder takes a word exactly where no bit is above the descriptors and no descriptor is reserved
(R104, R105). -/
theorem decodeWord_isOk_iff (n w : Nat) : (∃ i, decodeWord n w = .ok i) ↔
    w < 2 ^ descLo n 3 ∧ w / 2 ^ descLo n 0 % 8 < 6 ∧ w / 2 ^ descLo n 1 % 8 < 6 ∧ w / 2 ^ descLo n 2 % 8 < 6 := by
  have htop : w / 2 ^ descLo n 3 = 0 ↔ w < 2 ^ descLo n 3 := Nat.div_eq_zero_iff_lt (Nat.two_pow_pos _)
  simp only [← bitField_descBits_mod n, ← decodeOperand_ok_iff n, ← htop]
  constructor
  · rintro ⟨i, hi⟩
    obtain ⟨hzero, d, a, b, hd, ha, hb, -⟩ := decodeWord_ok_iff.1 hi
    exact ⟨hzero, ⟨d, hd⟩, ⟨a, ha⟩, ⟨b, hb⟩⟩
  · rintro ⟨hzero, ⟨d, hd⟩, ⟨a, ha⟩, ⟨b, hb⟩⟩
    exact ⟨_, decodeWord_ok_iff.2 ⟨hzero, d, a, b, hd, ha, hb, rfl⟩⟩

/-- The opcode number of a decoded word is its low four bits (R104, R107). -/
theorem opc_of_decodeWord {n w : Nat} {i : Instr} (h : decodeWord n w = .ok i) : i.opc = w % 16 := by
  obtain ⟨-, d, a, b, -, -, -, rfl⟩ := decodeWord_ok_iff.1 h
  have hlow : bitField w 0 4 = w % 16 := by simp [bitField]
  rw [hlow, opc_instrOfOpc (Nat.mod_lt w (by decide))]

/-- Settles O54: the descriptors stand at bits 4, `12 + n` and `20 + 2n`, and end below bit `28 + 3n`. -/
theorem decoderRefusesExactlyTheReservedWords : Obligations.DecoderRefusesExactlyTheReservedWords := by
  intro n w
  have at0 : descLo n 0 = 4 := by simp [descLo]
  have at1 : descLo n 1 = 12 + n := by simp only [descLo, descBits]; omega
  have at2 : descLo n 2 = 20 + 2 * n := by simp only [descLo, descBits]; omega
  have at3 : descLo n 3 = 28 + 3 * n := by simp only [descLo, descBits]; omega
  have hok := decodeWord_isOk_iff n w
  rw [at0, at1, at2, at3] at hok
  exact ⟨hok, fun i => opc_of_decodeWord⟩

/-- Settles O55: four fixed words, read field by field. -/
theorem workedWordsDecode : Obligations.WorkedWordsDecode := ⟨rfl, rfl, rfl, rfl⟩

end BinaryWord

end Sys2Proof

/-! The classifier of operand tokens (R82 to R88): a token has at most one class pattern. -/

namespace Sys2Proof

set_option autoImplicit false

section Classifier

/-! ### What the patterns look at -/

/-- A register token is a letter that begins no literal, before letters and digits (R82). -/
theorem isRegister_cons {t : Token} (h : isRegister t = true) :
    ∃ c ds, t = c :: ds ∧ isDigitChar c = false ∧ c ≠ '(' ∧ '(' ∉ ds := by
  unfold isRegister at h
  split at h
  · cases h
  · exact ⟨'p', ['c'], rfl, by decide, by decide, by decide⟩
  · next c ds _ =>
    simp only [Bool.and_eq_true, Bool.or_eq_true, decide_eq_true_eq, List.all_eq_true] at h
    obtain ⟨⟨hc, -⟩, hds⟩ := h
    have hparen : '(' ∉ ds := fun hmem => absurd (hds _ hmem) (by decide)
    rcases hc with (rfl | rfl) | rfl
    · exact ⟨_, ds, rfl, by decide, by decide, hparen⟩
    · exact ⟨_, ds, rfl, by decide, by decide, hparen⟩
    · exact ⟨_, ds, rfl, by decide, by decide, hparen⟩

/-- A hexadecimal literal is `0x` and digits of base 16 (R84). -/
theorem isHexImmediate_cons {t : Token} (h : isHexImmediate t = true) :
    ∃ ds, t = '0' :: 'x' :: ds ∧ ∀ c ∈ ds, isHexChar c = true := by
  unfold isHexImmediate at h
  split at h
  · next ds =>
    simp only [Bool.and_eq_true, List.all_eq_true] at h
    exact ⟨ds, rfl, h.2⟩
  · cases h

theorem isDigitChar_of_isDecimalImmediate {t : Token} (h : isDecimalImmediate t = true) :
    ∀ c ∈ t, isDigitChar c = true := by
  simp only [isDecimalImmediate, Bool.and_eq_true, List.all_eq_true] at h
  exact h.2

theorem mem_of_mem_splitSign {t : Token} {c : Char} (h : c ∈ (splitSign t).2) : c ∈ t := by
  unfold splitSign at h
  split at h
  · exact List.mem_cons_of_mem _ h
  · exact h

theorem paren_mem_of_parenthesised {t base : Token} (h : parenthesised t = some base) : '(' ∈ t := by
  unfold parenthesised at h
  split at h
  · exact List.mem_cons_self
  · cases h

/-- A register-offset has a parenthesis (R85), and no other pattern allows one. -/
theorem paren_mem_of_isRegisterOffset {t : Token} (h : isRegisterOffset t = true) : '(' ∈ t := by
  obtain ⟨p, hp⟩ := Option.isSome_iff_exists.1 h
  unfold parseRegisterOffset at hp
  simp only at hp
  split at hp
  · cases hp
  · split at hp
    · cases hp
    · next base hbase =>
      exact mem_of_mem_splitSign ((List.dropWhile_sublist _).subset (paren_mem_of_parenthesised hbase))

theorem isRegisterOffset_eq_false {t : Token} (h : '(' ∉ t) : isRegisterOffset t = false :=
  Bool.eq_false_iff.2 fun hoff => h (paren_mem_of_isRegisterOffset hoff)

/-! ### Disjointness -/

theorem isRegister_disjoint {t : Token} (h : isRegister t = true) :
    isRegisterOffset t = false ∧ isHexImmediate t = false ∧ isDecimalImmediate t = false := by
  obtain ⟨c, ds, rfl, hdigit, hc, hds⟩ := isRegister_cons h
  refine ⟨isRegisterOffset_eq_false (by simp [hc.symm, hds]), Bool.eq_false_iff.2 fun hhex => ?_,
    Bool.eq_false_iff.2 fun hdec => ?_⟩
  · obtain ⟨_, heq, -⟩ := isHexImmediate_cons hhex
    cases heq
    exact absurd hdigit (by decide)
  · exact Bool.false_ne_true (hdigit.symm.trans (isDigitChar_of_isDecimalImmediate hdec c List.mem_cons_self))

theorem isHexImmediate_disjoint {t : Token} (h : isHexImmediate t = true) :
    isRegisterOffset t = false ∧ isDecimalImmediate t = false := by
  obtain ⟨ds, rfl, hds⟩ := isHexImmediate_cons h
  have hparen : '(' ∉ ds := fun hmem => absurd (hds _ hmem) (by decide)
  refine ⟨isRegisterOffset_eq_false (by simp [hparen]), Bool.eq_false_iff.2 fun hdec => ?_⟩
  exact absurd (isDigitChar_of_isDecimalImmediate hdec 'x' (by simp)) (by decide)

theorem isDecimalImmediate_disjoint {t : Token} (h : isDecimalImmediate t = true) : isRegisterOffset t = false :=
  isRegisterOffset_eq_false fun hmem => absurd (isDigitChar_of_isDecimalImmediate h _ hmem) (by decide)

/-- Settles O57: a parenthesis tells the register-offsets apart, the first characters the other three. -/
theorem operandClassesAreDisjoint : Obligations.OperandClassesAreDisjoint := by
  refine ⟨fun t => ⟨isRegister_disjoint, fun hoff => ⟨?_, ?_⟩, fun hhex => (isHexImmediate_disjoint hhex).2⟩,
    rfl, rfl, rfl, rfl⟩
  · exact Bool.eq_false_iff.2 fun hhex =>
      Bool.false_ne_true ((isHexImmediate_disjoint hhex).1.symm.trans hoff)
  · exact Bool.eq_false_iff.2 fun hdec =>
      Bool.false_ne_true ((isDecimalImmediate_disjoint hdec).symm.trans hoff)

end Classifier

end Sys2Proof

/-! Slots that are refused, operands and bounds without a value, and the programs that the loaders take. -/

namespace Sys2Proof.Machine

set_option autoImplicit false

section Refusals

/-! ### Operands that name no register, and slots without an instruction -/

/-- Settles O9: an operand is read and written as the name it holds, and otherwise not at all. -/
theorem operandsThatNameNoRegisterAreInert : Obligations.OperandsThatNameNoRegisterAreInert := by
  intro s v o h
  cases o with
  | reg n =>
    have hn : ∀ r, n ≠ .known r := fun r heq => h r (congrArg Operand.reg heq)
    exact ⟨read_of_unknown hn s, write_of_unknown hn s v⟩
  | absent => exact ⟨rfl, rfl⟩
  | regOff off base text => exact ⟨rfl, rfl⟩
  | imm w text => exact ⟨rfl, rfl⟩
  | label target text => exact ⟨rfl, rfl⟩

/-- Step N1 with stage 1 free and a candidate considers the candidate (R124). -/
theorem stepN1_of_candidate {s : State} {x : Slot} (hfree : s.s1In = none) (hx : s.fetch s.pcV = some x) :
    stepN1 s = considerSlot x s := by
  simp only [stepN1, if_pos hfree, hx]

/-- A slot without an instruction is refused unless `pc` is reserved (U7, entry 10). -/
theorem considerSlot_of_error {s : State} {x : Slot} {e : DecodeError} (he : s.decode x = .error e)
    (hpc : pcName ∉ s.res) : considerSlot x s = .refused (.undecodable e) := by
  have hopen : ¬ s.isReserved [pcName] = true := by simpa [State.isReserved] using hpc
  simp only [considerSlot, he, if_neg hopen]

/-- Settles O6: step N1 comes to the slot and finds no instruction. -/
theorem reservedWordIsRefusedAtAdmission : Obligations.ReservedWordIsRefusedAtAdmission :=
  fun _ _ _ hfree hx he hpc => (stepN1_of_candidate hfree hx).trans (considerSlot_of_error he hpc)

end Refusals

section FreeBound

/-! ### The free bound of a branch (U6, entry 6) -/

theorem immOf_eq_none {a : Operand} (h : ∀ v text, a ≠ .imm v text) (x : Option Nat) : immOf x a = none := by
  cases a with
  | imm v text => exact absurd rfl (h v text)
  | _ => rfl

/-- Without a literal the bound is the free value of the moment, which is used up (entry 6). -/
theorem akCompare_of_no_literal {a : Operand} (h : ∀ v text, a ≠ .imm v text) (holds : Int → Int → Bool)
    (d : Operand) (s : State) :
    akCompare holds d a s = akBranch (holds (s.readNamed d) s.free) d s.useFree := by
  have himm := immOf_eq_none h s.cfg.xlen
  simp only [akCompare, State.bound, State.afterBound, himm, Option.getD_none, Option.isSome_none,
    Bool.false_eq_true, if_false]

/-- `pc` after the admission of a branch (R126). -/
theorem reg_pc_pastBranch (s : State) (taken : Bool) :
    (s.pastBranch taken).reg .pc = if taken then s.reg .pc else wrap s.cfg.xlen (s.reg .pc + 1) := by
  cases taken with
  | true => rfl
  | false => exact reg_increment_pc s 1 .pc

/-- The admission of a branch decides `pc`, the reservations and stage 1 (R126, R202). -/
theorem akBranch_decides (taken : Bool) (d : Operand) (s : State) :
    ∃ t, akBranch taken d s = .next t ∧ t.freeCtr = s.freeCtr ∧
      if taken then t.reg .pc = s.reg .pc ∧ pcName ∈ t.res
      else t.reg .pc = wrap s.cfg.xlen (s.reg .pc + 1) ∧ t.res = s.res := by
  refine ⟨_, rfl, rfl, ?_⟩
  have hpc : ((s.pastBranch taken).place s.pcV (branchNames taken d)).reg .pc = _ := reg_pc_pastBranch s taken
  rw [hpc]
  cases taken with
  | true => exact ⟨rfl, (mem_foldl_addName _ _ _).2 (.inr (by simp [branchNames]))⟩
  | false => exact ⟨rfl, rfl⟩

/-- A branch without a literal bound is decided by its comparison with the free value (U6, entry 6). -/
theorem akCompare_decides_by_free {a : Operand} (h : ∀ v text, a ≠ .imm v text) (holds : Int → Int → Bool)
    (d : Operand) (s : State) :
    ∃ t, akCompare holds d a s = .next t ∧ t.freeCtr = s.freeCtr + 1 ∧
      if holds (s.readNamed d) s.free then t.reg .pc = s.reg .pc ∧ pcName ∈ t.res
      else t.reg .pc = wrap s.cfg.xlen (s.reg .pc + 1) ∧ t.res = s.res := by
  rw [akCompare_of_no_literal h]
  exact akBranch_decides _ d s.useFree

theorem exec_bge_atAdmission {s : State} (hp : s.point = .atAdmission) (d a b : Operand) :
    exec (.bge d a b) s = akCompare (fun x v => decide (v ≤ x)) d a s := by
  simp only [exec, execBge, alongThePipe, hp]

theorem exec_ble_atAdmission {s : State} (hp : s.point = .atAdmission) (d a b : Operand) :
    exec (.ble d a b) s = akCompare (fun x v => decide (x ≤ v)) d a s := by
  simp only [exec, execBle, alongThePipe, hp]

/-- Settles O18: both branches are admitted by one comparison, and its bound is the free value. -/
theorem branchBoundWithoutALiteralIsFree : Obligations.BranchBoundWithoutALiteralIsFree := by
  intro d a b s ha hp
  rw [exec_bge_atAdmission hp, exec_ble_atAdmission hp]
  constructor
  · simpa only [decide_eq_true_eq] using akCompare_decides_by_free ha (fun x v => decide (v ≤ x)) d s
  · simpa only [decide_eq_true_eq] using akCompare_decides_by_free ha (fun x v => decide (x ≤ v)) d s

end FreeBound

section Loaders

/-! ### The programs that the loaders take -/

theorem firstIllFormed_eq_none_iff (x : Option Nat) (lbl : List (Token × Nat)) (ib : List Slot) :
    firstIllFormed x lbl ib = none ↔ ∀ y ∈ ib, slotWf x lbl y = true := by
  simp [firstIllFormed, List.findIdx?_eq_none_iff]

/-- The machine right after reset with a program in its buffer (R47, R260). -/
def State.resetWith (c : Config) (ib : List Slot) (lbl : List (Token × Nat)) : State :=
  { State.reset with cfg := c, ib := ib, lbl := lbl }

/-- A buffer is loaded exactly where the parameters are legal, it is not empty and each slot is well-formed
(R100, R233, R262, U9). -/
theorem loadSlots_ok_iff {c : Config} {ib : List Slot} {lbl : List (Token × Nat)} {s : State} :
    loadSlots c ib lbl = .ok s ↔
      c.legal = true ∧ ib ≠ [] ∧ s.ProgramWf ∧ s = State.resetWith c ib lbl := by
  constructor
  · intro h
    unfold loadSlots at h
    split at h
    · next hlegal =>
      split at h
      · cases h
      · next hne =>
        split at h
        · cases h
        · next hwf =>
          cases h
          exact ⟨hlegal, by simpa using hne, (firstIllFormed_eq_none_iff _ _ _).1 hwf, rfl⟩
    · cases h
  · rintro ⟨hlegal, hne, hwf, rfl⟩
    have hfirst : firstIllFormed c.xlen lbl ib = none := (firstIllFormed_eq_none_iff _ _ _).2 hwf
    have hsome : ¬ ib.isEmpty = true := by simpa using hne
    simp only [loadSlots, if_pos hlegal, if_neg hsome, hfirst]
    rfl

theorem quiet_resetWith (c : Config) (ib : List Slot) (lbl : List (Token × Nat)) : (State.resetWith c ib lbl).Quiet :=
  ⟨rfl, rfl, rfl, rfl, rfl, rfl, rfl, rfl⟩

/-- A loaded machine has not run yet: nothing is in flight and everything it stores is 0 (R47, R260). -/
theorem loadSlots_starts_fresh {c : Config} {ib : List Slot} {lbl : List (Token × Nat)} {s : State}
    (h : loadSlots c ib lbl = .ok s) :
    s.Quiet ∧ s.size ≠ 0 ∧ (∀ q, s.reg q = 0) ∧ (∀ a, s.memRead a = 0) ∧ s.retired = 0 ∧ s.cycle = 0 ∧
      s.rst = false ∧ s.events = [] := by
  obtain ⟨-, hne, -, rfl⟩ := loadSlots_ok_iff.1 h
  exact ⟨quiet_resetWith c ib lbl, fun hsize => hne (List.length_eq_zero_iff.1 hsize), reset_reg, fun _ => rfl, rfl, rfl,
    rfl, rfl⟩

/-- Settles O59: both loaders hand their slots to `loadSlots`. -/
theorem loaderAcceptsOnlyWellFormedPrograms : Obligations.LoaderAcceptsOnlyWellFormedPrograms := by
  intro c s
  refine ⟨fun rs => ?_, fun ws => ?_, fun rs ws h => ?_⟩
  · exact loadSlots_ok_iff.trans (by rw [ne_eq, List.map_eq_nil_iff]; rfl)
  · exact loadSlots_ok_iff.trans (by rw [ne_eq, List.map_eq_nil_iff]; rfl)
  · rcases h with h | h
    · exact loadSlots_starts_fresh h
    · exact loadSlots_starts_fresh h

end Loaders

section PlacedWord

/-! ### The placed word (entry 12) -/

theorem getElem?_putSlot (l : List Slot) (k : Nat) (x : Slot) : (putSlot l k x)[k]? = some x := by
  induction k generalizing l with
  | zero => cases l <;> rfl
  | succ k ih =>
    cases l with
    | nil => exact ih []
    | cons y l => exact ih l

/-- The decoder on a table word is the decoder at width 32, on a word of that many bits. -/
theorem decodeTableWord_some {nbits w : Nat} {i : Instr} (h : decodeTableWord nbits w = some i) :
    nbits ≤ 128 ∧ w < 2 ^ nbits ∧ decodeWord 32 w = .ok i := by
  unfold decodeTableWord at h
  split at h
  · cases h
  · next hfit =>
    split at h
    · next j hj =>
      cases h
      exact ⟨by omega, by omega, hj⟩
    · cases h

/-- The `pc` of the machine with a placed word is an index (entry 12). -/
theorem pcV_withFetchWord (s : State) (nbits w : Nat) : (s.withFetchWord nbits w).pcV = max 0 s.pcV := by
  have hregs : (s.withFetchWord nbits w).regs = if 0 ≤ s.pcV then s.regs else (s.setReg .pc 0).regs := rfl
  by_cases h : 0 ≤ s.pcV
  · rw [if_pos h] at hregs
    exact (reg_congr hregs .pc).trans (max_eq_right h).symm
  · rw [if_neg h] at hregs
    have hzero : (s.setReg .pc 0).reg .pc = 0 := by simp
    exact ((reg_congr hregs .pc).trans hzero).trans (max_eq_left (by omega)).symm

theorem fetch_withFetchWord (s : State) (nbits w : Nat) :
    (s.withFetchWord nbits w).fetch (s.withFetchWord nbits w).pcV = some (.word (w % 2 ^ min nbits 128) []) := by
  have hidx : (max 0 s.pcV).toNat = s.pcV.toNat := by omega
  rw [pcV_withFetchWord, State.fetch, if_pos (le_max_left 0 _), hidx]
  exact getElem?_putSlot _ _ _

/-- A machine whose `pc` finds a slot, with a cycle left, is not at the end of its run (R140, R141). -/
theorem ended_eq_false {s : State} {x : Slot} (hx : s.fetch s.pcV = some x) (hcap : s.cycle < s.cfg.cycleCap) :
    s.ended = false := by
  obtain ⟨h0, hsize⟩ := (fetch_isSome_iff s s.pcV).1 (Option.isSome_of_eq_some hx)
  have hne : s.size ≠ 0 := by omega
  have hpipe : ¬ (s.size : Int) ≤ s.pcV := by omega
  have hleft : ¬ s.cfg.cycleCap ≤ s.cycle := by omega
  simp [State.ended, State.emptyPipe, hne, hpipe, hleft]

theorem running_withFetchWord (s : State) (nbits w : Nat) : (s.withFetchWord nbits w).Running := by
  refine ⟨(config_legal_iff _).2 ⟨le_max_left 1 _, nofun⟩, rfl, ended_eq_false (fetch_withFetchWord s nbits w) ?_⟩
  exact lt_of_lt_of_le (Nat.lt_succ_self s.cycle) (le_max_right _ _)

/-- Where nothing is reserved no instruction is blocked (R125). -/
theorem blocked_eq_false {s : State} (h : s.res = []) (i : Instr) : s.blocked i = false := by
  simp [State.blocked, State.isReserved, h]

/-- Settles O60: the word is put where `pc` looks, and nothing is reserved. -/
theorem placedWordIsFetchedNext : Obligations.PlacedWordIsFetchedNext := by
  intro s nbits w i h
  obtain ⟨hbits, hfit, hdecode⟩ := decodeTableWord_some h
  refine ⟨_, fetch_withFetchWord s nbits w, ?_, running_withFetchWord s nbits w, rfl, blocked_eq_false rfl i⟩
  rw [min_eq_left hbits, Nat.mod_eq_of_lt hfit]
  exact hdecode

end PlacedWord

end Sys2Proof.Machine

/-! The assembler and the loader of one source agree (R104 to R107, R263). -/

namespace Sys2Proof.Machine

set_option autoImplicit false

section Assembler

/-! ### The word of a record -/

@[simp] theorem dst_mapOperands (f : Operand → Operand) (i : Instr) : (mapOperands f i).dst = f i.dst := by
  cases i <;> rfl

@[simp] theorem op1_mapOperands (f : Operand → Operand) (i : Instr) : (mapOperands f i).op1 = f i.op1 := by
  cases i <;> rfl

@[simp] theorem op2_mapOperands (f : Operand → Operand) (i : Instr) : (mapOperands f i).op2 = f i.op2 := by
  cases i <;> rfl

theorem numbered_numberName (names : List Token) (m : RegName) : (numberName names m).numbered = true := by
  cases m <;> rfl

/-- What the assembler puts in the place of an operand has a descriptor (R105, R106). -/
theorem encodable_numberOperand {n : Nat} (hn : 1 ≤ n) (names : List Token) (o : Operand) :
    (numberOperand n names o).encodable n = true := by
  have hfits : ∀ v, fitsVal n (wrap (some n) v) = true := fun v => (fitsVal_iff hn _).2 (inRange_wrap _ v)
  cases o with
  | absent => rfl
  | reg m => exact numbered_numberName names m
  | regOff off m text => simp [numberOperand, Operand.encodable, numbered_numberName, hfits]
  | imm v text => simp [numberOperand, Operand.encodable, hfits]
  | label target text =>
    cases target with
    | none => rfl
    | some t => simp [numberOperand, Operand.encodable, hfits]

/-- The word of an instruction in an image decodes to it, its names numbered and its values wrapped
(R90, R106, R107). -/
theorem decodeWord_imageWord {n : Nat} (hn : 1 ≤ n) (names : List Token) (i : Instr) :
    decodeWord n (imageWord n names i) = .ok (mapOperands (numberOperand n names) i) := by
  refine decodeOfEncodeIsTheInstruction n _ hn ?_
  simp [Instr.encodable, encodable_numberOperand hn]

/-- Up to 13 unknown names get a number each (R106). -/
theorem numberName_inj {names : List Token} (h : hasImage names = true) {a b : Token} (ha : a ∈ names) (hb : b ∈ names)
    (heq : numberName names (.tok a) = numberName names (.tok b)) : a = b := by
  have hlen : names.length ≤ 13 := of_decide_eq_true h
  have hidxa := List.idxOf_lt_length_of_mem ha
  have hidxb := List.idxOf_lt_length_of_mem hb
  have hmod : names.idxOf a % 13 = names.idxOf b % 13 := congrArg Fin.val (RegName.num.inj heq)
  rw [Nat.mod_eq_of_lt (by omega), Nat.mod_eq_of_lt (by omega)] at hmod
  exact (List.idxOf_inj ha).1 hmod

theorem assemble_ok_iff {n : Nat} {p : Program} {ws : List Nat} : assemble n p = .ok ws ↔
    hasImage (unknownNames p.instrs) = true ∧ ws = p.instrs.map (imageWord n (unknownNames p.instrs)) := by
  unfold assemble
  split
  · next h => simp [h, eq_comm]
  · next h => simp [h]

/-! ### The records of a loaded program -/

/-- The instruction of a record of the program, its labels resolved (R97 (f)). -/
def Program.instrOf (p : Program) (r : Record) : Instr :=
  instrOfMnemonic r.mn (operandOf p.lbl r.dst) (operandOf p.lbl r.op1) (operandOf p.lbl r.op2)

theorem Program.instrs_eq (p : Program) : p.instrs = p.ib.map p.instrOf := rfl

/-- The reset machine that holds a program of records (R96, R260). -/
abbrev Program.machine (p : Program) (c : Config) : State := State.resetWith c (p.ib.map Slot.record) p.lbl

/-- A record with a mnemonic is decoded to its instruction (R88, R91). -/
theorem Program.decode_machine {p : Program} {r : Record} (h : r.mn ≠ []) (c : Config) :
    (p.machine c).decode (.record r) = .ok (p.instrOf r) :=
  if_neg (by simpa using h)

/-- The machine that holds a program has the program's instructions. -/
theorem Program.instrs_machine {p : Program} (h : ∀ r ∈ p.ib, r.mn ≠ []) (c : Config) :
    (p.machine c).instrs = p.instrs := by
  have hdecode : ∀ r ∈ p.ib, ((p.machine c).decode (.record r)).toOption = some (p.instrOf r) := fun r hr => by
    rw [decode_machine (h r hr)]
    rfl
  calc (p.machine c).instrs
      = p.ib.filterMap (fun r => ((p.machine c).decode (.record r)).toOption) := List.filterMap_map
    _ = p.ib.map p.instrOf := List.filterMap_eq_map_iff_forall_eq_some.2 hdecode

/-- `ib_word` shows for a record the word of its instruction in the image (R263, entry 28). -/
theorem slotWord_record {s : State} {r : Record} {n : Nat} {i : Instr} (hn : s.cfg.xlen = some n)
    (hi : s.decode (.record r) = .ok i) (himage : hasImage (unknownNames s.instrs) = true) :
    s.slotWord (.record r) = some (imageWord n (unknownNames s.instrs) i) := by
  simp only [State.slotWord, hn, hi, himage, if_true]

/-- The words that a machine shows for the records of its program are the assembled image (R263, entry 28). -/
theorem Program.slotWords_machine {p : Program} (h : ∀ r ∈ p.ib, r.mn ≠ []) {c : Config} {n : Nat}
    (hn : c.xlen = some n) (himage : hasImage (unknownNames p.instrs) = true) :
    (p.machine c).ib.map (p.machine c).slotWord =
      (p.instrs.map (imageWord n (unknownNames p.instrs))).map some := by
  have hinstrs := instrs_machine h c
  have hword : ∀ r ∈ p.ib, (p.machine c).slotWord (.record r) =
      some (imageWord n (unknownNames p.instrs) (p.instrOf r)) := fun r hr => by
    have hslot := slotWord_record hn (decode_machine (h r hr) c) (hinstrs.symm ▸ himage)
    rwa [hinstrs] at hslot
  calc (p.machine c).ib.map (p.machine c).slotWord
      = p.ib.map (fun r => (p.machine c).slotWord (.record r)) := List.map_map
    _ = p.ib.map (fun r => some (imageWord n (unknownNames p.instrs) (p.instrOf r))) := List.map_congr_left hword
    _ = (p.instrs.map (imageWord n (unknownNames p.instrs))).map some := by
      simp only [instrs_eq, List.map_map, Function.comp_def]

theorem mn_ne_nil_of_mem_ofRecords {rs : List RawRecord} {r : Record} (h : r ∈ (Program.ofRecords rs).ib) :
    r.mn ≠ [] := by
  obtain ⟨k, hk⟩ := List.mem_iff_getElem?.1 h
  exact ((Program.Sound.empty.foldl_append rs).numbered k r hk).2

/-- Settles O56: an image word is an encoded instruction, and the loaded machine has the program's instructions. -/
theorem assembledWordsDecodeToTheirRecords : Obligations.AssembledWordsDecodeToTheirRecords := by
  intro n p ws hn h
  obtain ⟨himage, rfl⟩ := assemble_ok_iff.1 h
  refine ⟨?_, fun a ha b hb => numberName_inj himage ha hb, ?_⟩
  · simp only [List.map_map, Function.comp_def, decodeWord_imageWord hn]
  · rintro c rs s hload hc rfl
    obtain ⟨-, -, -, rfl⟩ := loadSlots_ok_iff.1 hload
    exact Program.slotWords_machine (fun _ => mn_ne_nil_of_mem_ofRecords) hc himage

end Assembler

end Sys2Proof.Machine

/-! The controller (R120 to R132): the steps of the falling edge, the hazard check, and the cycle as calls of `exec`. -/

namespace Sys2Proof.Machine

set_option autoImplicit false

section Controller

/-! ### Steps N3, N2 and N1 -/

/-- Settles O2: step N3 has one guard. -/
theorem stageThreeTakesACompletedInstruction : Obligations.StageThreeTakesACompletedInstruction := by
  intro s
  rcases stepN3_cases s with ⟨d, hfree, hcnt, hout, hs⟩ | ⟨hguard, hs⟩
  · refine ⟨fun _ _ _ => by rw [hs, hout]; exact ⟨rfl, rfl, rfl⟩, ?_⟩
    rintro (h | h | h)
    · exact absurd hfree h
    · exact absurd hcnt h
    · exact absurd (hout.symm.trans h) (Option.some_ne_none d)
  · exact ⟨fun hfree hcnt hout => absurd ⟨hfree, hcnt, hout⟩ hguard, fun _ => hs⟩

/-- Settles O3: step N2 has one guard. -/
theorem stageTwoTakesAnInstruction : Obligations.StageTwoTakesAnInstruction := by
  intro s
  rcases stepN2_cases s with ⟨d, hfree, hout, hs⟩ | ⟨hguard, hs⟩
  · refine ⟨fun _ _ => by rw [hs, hout]; exact ⟨rfl, rfl, rfl⟩, ?_⟩
    rintro (h | h)
    · exact absurd hfree h
    · exact absurd (hout.symm.trans h) (Option.some_ne_none d)
  · exact ⟨fun hfree hout => absurd ⟨hfree, hout⟩ hguard, fun _ => hs⟩

/-! ### The hazard check (R94, R125) -/

/-- The registers an operand reads: itself, or the base of a register-offset (R94). -/
theorem mem_regsOf {o : Operand} {m : ResName} :
    m ∈ regsOf o ↔ ∃ n, m = .name n ∧ (o = .reg n ∨ ∃ off text, o = .regOff off n text) := by
  cases o <;> simp [regsOf, eq_comm]

/-- `dst` is read where it is a register and the instruction does not write back (R94). -/
theorem mem_dstHazard {wb : Bool} {dst : Operand} {m : ResName} :
    m ∈ dstHazard wb dst ↔ wb = false ∧ ∃ n, m = .name n ∧ dst = .reg n := by
  cases wb <;> cases dst <;> simp [dstHazard, eq_comm]

/-- The three terms of the hazard check (R125). -/
theorem blocked_iff (s : State) (i : Instr) : s.blocked i = true ↔
    pcName ∈ s.res ∨ (i.wb = true ∧ nameOf i.dst ∈ s.res) ∨ ∃ m ∈ hazardReadRegisters i, m ∈ s.res := by
  simp [State.blocked, isReserved_iff, or_assoc]

theorem mem_hazardReadRegisters {i : Instr} {m : ResName} :
    m ∈ hazardReadRegisters i ↔ m ∈ dstHazard i.wb i.dst ∨ m ∈ regsOf i.op1 ∨ m ∈ regsOf i.op2 := by
  simp [hazardReadRegisters]

/-- Settles O4: the registers read are those of `dst`, of `op1` and of `op2`. -/
theorem blockedExactlyByThreeHazards : Obligations.BlockedExactlyByThreeHazards := by
  intro s i
  rw [blocked_iff]
  refine or_congr_right (or_congr_right ?_)
  simp only [mem_hazardReadRegisters, mem_dstHazard, mem_regsOf]
  constructor
  · rintro ⟨_, ⟨hwb, n, rfl, hdst⟩ | ⟨n, rfl, h1⟩ | ⟨n, rfl, h2⟩, hres⟩
    · exact .inl ⟨n, hwb, hdst, hres⟩
    · exact .inr ⟨n, h1.imp_right (.inr ∘ .inl), hres⟩
    · exact .inr ⟨n, .inr (h2.imp_right .inr), hres⟩
  · rintro (⟨n, hwb, hdst, hres⟩ | ⟨n, h1 | h2 | h1 | h2, hres⟩)
    · exact ⟨_, .inl ⟨hwb, n, rfl, hdst⟩, hres⟩
    · exact ⟨_, .inr (.inl ⟨n, rfl, .inl h1⟩), hres⟩
    · exact ⟨_, .inr (.inr ⟨n, rfl, .inl h2⟩), hres⟩
    · exact ⟨_, .inr (.inl ⟨n, rfl, .inr h1⟩), hres⟩
    · exact ⟨_, .inr (.inr ⟨n, rfl, .inr h2⟩), hres⟩

/-- A candidate that the hazard check lets through is admitted (R124). -/
theorem considerSlot_of_ok {s : State} {x : Slot} {i : Instr} (hi : s.decode x = .ok i) (hb : s.blocked i = false) :
    considerSlot x s = callAt .atAdmission i s := by
  simp [considerSlot, hi, hb]

theorem considerSlot_of_blocked {s : State} {x : Slot} {i : Instr} (hi : s.decode x = .ok i)
    (hb : s.blocked i = true) : considerSlot x s = .next s := by
  simp only [considerSlot, hi, if_pos hb]

/-- While `pc` is reserved no slot is admitted, whether it has an instruction or not (R125, R268). -/
theorem considerSlot_of_pc_reserved {s : State} (h : pcName ∈ s.res) (x : Slot) : considerSlot x s = .next s := by
  cases hx : s.decode x with
  | ok i => exact considerSlot_of_blocked hx ((blocked_iff s i).2 (.inl h))
  | error e => simp only [considerSlot, hx, if_pos ((isReserved_iff s [pcName]).2 ⟨pcName, by simp, h⟩)]

/-- Step N1 is held back: stage 1 is occupied, `pc` has left the buffer, or `pc` is reserved (R124, R268). -/
def State.HeldBack (s : State) : Prop := s.s1In ≠ none ∨ s.fetch s.pcV = none ∨ pcName ∈ s.res

theorem stepN1_of_heldBack {s : State} (h : s.HeldBack) : stepN1 s = .next s := by
  by_cases hfree : s.s1In = none
  · cases hx : s.fetch s.pcV with
    | none => simp only [stepN1, hx, ite_self]
    | some x =>
      rw [stepN1_of_candidate hfree hx]
      rcases h with h | h | h
      · exact absurd hfree h
      · exact absurd (hx.symm.trans h) (Option.some_ne_none x)
      · exact considerSlot_of_pc_reserved h x
  · exact if_neg hfree

/-- Settles O5: step N1 is held back, or its candidate is blocked. -/
theorem nothingIsAdmittedWhileHeldBack : Obligations.NothingIsAdmittedWhileHeldBack := by
  intro s
  refine ⟨fun h => stepN1_of_heldBack (.inl h), fun h => stepN1_of_heldBack (.inr (.inl h)),
    fun h => stepN1_of_heldBack (.inr (.inr h)), fun x i hx hi hb => ?_⟩
  by_cases hfree : s.s1In = none
  · rw [stepN1_of_candidate hfree hx, considerSlot_of_blocked hi hb]
  · exact stepN1_of_heldBack (.inl hfree)

/-! ### The cycle (R120, R121, R128) -/

/-- Settles O13: `emptyPipe` tests these three. -/
theorem emptyPipeLooksAtPcAndTwoLatches : Obligations.EmptyPipeLooksAtPcAndTwoLatches := by
  intro s
  simp only [State.emptyPipe, Bool.and_eq_true, decide_eq_true_eq, Option.isNone_iff_eq_none, and_assoc]
  rfl

/-- A step of a running machine is a cycle (R120, R140). -/
theorem step_of_running {s : State} (h : s.Running) : step s = clockCycle s := by
  obtain ⟨hlegal, hrst, hended⟩ := h
  simp [step, driverStep, hlegal, hrst, hended]

/-- What steps N3 and N2 leave of a state (R122, R123): everything but the latches from the output of stage 1 on. -/
theorem stepN2_stepN3_frame (s : State) : stepN2 (stepN3 s) = { s with
    s1Out := (stepN2 (stepN3 s)).s1Out
    s2In := (stepN2 (stepN3 s)).s2In
    s2Out := (stepN2 (stepN3 s)).s2Out
    s3In := (stepN2 (stepN3 s)).s3In } := by
  rcases stepN3_cases s with ⟨d, -, -, -, h3⟩ | ⟨-, h3⟩ <;>
    rcases stepN2_cases (stepN3 s) with ⟨e, -, -, h2⟩ | ⟨-, h2⟩ <;> rw [h2, h3]

/-- Steps N3 and N2 leave the candidate and the hazard check as they are, so step N1 of an unblocked candidate with
stage 1 free is its admission (R121, R124). -/
theorem stepN1_admits_candidate {s : State} {x : Slot} {i : Instr} (hfree : s.s1In = none)
    (hx : s.fetch s.pcV = some x) (hi : s.decode x = .ok i) (hb : s.blocked i = false) :
    stepN1 (stepN2 (stepN3 s)) = callAt .atAdmission i (stepN2 (stepN3 s)) := by
  rw [stepN2_stepN3_frame s]
  exact Eq.trans (stepN1_of_candidate hfree hx) (considerSlot_of_ok hi hb)

/-- A meaning at a plug-in point, followed by a later part of the cycle. -/
theorem andThen_callAt (p : Point) (i : Instr) (s : State) (f : State → Out) :
    andThen (callAt p i s) f = andThen (exec i { s with point := p }) fun t => f { t with point := s.point } := by
  unfold callAt
  cases exec i { s with point := p } <;> rfl

theorem stepP3_of_empty {s : State} (h : s.s3In = none) : stepP3 s = .next s := by simp only [stepP3, h]

theorem stepP2_of_empty {s : State} (h : s.s2In = none) : stepP2 s = .next s := by simp only [stepP2, h]

theorem stepP1_of_idle {s : State} (h : s.s1In = none ∨ s.s1Out ≠ none) : stepP1 s = .next s := by
  unfold stepP1
  split
  · next d hd hout => exact absurd h (by simp [hd, hout])
  · rfl

theorem stepP3_of_latched {s : State} {d : Decoded} {x : Slot} {i : Instr} (h : s.s3In = some d)
    (hx : s.fetch d.idx = some x) (hi : s.decode x = .ok i) : stepP3 s = callAt .atCommit i s := by
  simp only [stepP3, h, withInstr_of hx hi]

theorem stepP2_of_latched {s : State} {d : Decoded} {x : Slot} {i : Instr} (h : s.s2In = some d)
    (hx : s.fetch d.idx = some x) (hi : s.decode x = .ok i) : stepP2 s = callAt .atExecute i s := by
  simp only [stepP2, h, withInstr_of hx hi]

theorem stepP1_of_latched {s : State} {d : Decoded} {x : Slot} {i : Instr} (h : s.s1In = some d) (hout : s.s1Out = none)
    (hx : s.fetch d.idx = some x) (hi : s.decode x = .ok i) : stepP1 s = callAt .atOperands i s := by
  simp only [stepP1, h, hout, withInstr_of hx hi]

/-- Settles O1: a cycle is its six steps, and each of N1, P3, P2 and P1 is a call of `exec` where it does something. -/
theorem stepRunsTheDecodedInstruction : Obligations.StepRunsTheDecodedInstruction := by
  refine ⟨fun s hrun => ⟨step_of_running hrun, fun x i hfree hx hi hb => ?_⟩, fun u => ⟨rfl, fun d x i hx hi => ?_,
    stepP3_of_empty, stepP2_of_empty, stepP1_of_idle⟩⟩
  · rw [step_of_running hrun]
    have hadmit := stepN1_admits_candidate (s := s.nextCycle.emit (.clk false)) hfree hx hi hb
    have hpoint : (stepN2 (stepN3 (s.nextCycle.emit (.clk false)))).point = s.point := by
      rw [stepN2_stepN3_frame]
      rfl
    unfold clockCycle negedge
    rw [hadmit, andThen_callAt, hpoint]
  · exact ⟨fun h => stepP3_of_latched h hx hi, fun h => stepP2_of_latched h hx hi,
      fun h hout => stepP1_of_latched h hout hx hi⟩

end Controller

end Sys2Proof.Machine

/-! The invariant of the latches and of the countdown (R143 (a) to (d), R37). -/

namespace Sys2Proof.Machine

set_option autoImplicit false

section Latches

/-! ### Stage 2 between the steps of a cycle -/

/-- A memory instruction that counts down in stage 2 and shows as a peek (R131, R190). -/
abbrev State.Counting (s : State) (d : Decoded) : Prop :=
  s.s2In = some d ∧ 0 < s.lsuCnt ∧ s.s2Out = some d ∧ d.stalled = true ∧ s.memoryAt d.idx = true

/-- Stage 2 after step P2, and again up to step N2: an access counts down, or nothing waits in it (R143 (c)). -/
abbrev State.Stage2Settled (s : State) : Prop := (∃ d, s.Counting d) ∨ (s.s2In = none ∧ s.lsuCnt = 0)

/-- Stage 2 after step N2: an access counts down, or the output is empty and what has come in, if anything, has
started no access (R122, R123). -/
abbrev State.Stage2Loaded (s : State) : Prop :=
  (∃ d, s.Counting d) ∨ (s.s2Out = none ∧ s.lsuCnt = 0 ∧ ∀ d ∈ s.s2In, d.stalled = false)

/-- The part of the invariant that every step of a cycle keeps (R34, R37). -/
structure LatchBounds (s : State) : Prop where
  legal : 1 ≤ s.cfg.lsuDelay
  stage3OutEmpty : s.s3Out = none
  countdownBound : s.lsuCnt ≤ s.cfg.lsuDelay
  fresh1 : ∀ d ∈ s.s1In, d.stalled = false
  fresh2 : ∀ d ∈ s.s1Out, d.stalled = false

theorem PipeInv.settled {s : State} (h : PipeInv s) : s.Stage2Settled := by
  cases h2 : s.s2In with
  | none => exact .inr ⟨h2, h.countdownIdle h2⟩
  | some d => exact .inl ⟨d, h2, h.stage2Waits d h2⟩

theorem PipeInv.bounds {s : State} (h : PipeInv s) (hlegal : 1 ≤ s.cfg.lsuDelay) : LatchBounds s :=
  ⟨hlegal, h.stage3OutEmpty, h.countdownBound, h.fresh1, h.fresh2⟩

theorem PipeInv.of_settled {s : State} (h3 : s.s3In = none) (h1 : s.s1In ≠ none → s.s1Out ≠ none)
    (h2 : s.Stage2Settled) (h : LatchBounds s) : PipeInv s where
  stage3Empty := h3
  stage3OutEmpty := h.stage3OutEmpty
  stage1Waits := h1
  stage2Waits d hd := by
    rcases h2 with ⟨e, he, hwait⟩ | ⟨hnone, -⟩
    · cases hd.symm.trans he
      exact hwait
    · cases hd.symm.trans hnone
  countdownIdle hnone := by
    rcases h2 with ⟨e, he, -⟩ | ⟨-, hcnt⟩
    · cases he.symm.trans hnone
    · exact hcnt
  countdownBound := h.countdownBound
  fresh1 := h.fresh1
  fresh2 := h.fresh2

theorem LatchBounds.nextCycle {s : State} (h : LatchBounds s) : LatchBounds s.nextCycle :=
  ⟨h.legal, h.stage3OutEmpty, h.countdownBound, h.fresh1, h.fresh2⟩

theorem LatchBounds.emit {s : State} (h : LatchBounds s) (e : Event) : LatchBounds (s.emit e) :=
  ⟨h.legal, h.stage3OutEmpty, h.countdownBound, h.fresh1, h.fresh2⟩

/-! ### The falling edge -/

/-- Step N3 takes what has completed, so that stage 2 is empty unless an access counts down (R122). -/
theorem PipeInv.stepN3 {s : State} (h : PipeInv s) : (∃ d, (stepN3 s).Counting d) ∨
    ((stepN3 s).s2In = none ∧ (stepN3 s).s2Out = none ∧ (stepN3 s).lsuCnt = 0) := by
  rcases h.settled with ⟨d, hd⟩ | ⟨hin, hcnt⟩
  · rcases stepN3_cases s with ⟨e, -, hcnt, -⟩ | ⟨-, hs⟩
    · exact absurd hcnt hd.2.1.ne'
    · rw [hs]
      exact .inl ⟨d, hd⟩
  · rcases stepN3_cases s with ⟨e, -, -, -, hs⟩ | ⟨hguard, hs⟩
    · rw [hs]
      exact .inr ⟨hin, rfl, hcnt⟩
    · rw [hs]
      exact .inr ⟨hin, by_contra fun hout => hguard ⟨h.stage3Empty, hcnt, hout⟩, hcnt⟩

theorem LatchBounds.stepN3 {s : State} (h : LatchBounds s) : LatchBounds (stepN3 s) := by
  rcases stepN3_cases s with ⟨d, -, -, -, hs⟩ | ⟨-, hs⟩
  · rw [hs]
    exact ⟨h.legal, h.stage3OutEmpty, h.countdownBound, h.fresh1, h.fresh2⟩
  · rw [hs]
    exact h

theorem LatchBounds.stepN2 {s : State} (h : LatchBounds s) : LatchBounds (stepN2 s) := by
  rcases stepN2_cases s with ⟨d, -, -, hs⟩ | ⟨-, hs⟩
  · rw [hs]
    exact ⟨h.legal, h.stage3OutEmpty, h.countdownBound, h.fresh1, nofun⟩
  · rw [hs]
    exact h

/-- Step N2 fills an empty stage 2 from stage 1, where no access has been started (R123). -/
theorem PipeInv.stage2Loaded {s : State} (h : PipeInv s) : (stepN2 (Machine.stepN3 s)).Stage2Loaded := by
  rcases h.stepN3 with ⟨d, hd⟩ | ⟨hin, hout, hcnt⟩
  · rcases stepN2_cases (Machine.stepN3 s) with ⟨e, hin, -⟩ | ⟨-, hs⟩
    · cases hd.1.symm.trans hin
    · rw [hs]
      exact .inl ⟨d, hd⟩
  · rcases stepN2_cases (Machine.stepN3 s) with ⟨e, -, he, hs⟩ | ⟨-, hs⟩
    · have hfresh : ∀ d ∈ (Machine.stepN3 s).s1Out, d.stalled = false := by
        rcases stepN3_cases s with ⟨_, -, -, -, h3⟩ | ⟨-, h3⟩ <;> rw [h3] <;> exact h.fresh2
      rw [hs]
      refine .inr ⟨hout, hcnt, fun d hd => ?_⟩
      cases hd
      exact hfresh e he
    · rw [hs]
      exact .inr ⟨hout, hcnt, fun d hd => by cases hin.symm.trans hd⟩

/-- An admission leaves stage 2 alone and puts a fresh instruction into stage 1 (R36, R126). -/
theorem LatchBounds.stepN1 {s t : State} (h : LatchBounds s) (hs : s.Stage2Loaded) (hn : stepN1 s = .next t) :
    LatchBounds t ∧ t.Stage2Loaded := by
  rcases stepN1_admits hn with rfl | ⟨x, i, rl, regs, fc, -, -, -, -, -, -, rfl⟩
  · exact ⟨h, hs⟩
  · refine ⟨⟨h.legal, h.stage3OutEmpty, h.countdownBound, fun d hd => ?_, h.fresh2⟩, hs⟩
    cases hd
    rfl

/-! ### The rising edge -/

/-- A commit empties stage 3 and leaves the other latches alone (R129). -/
theorem LatchBounds.stepP3 {s t : State} (h : LatchBounds s) (hs : s.Stage2Loaded) (hp : stepP3 s = .next t) :
    LatchBounds t ∧ t.Stage2Loaded ∧ t.s3In = none := by
  rcases stepP3_commits hp with ⟨hempty, rfl⟩ | ⟨d, x, i, regs, -, -, -, rfl⟩
  · exact ⟨h, hs, hempty⟩
  · exact ⟨⟨h.legal, rfl, h.countdownBound, h.fresh1, h.fresh2⟩, hs, rfl⟩

/-- Step P2 writes stage 2, the countdown, memory and the count of free values (R130, R131, R190). -/
theorem stepP2_frame {s t : State} (h : stepP2 s = .next t) : t = { s with
    s2In := t.s2In, s2Out := t.s2Out, lsuCnt := t.lsuCnt, mem := t.mem, freeCtr := t.freeCtr } := by
  rcases stepP2_executes h with ⟨-, rfl⟩ | ⟨d, x, i, -, -, -, ⟨-, r, fc, -, -, rfl⟩ |
    ⟨-, ⟨-, rfl⟩ | ⟨-, -, rfl⟩ | ⟨-, -, -, a, -, rfl⟩ | ⟨-, -, -, a, v, -, -, rfl⟩⟩⟩ <;> rfl

/-- After step P2 an instruction is in stage 2 only while its access counts down, from `LSU_DELAY` (R131, R190). -/
theorem stepP2_settles {s t : State} (hb : LatchBounds s) (hs : s.Stage2Loaded) (h : stepP2 s = .next t) :
    t.Stage2Settled ∧ t.lsuCnt ≤ s.cfg.lsuDelay := by
  have hbound := hb.countdownBound
  rcases stepP2_executes h with ⟨hin, rfl⟩ | ⟨d, x, i, hd, hx, hi, hwork⟩
  · rcases hs with ⟨e, he, -⟩ | ⟨-, hcnt, -⟩
    · cases he.symm.trans hin
    · exact ⟨.inr ⟨hin, hcnt⟩, hbound⟩
  · have hinstr : s.instrAt d.idx = some i := instrAt_of hx hi
    have hmem : s.memoryAt d.idx = (i.st || i.ld) := by simp only [State.memoryAt, hinstr]
    rcases hwork with ⟨hplain, r, fc, -, -, rfl⟩ | ⟨hmemory, ⟨-, rfl⟩ | ⟨hstalled, hcnt, rfl⟩ |
      ⟨-, -, -, a, -, rfl⟩ | ⟨-, -, -, a, v, -, -, rfl⟩⟩
    · rcases hs with ⟨e, he, -, -, -, hcounts⟩ | ⟨-, hcnt, -⟩
      · cases hd.symm.trans he
        exact absurd (hmem.symm.trans hcounts) (by simp [hplain])
      · exact ⟨.inr ⟨rfl, hcnt⟩, hbound⟩
    · exact ⟨.inl ⟨_, rfl, hb.legal, rfl, rfl, hmem.trans hmemory⟩, le_rfl⟩
    · have hleft : 0 < s.lsuCnt - 1 := by omega
      exact ⟨.inl ⟨d, rfl, hleft, rfl, hstalled, hmem.trans hmemory⟩, (Nat.sub_le _ 1).trans hbound⟩
    · exact ⟨.inr ⟨rfl, rfl⟩, Nat.zero_le _⟩
    · exact ⟨.inr ⟨rfl, rfl⟩, Nat.zero_le _⟩

theorem LatchBounds.stepP2 {s t : State} (h : LatchBounds s) (hs : s.Stage2Loaded) (hp : stepP2 s = .next t) :
    LatchBounds t ∧ t.Stage2Settled ∧ t.s3In = s.s3In := by
  obtain ⟨hsettled, hbound⟩ := stepP2_settles h hs hp
  have hframe := stepP2_frame hp
  refine ⟨⟨?_, ?_, ?_, ?_, ?_⟩, hsettled, ?_⟩
  · rw [hframe]; exact h.legal
  · rw [hframe]; exact h.stage3OutEmpty
  · rw [hframe]; exact hbound
  · rw [hframe]; exact h.fresh1
  · rw [hframe]; exact h.fresh2
  · rw [hframe]

/-- Step P1 leaves an instruction in stage 1 only behind another one (R132). -/
theorem LatchBounds.stepP1 {s t : State} (h : LatchBounds s) (hp : stepP1 s = .next t) :
    LatchBounds t ∧ (t.s1In ≠ none → t.s1Out ≠ none) := by
  rcases stepP1_reads hp with ⟨hidle, rfl⟩ | ⟨d, x, i, hd, -, -, -, rfl⟩
  · exact ⟨h, fun hin => hidle.resolve_left hin⟩
  · refine ⟨⟨h.legal, h.stage3OutEmpty, h.countdownBound, nofun, fun e he => ?_⟩, fun hin => absurd rfl hin⟩
    cases he
    exact h.fresh1 d hd

theorem stepP1_leaves_stage2 {s t : State} (hp : stepP1 s = .next t) (hs : s.Stage2Settled) :
    t.Stage2Settled ∧ t.s3In = s.s3In := by
  rcases stepP1_reads hp with ⟨-, rfl⟩ | ⟨d, x, i, -, -, -, -, rfl⟩ <;> exact ⟨hs, rfl⟩

/-- Every cycle keeps the invariant of the latches: each step establishes what the next one relies on. -/
theorem PipeInv.clockCycle {s t : State} (h : PipeInv s) (hlegal : 1 ≤ s.cfg.lsuDelay) (hc : clockCycle s = .next t) :
    PipeInv t := by
  obtain ⟨n, p, q, hn, hp, hq, ht⟩ := clockCycle_next hc
  rw [stepN3_nextCycle_emit, stepN2_nextCycle_emit] at hn
  have hmoved : LatchBounds (stepN2 (Machine.stepN3 s)) := (h.bounds hlegal).stepN3.stepN2
  obtain ⟨hboundsN, hloadedN⟩ := (hmoved.nextCycle.emit _).stepN1 h.stage2Loaded hn
  obtain ⟨hboundsP, hloadedP, hemptyP⟩ := (hboundsN.emit _).stepP3 hloadedN hp
  obtain ⟨hboundsQ, hsettledQ, hemptyQ⟩ := hboundsP.stepP2 hloadedP hq
  obtain ⟨hboundsT, hwaits⟩ := hboundsQ.stepP1 ht
  obtain ⟨hsettledT, hemptyT⟩ := stepP1_leaves_stage2 ht hsettledQ
  exact .of_settled ((hemptyT.trans hemptyQ).trans hemptyP) hwaits hsettledT hboundsT

theorem toReset_pipeInv (s : State) : PipeInv s.toReset where
  stage3Empty := rfl
  stage3OutEmpty := rfl
  stage1Waits h := absurd rfl h
  stage2Waits _ h := nomatch h
  countdownIdle _ := rfl
  countdownBound := Nat.zero_le _
  fresh1 _ h := nomatch h
  fresh2 _ h := nomatch h

/-- Settles O46: reset empties the latches, an ended run keeps them, and a cycle keeps the invariant. -/
theorem pipelineInvariantIsKept : Obligations.PipelineInvariantIsKept := by
  intro s t h hstep
  obtain ⟨hlegal, ⟨-, rfl⟩ | ⟨-, -, rfl⟩ | ⟨-, -, hc⟩⟩ := step_next hstep
  · exact toReset_pipeInv s
  · exact h
  · exact h.clockCycle ((config_legal_iff _).1 hlegal).1 hc

end Latches

end Sys2Proof.Machine

/-! The reservations of the instructions in flight (R143 (e)), what the empty pipe means (R143 (f)), and the
retirement of a cycle (R129, R241 to R245). -/

namespace Sys2Proof.Machine

set_option autoImplicit false

section Reservations

/-! ### A set of names as a disjoint union -/

/-- A reservation set is the disjoint union of these lists, each name once (R33). -/
structure DisjointUnion (res : List ResName) (ls : List (List ResName)) : Prop where
  once : res.Nodup
  union : ∀ n, n ∈ res ↔ ∃ l ∈ ls, n ∈ l
  disjoint : ls.Pairwise (fun l m => ∀ n ∈ l, n ∉ m)

/-- Names that were free join the union as one more list (R30). -/
theorem DisjointUnion.reserve {res : List ResName} {ls : List (List ResName)} (h : DisjointUnion res ls)
    {l : List ResName} (hl : ∀ n ∈ l, n ∉ res) : DisjointUnion (l.foldl addName res) (l :: ls) where
  once := nodup_foldl_addName h.once l
  union n := by rw [mem_foldl_addName, h.union, List.exists_mem_cons_iff, or_comm]
  disjoint := List.pairwise_cons.2 ⟨fun m hm n hn hnm => hl n hn ((h.union n).2 ⟨m, hm, hnm⟩), h.disjoint⟩

/-- The last list leaves the union with its names, which no other list holds (R31). -/
theorem DisjointUnion.release {res : List ResName} {ls : List (List ResName)} {l : List ResName}
    (h : DisjointUnion res (ls ++ [l])) : DisjointUnion (res.filter (fun n => decide (n ∉ l))) ls := by
  obtain ⟨hls, -, hlast⟩ := List.pairwise_append.1 h.disjoint
  refine ⟨h.once.filter _, fun n => ?_, hls⟩
  rw [List.mem_filter, decide_eq_true_eq, h.union]
  constructor
  · rintro ⟨⟨m, hm, hn⟩, hnl⟩
    rcases List.mem_append.1 hm with hm | hm
    · exact ⟨m, hm, hn⟩
    · exact absurd hn (List.mem_singleton.1 hm ▸ hnl)
  · rintro ⟨m, hm, hn⟩
    exact ⟨⟨m, List.mem_append_left _ hm, hn⟩, hlast m hm l (List.mem_singleton_self l) n hn⟩

/-- What each instruction in flight has reserved, the oldest last (R33). -/
def State.claims (s : State) : List (List ResName) := s.inFlight.map Decoded.reserved

theorem reservationInv_iff {s : State} : ReservationInv s ↔ DisjointUnion s.res s.claims := by
  constructor
  · intro h
    exact ⟨h.once, fun n => (h.union n).trans (by simp [State.claims]), List.pairwise_map.2 h.disjoint⟩
  · intro h
    exact ⟨h.once, fun n => (h.union n).trans (by simp [State.claims]), List.pairwise_map.1 h.disjoint⟩

/-! ### The instructions in flight along a cycle -/

/-- Step N3 moves an instruction that is in flight before and after (R122). -/
theorem PipeInv.claims_stepN3 {s : State} (h : PipeInv s) : (Machine.stepN3 s).claims = s.claims := by
  rcases stepN3_cases s with ⟨d, h3, hcnt, hout, hs⟩ | ⟨-, hs⟩
  · have hin : s.s2In = none := by
      rcases h.settled with ⟨e, he⟩ | ⟨hin, -⟩
      · exact absurd hcnt he.2.1.ne'
      · exact hin
    rw [hs]
    simp [State.claims, State.inFlight, h3, hout, hin]
  · rw [hs]

/-- Step N2 moves an instruction that is in flight before and after, and hides none behind it (R123). -/
theorem PipeInv.claims_stepN2 {s : State} (h : PipeInv s) :
    (stepN2 (Machine.stepN3 s)).claims = (Machine.stepN3 s).claims := by
  rcases stepN2_cases (Machine.stepN3 s) with ⟨d, hin, h1, hs⟩ | ⟨-, hs⟩
  · have hout : (Machine.stepN3 s).s2Out = none := by
      rcases h.stepN3 with ⟨e, he, -⟩ | ⟨-, hout, -⟩
      · cases he.symm.trans hin
      · exact hout
    rw [hs]
    simp [State.claims, State.inFlight, h1, hout, hin]
  · rw [hs]

theorem eq_reg_of_isReg {o : Operand} (h : o.isReg = true) : ∃ n, o = .reg n := by
  cases o with
  | reg n => exact ⟨n, rfl⟩
  | _ => cases h

/-- What an unblocked candidate that is well-formed reserves at its admission was free (R125, R126). -/
theorem AdmissionNames.free {s : State} {i : Instr} {rl : List ResName} (h : AdmissionNames i rl) (hwf : i.wf = true)
    (hb : s.blocked i = false) : ∀ n ∈ rl, n ∉ s.res := by
  have hopen : ¬ s.blocked i = true := by simp [hb]
  rw [blocked_iff, not_or, not_or] at hopen
  obtain ⟨hpc, hdst, hread⟩ := hopen
  rcases h with ⟨rfl, -⟩ | ⟨rfl, hwb⟩ | ⟨rfl, hwb, hreg⟩
  · exact fun n hn => absurd hn List.not_mem_nil
  · intro n hn hres
    cases List.mem_singleton.1 hn
    exact hdst ⟨hwb, hres⟩
  · intro n hn hres
    rcases List.mem_pair.1 hn with rfl | rfl
    · obtain ⟨m, hm⟩ := eq_reg_of_isReg (hreg hwf)
      rw [hm] at hres
      exact hread ⟨.name m, mem_hazardReadRegisters.2 (.inl (mem_dstHazard.2 ⟨hwb, m, rfl, hm⟩)), hres⟩
    · exact hpc hres

/-- A candidate of a well-formed program is well-formed (R100). -/
theorem State.ProgramWf.candidate {s : State} (h : s.ProgramWf) {a : Int} {x : Slot} {i : Instr}
    (hx : s.fetch a = some x) (hi : s.decode x = .ok i) : i.wf = true := by
  have hmem : x ∈ s.ib := by
    unfold State.fetch at hx
    split at hx
    · exact List.mem_of_getElem? hx
    · cases hx
  have hslot := h x hmem
  unfold slotWf at hslot
  rw [show slotInstr s.cfg.xlen s.lbl x = .ok i from hi] at hslot
  exact hslot

/-- An admission reserves free names for the instruction it brings into flight (R126). -/
theorem stepN1_reserves {s t : State} (hwf : s.ProgramWf) (hu : DisjointUnion s.res s.claims)
    (h : stepN1 s = .next t) : DisjointUnion t.res t.claims := by
  rcases stepN1_admits h with rfl | ⟨x, i, rl, regs, fc, hfree, hx, hi, hb, hnames, -, rfl⟩
  · exact hu
  · have hclaims : State.claims { s with
        regs := regs, res := rl.foldl addName s.res, s1In := some (Decoded.fresh s.pcV rl), freeCtr := fc } =
        rl :: s.claims := by
      simp [State.claims, State.inFlight, hfree, Decoded.fresh]
    rw [hclaims]
    exact hu.reserve (AdmissionNames.free hnames (hwf.candidate hx hi) hb)

/-- A commit takes the oldest instruction out of flight and releases what it reserved (R129). -/
theorem stepP3_releases {s t : State} (hu : DisjointUnion s.res s.claims) (h : stepP3 s = .next t) :
    DisjointUnion t.res t.claims := by
  rcases stepP3_commits h with ⟨-, rfl⟩ | ⟨d, x, i, regs, hd, -, -, rfl⟩
  · exact hu
  · have hclaims : s.claims = (({ s with regs := regs } : State).retire d).claims ++ [d.reserved] := by
      simp [State.claims, State.inFlight, hd]
    rw [hclaims] at hu
    exact hu.release

/-- The stage 2 work changes no reservation; the peek is the instruction it shows (R131). -/
theorem stepP2_claims {s t : State} (h : stepP2 s = .next t) : t.claims = s.claims := by
  rcases stepP2_executes h with ⟨-, rfl⟩ | ⟨d, x, i, hd, -, -, ⟨-, r, fc, -, -, rfl⟩ |
    ⟨-, ⟨-, rfl⟩ | ⟨-, -, rfl⟩ | ⟨-, -, -, a, -, rfl⟩ | ⟨-, -, -, a, v, -, -, rfl⟩⟩⟩
  · rfl
  all_goals simp [State.claims, State.inFlight, hd]

theorem stepP1_claims {s t : State} (h : stepP1 s = .next t) : t.claims = s.claims ∧ t.res = s.res := by
  rcases stepP1_reads h with ⟨-, rfl⟩ | ⟨d, x, i, hd, hout, -, -, rfl⟩
  · exact ⟨rfl, rfl⟩
  · exact ⟨by simp [State.claims, State.inFlight, hd, hout], rfl⟩

/-- The program of a state that a part of a cycle leaves is the program before it (R42). -/
theorem PartOfCycle.programWf {k : Nat} {s t : State} (h : PartOfCycle k s t) (hwf : s.ProgramWf) : t.ProgramWf := by
  rw [State.ProgramWf, h.ib, h.cfg, h.lbl]
  exact hwf

/-- Every cycle of a well-formed program keeps the invariant of the reservations. -/
theorem ReservationInv.clockCycle {s t : State} (h : ReservationInv s) (hwf : s.ProgramWf) (hpipe : PipeInv s)
    (hc : clockCycle s = .next t) : ReservationInv t := by
  obtain ⟨n, p, q, hn, hp, hq, ht⟩ := clockCycle_next hc
  rw [stepN3_nextCycle_emit, stepN2_nextCycle_emit] at hn
  have hres : (stepN2 (stepN3 s)).res = s.res := by rw [stepN2_stepN3_frame]
  have hmoved : DisjointUnion (stepN2 (stepN3 s)).res (stepN2 (stepN3 s)).claims := by
    rw [hres, hpipe.claims_stepN2, hpipe.claims_stepN3]
    exact reservationInv_iff.1 h
  have hprogram : (stepN2 (stepN3 s)).ProgramWf :=
    (stepN2_partOfCycle _).programWf ((stepN3_partOfCycle s).programWf hwf)
  have hadmitted : DisjointUnion n.res n.claims :=
    stepN1_reserves (s := (stepN2 (stepN3 s)).nextCycle.emit (.clk false)) hprogram hmoved hn
  have hcommitted : DisjointUnion p.res p.claims := stepP3_releases (s := n.emit (.clk true)) hadmitted hp
  obtain ⟨hclaims, hresT⟩ := stepP1_claims ht
  have hresQ : q.res = p.res := by rw [stepP2_frame hq]
  rw [reservationInv_iff, hclaims, hresT, stepP2_claims hq, hresQ]
  exact hcommitted

theorem toReset_reservationInv (s : State) : ReservationInv s.toReset where
  once := List.nodup_nil
  union n := by simp [State.inFlight, State.toReset]
  disjoint := List.Pairwise.nil

/-- Settles O47: reset empties the set, an ended run keeps it, and a cycle of a well-formed program keeps it the
disjoint union. -/
theorem reservationInvariantIsKept : Obligations.ReservationInvariantIsKept := by
  intro s t hwf hpipe h hstep
  obtain ⟨-, ⟨-, rfl⟩ | ⟨-, -, rfl⟩ | ⟨-, -, hc⟩⟩ := step_next hstep
  · exact toReset_reservationInv s
  · exact h
  · exact h.clockCycle hwf hpipe hc

/-- With both output latches empty nothing is in flight: an instruction in stage 1 waits behind `s1_out`, and one in
stage 2 shows as a peek (R143). -/
theorem PipeInv.empty_of_outputs {s : State} (h : PipeInv s) (h1 : s.s1Out = none) (h2 : s.s2Out = none) :
    s.s1In = none ∧ s.s2In = none := by
  refine ⟨by_contra fun hin => h.stage1Waits hin h1, ?_⟩
  cases hin : s.s2In with
  | none => rfl
  | some d => cases h2.symm.trans (h.stage2Waits d hin).2.1

/-- Settles O49: with nothing in flight the countdown is idle and the union of the reservations is empty. -/
theorem emptyPipeMeansNothingInFlight : Obligations.EmptyPipeMeansNothingInFlight := by
  intro s hpipe hres hempty
  obtain ⟨-, hout1, hout2⟩ := (emptyPipeLooksAtPcAndTwoLatches s).1 hempty
  obtain ⟨hin1, hin2⟩ := hpipe.empty_of_outputs hout1 hout2
  have hflight : s.inFlight = [] := by simp [State.inFlight, hin1, hout1, hin2, hout2, hpipe.stage3Empty]
  have hnone : s.res = [] := List.eq_nil_iff_forall_not_mem.2 fun n hn => by
    obtain ⟨d, hd, -⟩ := (hres.union n).1 hn
    rw [hflight] at hd
    exact List.not_mem_nil hd
  exact ⟨hin1, hout1, hin2, hout2, hpipe.stage3Empty, hpipe.stage3OutEmpty, hnone, hpipe.countdownIdle hin2⟩

end Reservations

section Retirement

/-! ### What a cycle retires -/

/-- A part of a cycle in which nothing retires and no event is sent. -/
structure RetiresNothing (s t : State) : Prop where
  retired : t.retired = s.retired
  events : t.events = s.events
  cycle : t.cycle = s.cycle

theorem RetiresNothing.trans {s t u : State} (h : RetiresNothing s t) (h' : RetiresNothing t u) : RetiresNothing s u :=
  ⟨h'.retired.trans h.retired, h'.events.trans h.events, h'.cycle.trans h.cycle⟩

theorem stepN2_stepN3_retiresNothing (s : State) : RetiresNothing s (stepN2 (stepN3 s)) := by
  rw [stepN2_stepN3_frame]
  exact ⟨rfl, rfl, rfl⟩

/-- An admission leaves stage 3 alone (R126). -/
theorem stepN1_retiresNothing {s t : State} (h : stepN1 s = .next t) : RetiresNothing s t ∧ t.s3In = s.s3In := by
  rcases stepN1_admits h with rfl | ⟨_, _, _, _, _, -, -, -, -, -, -, rfl⟩ <;> exact ⟨⟨rfl, rfl, rfl⟩, rfl⟩

theorem stepP2_retiresNothing {s t : State} (h : stepP2 s = .next t) : RetiresNothing s t := by
  rw [stepP2_frame h]
  exact ⟨rfl, rfl, rfl⟩

theorem stepP1_retiresNothing {s t : State} (h : stepP1 s = .next t) : RetiresNothing s t := by
  rcases stepP1_reads h with ⟨-, rfl⟩ | ⟨_, _, _, -, -, -, -, rfl⟩ <;> exact ⟨rfl, rfl, rfl⟩

/-- The step that retires, P3, works on what step N3 left in stage 3 (R122, R129). -/
theorem stepP3_finds {s n : State} (h : stepN1 (stepN2 (stepN3 (s.nextCycle.emit (.clk false)))) = .next n) :
    RetiresNothing (s.nextCycle.emit (.clk false)) n ∧ n.s3In = (stepN3 s).s3In := by
  obtain ⟨hquiet, hstage3⟩ := stepN1_retiresNothing h
  refine ⟨(stepN2_stepN3_retiresNothing _).trans hquiet, ?_⟩
  rw [hstage3, stepN3_nextCycle_emit, stepN2_nextCycle_emit]
  rcases stepN2_cases (stepN3 s) with ⟨d, -, -, hs⟩ | ⟨-, hs⟩ <;> rw [hs] <;> rfl

/-- Settles O42: between the two clock events and after them only step P3 retires and sends an event. -/
theorem eachCycleRetiresAtMostOne : Obligations.EachCycleRetiresAtMostOne := by
  intro s t hrun hstep
  rw [step_of_running hrun] at hstep
  obtain ⟨n, p, q, hn, hp, hq, ht⟩ := clockCycle_next hstep
  obtain ⟨hlow, hstage3⟩ := stepP3_finds hn
  have hhigh : RetiresNothing p t := (stepP2_retiresNothing hq).trans (stepP1_retiresNothing ht)
  rw [hhigh.cycle, hhigh.retired, hhigh.events, ← hstage3]
  rcases stepP3_commits hp with ⟨hempty, rfl⟩ | ⟨d, x, i, regs, hd, -, -, rfl⟩
  · refine ⟨hlow.cycle, .inl ⟨hempty, hlow.retired, ?_⟩⟩
    simp [hlow.events]
  · refine ⟨hlow.cycle, .inr ⟨d, hd, congrArg (· + 1) hlow.retired, ?_⟩⟩
    simp [hlow.events]

end Retirement

end Sys2Proof.Machine

/-! What an instruction does at each plug-in point (R126, R127, R129 to R132): one equation for `exec`, and from it the
admissions, the operand fetch, the stage 2 work and the commits. -/

namespace Sys2Proof.Machine

set_option autoImplicit false

section PlugInPoints

/-! ### The four meanings of an instruction -/

/-- The admission action of each row (R126). -/
def admissionOf : Instr → State → Out
  | .add d _ _ | .addi d _ _ | .li d _ _ | .lw d _ _ | .slli d _ _ | .slri d _ _ | .sub d _ _ => akWb d
  | .sw _ _ _ | .other _ _ _ | .otherReserved _ _ _ _ => akPlain
  | .jal d _ _ => akJump d
  | .bge d a _ => akCompare (fun x b => decide (b ≤ x)) d a
  | .ble d a _ => akCompare (fun x b => decide (x ≤ b)) d a

/-- The stage 2 work of each row (R130, R131, R190). -/
def stage2Of : Instr → Decoded → State → Out
  | .add _ _ _ | .addi _ _ _ => aluTwo (fun n x y => some (wrap n (x + y)))
  | .sub _ _ _ => aluTwo (fun n x y => some (wrap n (x - y)))
  | .slli _ _ _ => aluTwo (fun n x y => shiftLeftBy n x y)
  | .slri _ _ _ => aluTwo (fun _ x y => shiftRightBy x y)
  | .li _ _ _ => aluOne (fun x => some x)
  | .lw _ _ _ => lsuVisit loadAccess
  | .sw _ _ _ => lsuVisit storeAccess
  | .jal _ _ _ | .bge _ _ _ | .ble _ _ _ | .other _ _ _ | .otherReserved _ _ _ _ => finishPlain

/-- The commit action of each row (R129). -/
def commitOf : Instr → Decoded → State → Out
  | .add d _ _ | .addi d _ _ | .li d _ _ | .lw d _ _ | .slli d _ _ | .slri d _ _ | .sub d _ _ => ckWb d
  | .sw _ _ _ | .other _ _ _ | .otherReserved _ _ _ _ => ckNone
  | .jal d _ _ => ckJal d
  | .bge _ a b | .ble _ a b => ckBranch a b

/-- Every row goes along the pipe with its three actions (R127, R170). -/
theorem exec_eq (i : Instr) (s : State) :
    exec i s = alongThePipe i.dst i.op1 i.op2 (admissionOf i) (stage2Of i) (commitOf i) s := by
  cases i <;> rfl

theorem exec_eq_admissionOf {s : State} (hp : s.point = .atAdmission) (i : Instr) : exec i s = admissionOf i s := by
  simp only [exec_eq, alongThePipe, hp]

theorem exec_eq_latchOperands {s : State} (hp : s.point = .atOperands) (i : Instr) :
    exec i s = latchOperands i.dst i.op1 i.op2 s := by
  simp only [exec_eq, alongThePipe, hp]

theorem exec_eq_stage2Of {s : State} {d : Decoded} (hp : s.point = .atExecute) (hd : s.s2In = some d) (i : Instr) :
    exec i s = stage2Of i d s := by
  simp only [exec_eq, alongThePipe, hp, hd]

theorem exec_eq_commitOf {s : State} {d : Decoded} (hp : s.point = .atCommit) (hd : s.s3In = some d) (i : Instr) :
    exec i s = commitOf i d s := by
  simp only [exec_eq, alongThePipe, hp, hd]

/-- The rows that write back have one admission and one commit (R126, R129). -/
theorem admissionOf_of_wb {i : Instr} (h : i.wb = true) : admissionOf i = akWb i.dst := by
  cases i with
  | sw | jal | bge | ble | other | otherReserved => cases h
  | _ => rfl

theorem commitOf_of_wb {i : Instr} (h : i.wb = true) : commitOf i = ckWb i.dst := by
  cases i with
  | sw | jal | bge | ble | other | otherReserved => cases h
  | _ => rfl

/-! ### Admission (R126) -/

/-- Settles O14: AK_WB increments `pc` and reserves `dst`. -/
theorem writeBackInstructionsAreAdmitted : Obligations.WriteBackInstructionsAreAdmitted := by
  intro i s hwb hp
  rw [exec_eq_admissionOf hp, admissionOf_of_wb hwb]
  have hres : ∀ n, n ∈ [nameOf i.dst].foldl addName s.res ↔ n ∈ s.res ∨ n = nameOf i.dst := fun n =>
    (mem_foldl_addName _ _ n).trans (or_congr_right List.mem_singleton)
  exact ⟨_, rfl, reg_increment_pc s 1, hres, rfl, fun _ => rfl, rfl⟩

/-- Settles O15: AK_PLAIN increments `pc`. -/
theorem plainInstructionsAreAdmitted : Obligations.PlainInstructionsAreAdmitted := by
  intro k d a b i s hi hp
  have hplain : admissionOf i = akPlain := by rcases hi with rfl | rfl | rfl <;> rfl
  rw [exec_eq_admissionOf hp, hplain]
  exact ⟨_, rfl, reg_increment_pc s 1, rfl, fun _ => rfl, rfl⟩

/-- The names of a jump, or of a branch that is taken, join the set (R126). -/
theorem mem_res_place_jump (s : State) (a : Int) (d : Operand) (n : ResName) :
    n ∈ (s.place a [nameOf d, pcName]).res ↔ n ∈ s.res ∨ n = nameOf d ∨ n = .name (.known .pc) :=
  (mem_foldl_addName _ _ n).trans (or_congr_right List.mem_pair)

/-- Settles O16: AK_JUMP reserves two names. -/
theorem jumpIsAdmittedWithPcReserved : Obligations.JumpIsAdmittedWithPcReserved := by
  intro d a b s hp
  rw [exec_eq_admissionOf hp]
  exact ⟨_, rfl, fun _ => rfl, mem_res_place_jump s s.pcV d, rfl, fun _ => rfl, rfl⟩

/-- A branch is admitted as a jump where it is taken, and as a plain instruction where it is not (R126, R202). -/
theorem akBranch_eq (taken : Bool) (d : Operand) (s : State) :
    akBranch taken d s = if taken then akJump d s else akPlain s := by
  cases taken <;> rfl

/-- With a literal bound the decision rests on no free value (R90, R202). -/
theorem akCompare_of_literal (holds : Int → Int → Bool) (d : Operand) (v : Int) (text : Token) (s : State) :
    akCompare holds d (.imm v text) s =
      if holds (s.readNamed d) (wrap s.cfg.xlen v) then akJump d s else akPlain s :=
  akBranch_eq _ d s

/-- Settles O17: the comparison of `bge` or `ble` decides between the two admissions. -/
theorem branchesAreDecidedAtAdmission : Obligations.BranchesAreDecidedAtAdmission := by
  intro d b v text i taken s hi hp
  have hexec : exec i s = .next (s.place s.pcV [nameOf d, pcName]) ∧ taken ∨
      exec i s = .next ((s.increment (.known .pc) 1).place s.pcV []) ∧ ¬taken := by
    rw [exec_eq_admissionOf hp]
    rcases hi with ⟨rfl, hiff⟩ | ⟨rfl, hiff⟩ <;>
    · rw [hiff]
      simp only [admissionOf, akCompare_of_literal, decide_eq_true_eq]
      split
      · next h => exact .inl ⟨rfl, h⟩
      · next h => exact .inr ⟨rfl, h⟩
  rcases hexec with ⟨hexec, ht⟩ | ⟨hexec, ht⟩
  · exact ⟨_, hexec, fun _ => ⟨fun _ => rfl, mem_res_place_jump s s.pcV d, rfl⟩, fun h => absurd ht h, fun _ => rfl,
      rfl⟩
  · exact ⟨_, hexec, fun h => absurd h ht, fun _ => ⟨reg_increment_pc s 1, rfl, rfl⟩, fun _ => rfl, rfl⟩

/-! ### Operand fetch (R132, R136) -/

theorem latchOperands_of_latched {s : State} {d : Decoded} (hd : s.s1In = some d) (dst op1 op2 : Operand) :
    latchOperands dst op1 op2 s = .next { s with
      s1Out := some { d with dstV := s.val dst, op1V := s.val op1, op2V := s.val op2 }
      s1In := none } := by
  simp only [latchOperands, hd]

/-- Settles O19: the operand fetch is one for all rows. -/
theorem everyInstructionReadsItsOperands : Obligations.EveryInstructionReadsItsOperands := by
  intro i s d hp hd
  rw [exec_eq_latchOperands hp, latchOperands_of_latched hd]
  exact ⟨_, rfl, rfl, rfl, fun _ => rfl, fun _ => rfl, rfl⟩

/-- Settles O20: an unknown base counts 0, and an address in range is its own `wrap`. -/
theorem operandValueByClass : Obligations.OperandValueByClass := by
  intro s text
  refine ⟨fun _ => rfl, fun n hn => ?_, fun _ _ => rfl, fun off n hn => ?_, fun _ => rfl, fun _ ha => congrArg some ha,
    rfl, rfl⟩
  · exact congrArg some (read_of_unknown hn s)
  · simp only [State.val, read_of_unknown hn, zero_add]

/-! ### Stage 2 (R130, R131, R190) -/

/-- Settles O29: these rows complete without a result. -/
theorem instructionsWithoutResultPassStageTwo : Obligations.InstructionsWithoutResultPassStageTwo := by
  intro k dst op1 op2 i s d hi hp hd
  have hplain : stage2Of i = finishPlain := by rcases hi with rfl | rfl | rfl | rfl | rfl <;> rfl
  rw [exec_eq_stage2Of hp hd, hplain]
  rfl

theorem aluOne_of_none {d : Decoded} (h : d.op1V = none) (f : Int → Option Int) (s : State) :
    aluOne f d s = .fault .noValue := by
  simp only [aluOne, h]

theorem aluTwo_of_none {d : Decoded} (h : d.op1V = none ∨ d.op2V = none) (f : Option Nat → Int → Int → Option Int)
    (s : State) : aluTwo f d s = .fault .noValue := by
  unfold aluTwo
  split
  · next x y hx hy => exact absurd h (by simp [hx, hy])
  · rfl

theorem loadAccess_of_none {d : Decoded} (h : d.op1V = none) (s : State) : loadAccess d s = .fault .noValue := by
  simp only [loadAccess, h]

theorem storeAccess_of_none {d : Decoded} (h : d.op1V = none ∨ d.dstV = none) (s : State) :
    storeAccess d s = .fault .noValue := by
  unfold storeAccess
  split
  · next a v ha hv => exact absurd h (by simp [ha, hv])
  · rfl

/-- The visit that brings the count to 0 performs the access (R190). -/
theorem lsuVisit_of_last {d : Decoded} {s : State} (hd : d.stalled = true) (hcnt : s.lsuCnt = 1)
    (access : Decoded → State → Out) :
    lsuVisit access d s = access { d with stalled := false } { s with lsuCnt := 0 } := by
  simp [lsuVisit, hd, hcnt]

theorem ckJal_of_none {d : Decoded} (h : d.op1V = none) (dst : Operand) (s : State) :
    ckJal dst d s = .fault .noValue := by
  simp only [ckJal, h]

/-- A branch that jumps at its commit needs its target (R202, R205). -/
theorem ckBranch_of_no_target {d : Decoded} {s : State} {op2 : Operand}
    (hjump : s.cfg.brWbUncond = true ∨ pcName ∈ d.reserved) (h : s.targetOf op2 = none) (op1 : Operand) :
    ckBranch op1 op2 d s = .fault .noValue := by
  simp [ckBranch, hjump, h]

/-- Settles O30: each action that uses a value finds none. -/
theorem missingValueStopsWhereItIsUsed : Obligations.MissingValueStopsWhereItIsUsed := by
  intro dst op1 op2 s d
  refine ⟨fun hp hd h => ?_, fun hp hd h => ?_, fun hp hd hstalled hcnt h => ?_, fun hp hd hstalled hcnt h => ?_,
    fun hp hd h => ?_, fun hp hd hjump h => ?_⟩
  · have two := aluTwo_of_none (d := d) (.inl h)
    simp only [exec_eq_stage2Of hp hd, stage2Of, aluOne_of_none h, two, and_self]
  · have two := aluTwo_of_none (d := d) (.inr h)
    simp only [exec_eq_stage2Of hp hd, stage2Of, two, and_self]
  · simp only [exec_eq_stage2Of hp hd, stage2Of, lsuVisit_of_last hstalled hcnt]
    exact ⟨loadAccess_of_none (d := { d with stalled := false }) h _,
      storeAccess_of_none (d := { d with stalled := false }) (.inl h) _⟩
  · simp only [exec_eq_stage2Of hp hd, stage2Of, lsuVisit_of_last hstalled hcnt]
    exact storeAccess_of_none (d := { d with stalled := false }) (.inr h) _
  · rw [exec_eq_commitOf hp hd]
    exact ckJal_of_none h dst s
  · simp only [exec_eq_commitOf hp hd]
    exact ⟨ckBranch_of_no_target hjump h op1, ckBranch_of_no_target hjump h op1⟩

/-! ### Commit (R129) -/

theorem namedReg_eq_some_iff {o : Operand} {q : Reg} : namedReg o = some q ↔ o = .reg (.known q) := by
  cases o with
  | reg n => cases n <;> simp [namedReg, knownReg]
  | _ => simp [namedReg]

/-- A retirement after writes to registers alone (R129). -/
theorem retire_of_regs {s u : State} (h : u = { s with regs := u.regs }) (d : Decoded) :
    SameMemory s (u.retire d) ∧ RetiredFrom d s (u.retire d) := by
  rw [h]
  exact ⟨fun _ => rfl, mem_release s d.reserved, rfl⟩

theorem ckWb_of_result {d : Decoded} {v : Int} (h : d.res = some v) (dst : Operand) (s : State) :
    ckWb dst d s = .next ((s.writeNamed dst v).retire d) := by
  simp only [ckWb, h]

/-- Settles O31: CK_WB writes the register that `dst` names and retires. -/
theorem writeBackInstructionsCommitTheirResult : Obligations.WriteBackInstructionsCommitTheirResult := by
  intro i s d v hwb hp hd hv
  rw [exec_eq_commitOf hp hd, commitOf_of_wb hwb, ckWb_of_result hv]
  have hreg := reg_writeNamed s i.dst v
  simp only [namedReg_eq_some_iff] at hreg
  exact ⟨_, rfl, hreg, retire_of_regs (writeNamed_eq s i.dst v) d⟩

/-- Settles O32: CK_NONE retires. -/
theorem plainInstructionsCommitNothing : Obligations.PlainInstructionsCommitNothing := by
  intro k dst op1 op2 i s d hi hp hd
  have hplain : commitOf i = ckNone := by rcases hi with rfl | rfl | rfl <;> rfl
  rw [exec_eq_commitOf hp hd, hplain]
  exact ⟨_, rfl, fun _ => rfl, retire_of_regs rfl d⟩

end PlugInPoints

end Sys2Proof.Machine

/-! One instruction alone in the pipe, from its admission to its retirement, beside the sequential interpreter
(R144, R145, R194). -/

namespace Sys2Proof.Machine

set_option autoImplicit false

section OneInstruction

/-! ### Runs -/

theorem runFor_succ (k : Nat) (s : State) : runFor (k + 1) s = andThen (step s) (runFor k) := by
  have hcore : core.step s = step s := rfl
  simp only [runFor, Host.Core.run, hcore]
  cases step s <;> rfl

theorem runFor_one (s : State) : runFor 1 s = step s := by
  rw [runFor_succ]
  cases step s <;> rfl

/-- A run goes on from where it has come. -/
theorem runFor_add {j : Nat} {s t : State} (h : runFor j s = .next t) (k : Nat) : runFor (j + k) s = runFor k t := by
  induction j generalizing s with
  | zero =>
    cases h
    rw [Nat.zero_add]
  | succ j ih =>
    rw [runFor_succ] at h
    obtain ⟨u, hu, hrun⟩ := andThen_next.1 h
    rw [Nat.add_right_comm, runFor_succ, hu]
    exact ih hrun

/-! ### Cycles without an admission -/

/-- The clock events of a cycle and its number (R242, R245). -/
def State.tick (s : State) : State := (s.nextCycle.emit (.clk false)).emit (.clk true)

/-- A cycle without an admission is its steps N3 and N2 and its rising edge (R121, R128). -/
theorem step_of_heldBack {s u : State} (hrun : s.Running) (hu : stepN2 (stepN3 s) = u) (h : u.HeldBack) :
    step s = andThen (andThen (stepP3 u.tick) stepP2) stepP1 := by
  have hidle : stepN1 (u.nextCycle.emit (.clk false)) = .next (u.nextCycle.emit (.clk false)) := stepN1_of_heldBack h
  rw [step_of_running hrun]
  unfold clockCycle negedge
  rw [stepN3_nextCycle_emit, stepN2_nextCycle_emit, hu, hidle]
  rfl

variable {i : Instr} {d d' : Decoded} {x : Slot}

/-- A meaning at a plug-in point, with the field that says where it stands put back (entry 2). -/
theorem callAt_of_exec {p : Point} {s t : State} (h : exec i { s with point := p } = .next t) :
    callAt p i s = .next { t with point := s.point } := by
  unfold callAt
  rw [h]
  rfl

/-- A rising edge with an instruction in stage 2 alone is its stage 2 work (R130). -/
theorem rising_edge_of_stage2 {s t : State} (h3 : s.s3In = none) (h2 : s.s2In = some d) (hx : s.fetch d.idx = some x)
    (hi : s.decode x = .ok i) (hwork : stage2Of i d { s with point := .atExecute } = .next t) (ht : t.s1In = none) :
    andThen (andThen (stepP3 s) stepP2) stepP1 = .next { t with point := s.point } := by
  have hcall : callAt .atExecute i s = .next { t with point := s.point } :=
    callAt_of_exec ((exec_eq_stage2Of (s := { s with point := .atExecute }) rfl h2 i).trans hwork)
  rw [stepP3_of_empty h3, andThen_of_next, stepP2_of_latched h2 hx hi, hcall]
  exact stepP1_of_idle (.inl ht)

/-- A rising edge with an instruction in stage 3 alone is its commit (R129). -/
theorem rising_edge_of_stage3 {s t : State} (h3 : s.s3In = some d) (hx : s.fetch d.idx = some x)
    (hi : s.decode x = .ok i) (hcommit : commitOf i d { s with point := .atCommit } = .next t) (ht1 : t.s1In = none)
    (ht2 : t.s2In = none) : andThen (andThen (stepP3 s) stepP2) stepP1 = .next { t with point := s.point } := by
  have hcall : callAt .atCommit i s = .next { t with point := s.point } :=
    callAt_of_exec ((exec_eq_commitOf (s := { s with point := .atCommit }) rfl h3 i).trans hcommit)
  rw [stepP3_of_latched h3 hx hi, hcall, andThen_of_next,
    stepP2_of_empty (s := { t with point := s.point }) ht2]
  exact stepP1_of_idle (.inl ht1)

/-- The instruction `d` with the operands of `i` read in the state `s` (R132). -/
def State.withOperands (s : State) (i : Instr) (d : Decoded) : Decoded :=
  { d with dstV := s.val i.dst, op1V := s.val i.op1, op2V := s.val i.op2 }

/-- The registers and the width decide the value of an operand (R136). -/
theorem val_congr {s t : State} (hregs : s.regs = t.regs) (hcfg : s.cfg = t.cfg) (o : Operand) : s.val o = t.val o := by
  cases o with
  | reg n => exact congrArg some (read_congr hregs n)
  | regOff off b text => simp only [State.val, read_congr hregs, hcfg]
  | imm v text => simp only [State.val, hcfg]
  | label target text => cases target <;> simp only [State.val, hcfg]
  | absent => rfl

theorem withOperands_congr {s t : State} (hregs : s.regs = t.regs) (hcfg : s.cfg = t.cfg) (i : Instr) (d : Decoded) :
    s.withOperands i d = t.withOperands i d := by
  simp only [State.withOperands, val_congr hregs hcfg]

/-- A rising edge with an instruction in stage 1 alone reads its operands (R132). -/
theorem rising_edge_of_stage1 {s : State} (h3 : s.s3In = none) (h2 : s.s2In = none) (h1 : s.s1In = some d)
    (hout : s.s1Out = none) (hx : s.fetch d.idx = some x) (hi : s.decode x = .ok i) (hd : s.withOperands i d = d') :
    andThen (andThen (stepP3 s) stepP2) stepP1 = .next { s with
      s1Out := some d'
      s1In := none } := by
  rw [← hd, stepP3_of_empty h3, andThen_of_next, stepP2_of_empty h2, andThen_of_next, stepP1_of_latched h1 hout hx hi]
  exact callAt_of_exec ((exec_eq_latchOperands (s := { s with point := .atOperands }) rfl i).trans
    (latchOperands_of_latched (s := { s with point := .atOperands }) h1 i.dst i.op1 i.op2))

/-! ### A machine with one instruction in its pipe -/

/-- The registers, the memory and the program of `s`, some cycles on: one instruction is in the pipe, past the input of
stage 1, and has reserved `rl`. -/
def State.solo (s : State) (c : Nat) (es : List Event) (rl : List ResName) (out1 in2 out2 : Option Decoded)
    (cnt : Nat) : State :=
  { s with
    cycle := c, events := es, res := rl.foldl addName [], lsuCnt := cnt
    s1In := none, s1Out := out1, s2In := in2, s2Out := out2, s3In := none, s3Out := none }

/-- What keeps instruction `i` at index `idx`, which has reserved `rl`, alone in the pipe: the machine runs, and nothing
is admitted behind `i`. -/
structure Alone (i : Instr) (idx : Int) (rl : List ResName) (s : State) : Prop where
  legal : s.cfg.legal = true
  rst : s.rst = false
  size : s.size ≠ 0
  instr : ∃ x, s.fetch idx = some x ∧ s.decode x = .ok i
  heldBack : s.fetch s.pcV = none ∨ pcName ∈ rl

variable {s : State} {idx : Int} {rl : List ResName} {m : List (Int × Int)} {fc : Nat}

/-- An instruction that waits in an output latch keeps the run going (R138, R140). -/
theorem Alone.running (h : Alone i idx rl s) {c : Nat} (hc : c < s.cfg.cycleCap) (es : List Event)
    {out1 in2 out2 : Option Decoded} (hout : out1 ≠ none ∨ out2 ≠ none) (cnt : Nat) :
    (s.solo c es rl out1 in2 out2 cnt).Running := by
  refine ⟨h.legal, h.rst, ?_⟩
  have hsize : ¬ (s.solo c es rl out1 in2 out2 cnt).size = 0 := h.size
  have hcap : ¬ (s.solo c es rl out1 in2 out2 cnt).cfg.cycleCap ≤ (s.solo c es rl out1 in2 out2 cnt).cycle :=
    Nat.not_le.2 hc
  have hpipe : (s.solo c es rl out1 in2 out2 cnt).emptyPipe = false := by
    rw [← Bool.not_eq_true, emptyPipeLooksAtPcAndTwoLatches]
    rintro ⟨-, h1, h2⟩
    exact hout.elim (absurd h1) (absurd h2)
  simp [State.ended, hsize, hpipe, hcap]

/-- Nothing is admitted behind the instruction (R124, R268). -/
theorem Alone.solo_heldBack (h : Alone i idx rl s) (c : Nat) (es : List Event) (out1 in2 out2 : Option Decoded)
    (cnt : Nat) : (s.solo c es rl out1 in2 out2 cnt).HeldBack :=
  .inr (h.heldBack.imp_right fun hpc => (mem_foldl_addName rl [] pcName).2 (.inr hpc))

/-! ### Stage 2 -/

/-- A cycle that works on the instruction in stage 2, which steps N3 and N2 have brought there or left there. -/
theorem Alone.step_stage2 (h : Alone i d.idx rl s) {u : State} (hrun : u.Running) {c cnt cnt' : Nat} {es : List Event}
    {out2 in2' out2' : Option Decoded} (hmoved : stepN2 (stepN3 u) = s.solo c es rl none (some d) out2 cnt)
    (hwork : ∀ p es, stage2Of i d ({ s with point := p }.solo (c + 1) es rl none (some d) out2 cnt) =
      .next ({ s with point := p, mem := m, freeCtr := fc }.solo (c + 1) es rl none in2' out2' cnt')) :
    ∃ es', step u = .next ({ s with mem := m, freeCtr := fc }.solo (c + 1) es' rl none in2' out2' cnt') := by
  obtain ⟨x, hx, hi⟩ := h.instr
  have hheld := h.solo_heldBack c es none (some d) out2 cnt
  exact ⟨_, (step_of_heldBack hrun hmoved hheld).trans (rising_edge_of_stage2
    (s := (s.solo c es rl none (some d) out2 cnt).tick) rfl rfl hx hi (hwork .atExecute _) rfl)⟩

/-- The access of a memory instruction, which has the result `d'` and leaves the cells `m` (R191, R192). -/
abbrev Accesses (access : Decoded → State → Out) (s : State) (d d' : Decoded) (m : List (Int × Int)) : Prop :=
  ∀ v : State, v.mem = s.mem → access { d with stalled := false } v = .next ({ v with mem := m }.finish d')

/-- The first visit starts the countdown (R190). -/
theorem lsuVisit_of_first (hd : d.stalled = false) (access : Decoded → State → Out) (s : State) :
    lsuVisit access d s = .next ({ s with lsuCnt := s.cfg.lsuDelay }.peek { d with stalled := true }) := by
  simp [lsuVisit, hd]

/-- A later visit counts down (R190). -/
theorem lsuVisit_of_counting {n : Nat} (hd : d.stalled = true) (hcnt : s.lsuCnt = n + 2)
    (access : Decoded → State → Out) : lsuVisit access d s = .next ({ s with lsuCnt := n + 1 }.peek d) := by
  simp [lsuVisit, hd, hcnt]

/-- The countdown runs one cycle for each count, and the access is performed in the last one (R190). -/
theorem Alone.run_countdown {access : Decoded → State → Out} (h : Alone i d.idx rl s)
    (hi : stage2Of i = lsuVisit access) (hd : d.stalled = true) (haccess : Accesses access s d d' m) (n : Nat) {c : Nat}
    (hc : c + n < s.cfg.cycleCap) (es : List Event) :
    ∃ es', runFor (n + 1) (s.solo c es rl none (some d) (some d) (n + 1)) =
      .next ({ s with mem := m }.solo (c + n + 1) es' rl none none (some d') 0) := by
  have hrun : (s.solo c es rl none (some d) (some d) (n + 1)).Running :=
    h.running (by omega) es (.inr (Option.some_ne_none d)) (n + 1)
  induction n generalizing c es with
  | zero =>
    obtain ⟨es', hstep⟩ := h.step_stage2 hrun (m := m) (fc := s.freeCtr) rfl fun p es => by
      rw [hi]
      exact (lsuVisit_of_last hd rfl access).trans (haccess _ rfl)
    exact ⟨es', (runFor_one _).trans hstep⟩
  | succ n ih =>
    obtain ⟨es', hstep⟩ := h.step_stage2 hrun (m := s.mem) (fc := s.freeCtr) rfl fun p es => by
      rw [hi]
      exact lsuVisit_of_counting hd rfl access
    have hrun' : (s.solo (c + 1) es' rl none (some d) (some d) (n + 1)).Running :=
      h.running (by omega) es' (.inr (Option.some_ne_none d)) (n + 1)
    obtain ⟨es'', hrest⟩ := ih (c := c + 1) (by omega) es' hrun'
    refine ⟨es'', ?_⟩
    rw [runFor_succ, hstep, show c + (n + 1) + 1 = c + 1 + n + 1 by omega]
    exact hrest

/-- How a whole instruction passes stage 2 alone: `n` cycles more than one, from its operands `d` to its result `d'`. -/
abbrev PassesStage2 (rl : List ResName) (s : State) (d d' : Decoded) (m : List (Int × Int)) (fc n : Nat) : Prop :=
  ∀ (c : Nat) (es : List Event), c + n < s.cfg.cycleCap →
    ∃ es', runFor (n + 1) (s.solo c es rl (some d) none none 0) =
      .next ({ s with mem := m, freeCtr := fc }.solo (c + n + 1) es' rl none none (some d') 0)

/-- A memory instruction passes stage 2 in `LSU_DELAY` cycles more than one (R190, R194). -/
theorem Alone.passes_memory {access : Decoded → State → Out} (h : Alone i d.idx rl s)
    (hi : stage2Of i = lsuVisit access) (hd : d.stalled = false) (haccess : Accesses access s d d' m) :
    PassesStage2 rl s d d' m s.freeCtr s.cfg.lsuDelay := by
  intro c es hc
  obtain ⟨n, hn⟩ : ∃ n, s.cfg.lsuDelay = n + 1 := Nat.exists_eq_succ_of_ne_zero
    (Nat.one_le_iff_ne_zero.1 ((config_legal_iff _).1 h.legal).1)
  have hrun : (s.solo c es rl (some d) none none 0).Running :=
    h.running (by omega) es (.inl (Option.some_ne_none d)) 0
  have hmoved : stepN2 (stepN3 (s.solo c es rl (some d) none none 0)) = s.solo c es rl none (some d) none 0 := rfl
  obtain ⟨es', hstep⟩ := h.step_stage2 hrun (m := s.mem) (fc := s.freeCtr) (cnt' := s.cfg.lsuDelay) hmoved
    fun p es => by
      rw [hi]
      exact lsuVisit_of_first hd access _
  rw [hn] at hstep
  obtain ⟨es'', hrest⟩ := Alone.run_countdown (d := { d with stalled := true }) h hi rfl haccess n (c := c + 1)
    (by omega) es'
  refine ⟨es'', ?_⟩
  rw [runFor_succ, hstep, hn, show c + (n + 1) + 1 = c + 1 + n + 1 by omega]
  exact hrest

/-- Every other instruction passes stage 2 in one cycle (R131). -/
theorem Alone.passes_at_once (h : Alone i d.idx rl s)
    (hwork : ∀ v : State, v.cfg = s.cfg → v.freeCtr = s.freeCtr →
      stage2Of i d v = .next ({ v with freeCtr := fc }.finish d')) :
    PassesStage2 rl s d d' s.mem fc 0 := by
  intro c es hc
  have hrun : (s.solo c es rl (some d) none none 0).Running := h.running hc es (.inl (Option.some_ne_none d)) 0
  obtain ⟨es', hstep⟩ := h.step_stage2 hrun (m := s.mem) (fc := fc) rfl fun p es => hwork _ rfl rfl
  exact ⟨es', (runFor_one _).trans hstep⟩

/-! ### Commit -/

/-- The commit of the instruction writes the registers `regs` and retires (R129). -/
abbrev Commits (i : Instr) (s : State) (d : Decoded) (regs : Vector Int 19) : Prop :=
  ∀ v : State, v.regs = s.regs → v.cfg = s.cfg → v.lbl = s.lbl →
    commitOf i d v = .next ({ v with regs := regs }.retire d)

/-- The cycle in which the instruction retires and the pipe becomes empty. -/
theorem Alone.step_retires {regs : Vector Int 19} (h : Alone i d.idx rl s) (hcommit : Commits i s d regs) {c : Nat}
    (hc : c < s.cfg.cycleCap) (es : List Event) :
    ∃ es', step (s.solo c es rl none none (some d) 0) =
      .next (({ s with regs := regs }.solo (c + 1) es' rl none none none 0).retire d) := by
  obtain ⟨x, hx, hi⟩ := h.instr
  have hrun : (s.solo c es rl none none (some d) 0).Running := h.running hc es (.inr (Option.some_ne_none d)) 0
  have hmoved : stepN2 (stepN3 (s.solo c es rl none none (some d) 0)) =
      { s.solo c es rl none none none 0 with s3In := some d } := rfl
  have hrise := rising_edge_of_stage3 (s := ({ s.solo c es rl none none none 0 with s3In := some d } : State).tick) rfl
    hx hi (hcommit _ rfl rfl rfl) rfl rfl
  exact ⟨_, (step_of_heldBack hrun hmoved (h.solo_heldBack c es none none none 0)).trans hrise⟩

/-! ### Admission -/

/-- The admission of the instruction: `pc` moves on unless it `jumps`, and `rl` is reserved (R126). -/
abbrev Admits (i : Instr) (s : State) (jumps : Bool) (rl : List ResName) : Prop :=
  ∀ v : State, v.regs = s.regs → v.cfg = s.cfg → admissionOf i v = .next ((v.pastBranch jumps).place v.pcV rl)

/-- The instruction at `pc` at the end of the cycle of its admission (R36, R132). -/
def State.entered (s : State) (i : Instr) (jumps : Bool) (rl : List ResName) : Decoded :=
  (s.pastBranch jumps).withOperands i (Decoded.fresh s.pcV rl)

theorem pastBranch_false (s : State) : s.pastBranch false = s.advance := rfl

theorem State.Quiet.solo_eq (h : s.Quiet) : s.solo s.cycle s.events [] none none none 0 = s := by
  obtain ⟨h1, h2, h3, h4, h5, h6, hres, hcnt⟩ := h
  cases s
  simp_all [State.solo]

/-- The cycle in which an instruction enters an empty pipe and reads its operands (R126, R132). -/
theorem step_admits {jumps : Bool} {c : Nat} {es : List Event} (hrun : (s.solo c es [] none none none 0).Running)
    (hx : s.fetch s.pcV = some x) (hi : s.decode x = .ok i) (hadm : Admits i s jumps rl) :
    ∃ es', step (s.solo c es [] none none none 0) = .next ((s.pastBranch jumps).solo (c + 1) es' rl
      (some (s.entered i jumps rl)) none none 0) := by
  have hstep := (stepRunsTheDecodedInstruction.1 _ hrun).2 x i rfl hx hi (blocked_eq_false rfl i)
  have hexec := (exec_eq_admissionOf (s := { (s.solo c es [] none none none 0).nextCycle.emit (.clk false) with
    point := .atAdmission }) rfl i).trans (hadm _ rfl rfl)
  have hrise := rising_edge_of_stage1 (s := { (s.pastBranch jumps).solo (c + 1) (es ++ [.clk false] ++ [.clk true]) rl
    none none none 0 with s1In := some (Decoded.fresh s.pcV rl) }) (d := Decoded.fresh s.pcV rl) rfl rfl rfl rfl hx hi
    (withOperands_congr (t := s.pastBranch jumps) rfl rfl i _)
  exact ⟨_, hstep.trans ((congrArg (andThen · _) hexec).trans hrise)⟩

end OneInstruction

section SequentialReading

variable {i : Instr} {s : State} {d d' : Decoded} {rl : List ResName} {m : List (Int × Int)} {fc : Nat}

/-! ### From admission to retirement -/

/-- An instruction that is to be admitted alone: the machine runs with an empty pipe, and the buffer holds nothing
behind the instruction at `pc`. -/
structure AdmittedAlone (i : Instr) (s : State) : Prop where
  running : s.Running
  quiet : s.Quiet
  instr : ∃ x, s.fetch s.pcV = some x ∧ s.decode x = .ok i
  last : s.fetch (wrap s.cfg.xlen (s.pcV + 1)) = none

/-- `pc` after the admission points behind the buffer, or is reserved (R126, R268). -/
theorem AdmittedAlone.alone (h : AdmittedAlone i s) {jumps : Bool} (hjumps : jumps = true → pcName ∈ rl)
    (m : List (Int × Int)) (fc : Nat) : Alone i s.pcV rl { s.pastBranch jumps with mem := m, freeCtr := fc } := by
  obtain ⟨hlegal, hrst, hended⟩ := h.running
  refine ⟨hlegal, hrst, fun hsize => ?_, h.instr, ?_⟩
  · have hempty : s.size = 0 := hsize
    simp [State.ended, hempty] at hended
  · cases jumps with
    | true => exact .inr (hjumps rfl)
    | false =>
      have hpc : s.advance.pcV = wrap s.cfg.xlen (s.pcV + 1) := reg_increment_pc s 1 .pc
      exact .inl ((congrArg s.fetch hpc).trans h.last)

/-- A run of `k` cycles retires the instruction at `pc` and ends as the sequential interpreter does (R144, R145). -/
abbrev RunsAsSequential (i : Instr) (k : Nat) (s : State) : Prop :=
  ∃ t u, runFor k s = .next t ∧ sequential i s = .next u ∧
    (∀ q, t.reg q = u.reg q) ∧ (∀ a, t.memRead a = u.memRead a) ∧ t.retired = u.retired ∧
    t.Quiet ∧ t.cycle = s.cycle + k ∧ Event.retire (s.cycle + k) s.pcV ∈ t.events

/-- The releases of a retirement empty the reservation set (R31, R129). -/
theorem filter_foldl_addName (rl : List ResName) :
    (rl.foldl addName []).filter (fun n => decide (n ∉ rl)) = [] := by
  refine List.filter_eq_nil_iff.2 fun n hn => ?_
  have hmem : n ∈ rl := ((mem_foldl_addName rl [] n).1 hn).resolve_left List.not_mem_nil
  simpa using hmem

/-- One instruction alone: its admission, its way through stage 2 and its commit, beside its effect in the sequential
interpreter. -/
theorem AdmittedAlone.runs (h : AdmittedAlone i s) {jumps : Bool} {n : Nat} {regs : Vector Int 19} {u : State}
    (hcap : s.cycle + (3 + n) ≤ s.cfg.cycleCap) (hjumps : jumps = true → pcName ∈ rl) (hadm : Admits i s jumps rl)
    (hidx : d'.idx = s.pcV) (hreserved : d'.reserved = rl)
    (hpass : PassesStage2 rl (s.pastBranch jumps) (s.entered i jumps rl) d' m fc n)
    (hcommit : Commits i { s.pastBranch jumps with mem := m, freeCtr := fc } d' regs)
    (hseq : seqEffect i s = .next u) (hregs : u.regs = regs) (hmem : u.mem = m) (hretired : u.retired = s.retired) :
    RunsAsSequential i (3 + n) s := by
  obtain ⟨x, hx, hi⟩ := h.instr
  have hsolo := h.quiet.solo_eq
  have hcap' : s.cycle + (3 + n) ≤ (s.pastBranch jumps).cfg.cycleCap := hcap
  have halone : Alone i d'.idx rl { s.pastBranch jumps with mem := m, freeCtr := fc } := hidx ▸ h.alone hjumps m fc
  have hrun : (s.solo s.cycle s.events [] none none none 0).Running := hsolo.symm ▸ h.running
  obtain ⟨es, hstep⟩ := step_admits hrun hx hi hadm
  obtain ⟨es', hpassed⟩ := hpass (s.cycle + 1) es (by omega)
  obtain ⟨es'', hretire⟩ := halone.step_retires hcommit (c := s.cycle + 1 + n + 1)
    (show s.cycle + 1 + n + 1 < (s.pastBranch jumps).cfg.cycleCap by omega) es'
  rw [hsolo] at hstep
  have hcycle : s.cycle + (3 + n) = s.cycle + 1 + n + 1 + 1 := by omega
  have hfirst : runFor (1 + (n + 1)) s = _ := (runFor_add ((runFor_one s).trans hstep) (n + 1)).trans hpassed
  have hruns : runFor (1 + (n + 1) + 1) s = _ := (runFor_add hfirst 1).trans ((runFor_one _).trans hretire)
  rw [show 1 + (n + 1) + 1 = 3 + n by omega] at hruns
  have heffect : sequential i s = .next { u with retired := u.retired + 1 } := by
    unfold sequential
    rw [hseq]
    rfl
  refine ⟨_, _, hruns, heffect, fun q => reg_congr hregs.symm q, fun a => congrArg (readCell · a) hmem.symm,
    congrArg (· + 1) hretired.symm, ⟨rfl, rfl, rfl, rfl, rfl, rfl, ?_, rfl⟩, hcycle.symm, ?_⟩
  · rw [retire_res, hreserved]
    exact filter_foldl_addName rl
  · rw [retire_events, hcycle, ← hidx]
    exact List.mem_append_right _ (List.mem_singleton_self _)

/-! ### The operands and the registers -/

/-- An operand that `EVAL` accepts has a value (R100, R136). -/
theorem val_of_eval {o : Operand} (h : o.eval = true) (s : State) : ∃ v, s.val o = some v := by
  cases o with
  | label target text =>
    obtain ⟨t, rfl⟩ := Option.isSome_iff_exists.1 h
    exact ⟨_, rfl⟩
  | absent => cases h
  | _ => exact ⟨_, rfl⟩

/-- The registers and the width decide what a write leaves in the registers (R26). -/
theorem writeNamed_regs_congr {s t : State} (hregs : s.regs = t.regs) (hcfg : s.cfg = t.cfg) (o : Operand) (v : Int) :
    (s.writeNamed o v).regs = (t.writeNamed o v).regs := by
  refine regs_ext fun q => ?_
  rw [reg_writeNamed, reg_writeNamed, hcfg, reg_congr hregs]

theorem write_regs_congr {s t : State} (hregs : s.regs = t.regs) (hcfg : s.cfg = t.cfg) (n : RegName) (v : Int) :
    (s.write n v).regs = (t.write n v).regs := writeNamed_regs_congr hregs hcfg (.reg n) v

/-! ### Instructions that write back -/

theorem admits_of_wb (hwb : i.wb = true) (s : State) : Admits i s false [nameOf i.dst] := by
  intro v hregs hcfg
  rw [admissionOf_of_wb hwb]
  rfl

theorem commits_of_wb (hwb : i.wb = true) {v : Int} (hres : d.res = some v) (s : State) :
    Commits i s d (s.writeNamed i.dst v).regs := by
  intro w hregs hcfg hlbl
  rw [commitOf_of_wb hwb, ckWb_of_result hres, writeNamed_eq, writeNamed_regs_congr hregs hcfg]

/-- A result that is not stated is a free value in the pipe as in the sequential interpreter (entry 5). -/
theorem finishWith_eq (s : State) (d : Decoded) (r : Option Int) : s.finishWith d r =
    { s with freeCtr := if r.isSome then s.freeCtr else s.freeCtr + 1 }.finish
      { d with res := some (r.getD s.free) } := by
  cases r <;> rfl

theorem writeResult_eq (s : State) (dst : Operand) (r : Option Int) : s.writeResult dst r =
    { s with freeCtr := if r.isSome then s.freeCtr else s.freeCtr + 1 }.writeNamed dst (r.getD s.free) := by
  cases r <;> rfl

theorem free_congr {s t : State} (hcfg : s.cfg = t.cfg) (hctr : s.freeCtr = t.freeCtr) : s.free = t.free := by
  simp only [State.free, hcfg, hctr]

/-- An ALU instruction with the result `r` (R171 to R176). -/
theorem AdmittedAlone.runs_alu (h : AdmittedAlone i s) (hwb : i.wb = true) (hcap : s.cycle + 3 ≤ s.cfg.cycleCap)
    {r : Option Int}
    (hwork : ∀ v : State, v.cfg = s.cfg → stage2Of i (s.entered i false [nameOf i.dst]) v =
      .next (v.finishWith (s.entered i false [nameOf i.dst]) r))
    (hseq : seqEffect i s = .next (s.advance.writeResult i.dst r)) : RunsAsSequential i 3 s := by
  have hpass := Alone.passes_at_once (h.alone (jumps := false) (rl := [nameOf i.dst]) nofun s.mem s.freeCtr)
    (d := s.entered i false [nameOf i.dst])
    (d' := { s.entered i false [nameOf i.dst] with res := some (r.getD s.free) })
    (fc := if r.isSome then s.freeCtr else s.freeCtr + 1) fun v hcfg hctr => by
      rw [hwork v hcfg, finishWith_eq, free_congr hcfg hctr, hctr]
      rfl
  refine h.runs (jumps := false) (n := 0) hcap nofun (admits_of_wb hwb s) rfl rfl hpass (commits_of_wb hwb rfl _) hseq
    ?_ ?_ ?_
  · rw [writeResult_eq]
    exact writeNamed_regs_congr rfl rfl _ _
  · rw [writeResult_eq, writeNamed_mem]
    rfl
  · rw [writeResult_eq, writeNamed_retired]
    rfl

/-- An ALU instruction with two sources (R172 to R176). -/
theorem AdmittedAlone.runs_two (h : AdmittedAlone i s) (hwb : i.wb = true) (hcap : s.cycle + 3 ≤ s.cfg.cycleCap)
    (hwf : (i.dst.isReg && i.op1.eval && i.op2.eval) = true) {f : Option Nat → Int → Int → Option Int}
    (hstage2 : stage2Of i = aluTwo f) (hseq : seqEffect i s = seqTwo f i.dst i.op1 i.op2 s) :
    RunsAsSequential i 3 s := by
  simp only [Bool.and_eq_true] at hwf
  obtain ⟨⟨-, h1⟩, h2⟩ := hwf
  obtain ⟨x, hx⟩ := val_of_eval h1 s.advance
  obtain ⟨y, hy⟩ := val_of_eval h2 s.advance
  refine h.runs_alu hwb hcap (r := f s.cfg.xlen x y) (fun v hcfg => ?_) ?_
  · simp only [hstage2, aluTwo, State.entered, pastBranch_false, State.withOperands, hx, hy, hcfg]
  · simp only [hseq, seqTwo, hx, hy]

theorem AdmittedAlone.runs_li {dst op1 op2 : Operand} (h : AdmittedAlone (.li dst op1 op2) s)
    (hcap : s.cycle + 3 ≤ s.cfg.cycleCap) (h1 : op1.eval = true) : RunsAsSequential (.li dst op1 op2) 3 s := by
  obtain ⟨x, hx⟩ := val_of_eval h1 s.advance
  refine h.runs_alu rfl hcap (r := some x) (fun v _ => ?_) ?_
  · simp only [stage2Of, aluOne, State.entered, pastBranch_false, State.withOperands, Instr.op1, hx]
  · simp only [seqEffect, hx, State.writeResult, Instr.dst]

/-! ### Loads and stores -/

theorem AdmittedAlone.runs_lw {dst op1 op2 : Operand} (h : AdmittedAlone (.lw dst op1 op2) s)
    (hcap : s.cycle + (3 + s.cfg.lsuDelay) ≤ s.cfg.cycleCap) (h1 : op1.eval = true) :
    RunsAsSequential (.lw dst op1 op2) (3 + s.cfg.lsuDelay) s := by
  obtain ⟨a, ha⟩ := val_of_eval h1 s.advance
  have haccess : Accesses loadAccess s.advance (s.entered (.lw dst op1 op2) false [nameOf dst])
      { s.entered (.lw dst op1 op2) false [nameOf dst] with
        memV := some (s.memRead a), res := some (s.memRead a) } s.mem := by
    intro v hmem
    have hread : v.memRead a = s.memRead a := congrArg (readCell · a) hmem
    have hsame : { v with mem := s.mem } = v := by
      rw [show s.mem = v.mem from hmem.symm]
    rw [hsame]
    simp only [loadAccess, State.entered, pastBranch_false, State.withOperands, Instr.op1, ha, hread]
    rfl
  have hpass := Alone.passes_memory (h.alone (jumps := false) (rl := [nameOf dst]) nofun s.mem s.freeCtr) rfl rfl
    haccess
  refine h.runs (jumps := false) hcap nofun (admits_of_wb rfl s) rfl rfl hpass (commits_of_wb rfl rfl _)
    (u := s.advance.writeNamed dst (s.memRead a)) ?_ ?_ ?_ ?_
  · simp only [seqEffect, ha]
  · exact writeNamed_regs_congr rfl rfl _ _
  · rw [writeNamed_mem]
    rfl
  · rw [writeNamed_retired]
    rfl

theorem AdmittedAlone.runs_sw {dst op1 op2 : Operand} (h : AdmittedAlone (.sw dst op1 op2) s)
    (hcap : s.cycle + (3 + s.cfg.lsuDelay) ≤ s.cfg.cycleCap) (h0 : dst.eval = true) (h1 : op1.eval = true) :
    RunsAsSequential (.sw dst op1 op2) (3 + s.cfg.lsuDelay) s := by
  obtain ⟨a, ha⟩ := val_of_eval h1 s.advance
  obtain ⟨v, hv⟩ := val_of_eval h0 s.advance
  have haccess : Accesses storeAccess s.advance (s.entered (.sw dst op1 op2) false [])
      (s.entered (.sw dst op1 op2) false []) (writeCell s.mem a v) := by
    intro w hmem
    simp only [storeAccess, State.entered, pastBranch_false, State.withOperands, Instr.op1, Instr.dst, ha, hv,
      State.memWrite, hmem]
    rfl
  have hpass := Alone.passes_memory (h.alone (jumps := false) (rl := []) nofun s.mem s.freeCtr) rfl rfl haccess
  refine h.runs (jumps := false) hcap nofun (fun _ _ _ => rfl) rfl rfl hpass (regs := s.advance.regs)
    (fun w hregs _ _ => ?_) (u := s.advance.memWrite a v) ?_ rfl rfl rfl
  · rw [show s.advance.regs = w.regs from hregs.symm]
    rfl
  · simp only [seqEffect, ha, hv]

/-! ### Instructions without a result -/

/-- An instruction that completes without a result passes stage 2 as it is (R131). -/
theorem AdmittedAlone.runs_plain (h : AdmittedAlone i s) {jumps : Bool} {regs : Vector Int 19} {u : State}
    (hcap : s.cycle + 3 ≤ s.cfg.cycleCap) (hstage2 : stage2Of i = finishPlain) (hjumps : jumps = true → pcName ∈ rl)
    (hadm : Admits i s jumps rl)
    (hcommit : Commits i (s.pastBranch jumps) (s.entered i jumps rl) regs)
    (hseq : seqEffect i s = .next u) (hregs : u.regs = regs) (hmem : u.mem = s.mem) (hretired : u.retired = s.retired) :
    RunsAsSequential i 3 s := by
  have hpass := Alone.passes_at_once (h.alone hjumps s.mem s.freeCtr)
    (d := s.entered i jumps rl) (d' := s.entered i jumps rl) (fc := s.freeCtr) fun v _ hctr => by
      rw [hstage2, show s.freeCtr = v.freeCtr from hctr.symm]
      rfl
  exact h.runs (n := 0) hcap hjumps hadm rfl rfl hpass hcommit hseq hregs hmem hretired

/-- "other" advances `pc` (R220). -/
theorem AdmittedAlone.runs_other (h : AdmittedAlone i s) (hcap : s.cycle + 3 ≤ s.cfg.cycleCap)
    (hi : ∃ (k : Fin 4) (d a b : Operand), i = .other d a b ∨ i = .otherReserved k d a b) : RunsAsSequential i 3 s := by
  have hadm : admissionOf i = akPlain := by obtain ⟨k, d, a, b, rfl | rfl⟩ := hi <;> rfl
  have hstage2 : stage2Of i = finishPlain := by obtain ⟨k, d, a, b, rfl | rfl⟩ := hi <;> rfl
  have hcommit : commitOf i = ckNone := by obtain ⟨k, d, a, b, rfl | rfl⟩ := hi <;> rfl
  have hseq : seqEffect i s = .next s.advance := by obtain ⟨k, d, a, b, rfl | rfl⟩ := hi <;> rfl
  refine h.runs_plain (jumps := false) (rl := []) hcap hstage2 nofun (fun v _ _ => ?_) (regs := s.advance.regs)
    (fun w hregs _ _ => ?_) hseq rfl rfl rfl
  · rw [hadm]
    rfl
  · rw [hcommit, show s.advance.regs = w.regs from hregs.symm]
    rfl

/-- A jump writes its target into `dst` and `pc` (R201). -/
theorem AdmittedAlone.runs_jal {dst op1 op2 : Operand} (h : AdmittedAlone (.jal dst op1 op2) s)
    (hcap : s.cycle + 3 ≤ s.cfg.cycleCap) (h1 : op1.eval = true) : RunsAsSequential (.jal dst op1 op2) 3 s := by
  obtain ⟨t, ht⟩ := val_of_eval h1 s
  refine h.runs_plain (jumps := true) (rl := [nameOf dst, pcName]) hcap rfl (fun _ => by simp) (fun _ _ _ => rfl)
    (regs := ((s.writeNamed dst t).write (.known .pc) t).regs) (fun w hregs hcfg _ => ?_)
    (u := (s.writeNamed dst t).write (.known .pc) t) ?_ rfl ?_ ?_
  · have hop : (s.entered (.jal dst op1 op2) true [nameOf dst, pcName]).op1V = some t := ht
    have hwritten : ((w.writeNamed dst t).write (.known .pc) t).regs =
        ((s.writeNamed dst t).write (.known .pc) t).regs :=
      write_regs_congr (writeNamed_regs_congr hregs hcfg dst t) (by simpa using hcfg) _ _
    have hframe : (w.writeNamed dst t).write (.known .pc) t =
        { w with regs := ((w.writeNamed dst t).write (.known .pc) t).regs } := by
      rw [writeNamed_eq w dst t]
      rfl
    simp only [commitOf, ckJal, hop]
    rw [hframe, hwritten]
  · simp only [seqEffect, ht]
  · simp
  · simp

/-- A branch with a literal bound is taken or not as its condition `holds` in the sequential interpreter, and writes
`pc` only where it is taken (R202, R205). -/
theorem AdmittedAlone.runs_branch (h : AdmittedAlone i s) (hcap : s.cycle + 3 ≤ s.cfg.cycleCap)
    (huncond : s.cfg.brWbUncond = false) {v t : Int} {text text' : Token} {holds : Int → Int → Bool}
    (hadm : admissionOf i = akCompare holds i.dst (.imm v text)) (hstage2 : stage2Of i = finishPlain)
    (hcommit : commitOf i = ckBranch (.imm v text) (.label (some t) text'))
    (hseq : seqEffect i s = seqBranch (holds (s.readNamed i.dst) (wrap s.cfg.xlen v)) (.label (some t) text') s) :
    RunsAsSequential i 3 s := by
  have hadmits : Admits i s (holds (s.readNamed i.dst) (wrap s.cfg.xlen v))
      (branchNames (holds (s.readNamed i.dst) (wrap s.cfg.xlen v)) i.dst) := by
    intro w hregs hcfg
    have hread : w.readNamed i.dst = s.readNamed i.dst := by
      cases i.dst with
      | reg n => exact read_congr hregs n
      | _ => rfl
    rw [hadm, ← hread, ← hcfg]
    rfl
  cases htaken : holds (s.readNamed i.dst) (wrap s.cfg.xlen v) with
  | true =>
    rw [htaken] at hadmits hseq
    refine h.runs_plain hcap hstage2 (fun _ => by simp [branchNames]) hadmits (regs := (s.write (.known .pc) t).regs)
      (fun w hregs hcfg _ => ?_) hseq rfl rfl rfl
    have hwritten : (w.write (.known .pc) t).regs = (s.write (.known .pc) t).regs := write_regs_congr hregs hcfg _ _
    have hreserved : pcName ∈ (s.entered i true (branchNames true i.dst)).reserved := by
      simp [State.entered, State.withOperands, Decoded.fresh, branchNames]
    simp only [hcommit, ckBranch, hreserved, decide_true, Bool.or_true, if_true, targetOf_label, State.writeNamed]
    rw [write_eq, hwritten]
  | false =>
    rw [htaken] at hadmits hseq
    refine h.runs_plain (jumps := false) hcap hstage2 nofun hadmits (regs := s.advance.regs)
      (fun w hregs hcfg _ => ?_) hseq rfl rfl rfl
    have hoff : w.cfg.brWbUncond = false := (congrArg Config.brWbUncond hcfg).trans huncond
    have hreserved : pcName ∉ (s.entered i false (branchNames false i.dst)).reserved := List.not_mem_nil
    simp only [hcommit, ckBranch, hreserved, hoff, decide_false, Bool.or_self, Bool.false_eq_true, if_false]
    rw [show s.advance.regs = w.regs from hregs.symm]

/-- A well-formed branch has a literal bound and a label that resolves (R100). -/
theorem operands_of_branch {dst op1 op2 : Operand} (hwf : (dst.isReg && op1.isImm && op2.isTarget) = true) :
    ∃ v text t text', op1 = .imm v text ∧ op2 = .label (some t) text' := by
  simp only [Bool.and_eq_true] at hwf
  obtain ⟨⟨-, himm⟩, htarget⟩ := hwf
  cases op1 with
  | imm v text =>
    cases op2 with
    | label target text' =>
      obtain ⟨t, rfl⟩ := Option.isSome_iff_exists.1 htarget
      exact ⟨v, text, t, text', rfl, rfl⟩
    | _ => cases htarget
  | _ => cases himm

/-- Settles O52: the thirteen rows fall into ALU instructions, memory instructions, and those without a result; each of
these classes is followed from the admission to the commit. -/
theorem oneInstructionRunsAsTheSequentialReading : Obligations.OneInstructionRunsAsTheSequentialReading := by
  intro s x i k hrun hquiet huncond hx hi hwf hlast hk hcap
  subst hk
  have h : AdmittedAlone i s := ⟨hrun, hquiet, ⟨x, hx, hi⟩, hlast⟩
  cases i with
  | add d a b | addi d a b => exact h.runs_two (f := fun n x y => some (wrap n (x + y))) rfl hcap hwf rfl rfl
  | sub d a b => exact h.runs_two (f := fun n x y => some (wrap n (x - y))) rfl hcap hwf rfl rfl
  | slli d a b => exact h.runs_two (f := fun n x y => shiftLeftBy n x y) rfl hcap hwf rfl rfl
  | slri d a b => exact h.runs_two (f := fun _ x y => shiftRightBy x y) rfl hcap hwf rfl rfl
  | li d a b => exact h.runs_li hcap (Bool.and_eq_true_iff.1 hwf).2
  | lw d a b => exact h.runs_lw hcap (Bool.and_eq_true_iff.1 hwf).2
  | sw d a b =>
    simp only [Instr.wf, Bool.and_eq_true] at hwf
    obtain ⟨⟨h0, -⟩, h1⟩ := hwf
    exact h.runs_sw hcap h0 h1
  | jal d a b => exact h.runs_jal hcap (Bool.and_eq_true_iff.1 hwf).2
  | bge d a b =>
    obtain ⟨v, text, t, text', rfl, rfl⟩ := operands_of_branch hwf
    exact h.runs_branch (text' := text') hcap huncond (holds := fun x b => decide (b ≤ x)) rfl rfl rfl rfl
  | ble d a b =>
    obtain ⟨v, text, t, text', rfl, rfl⟩ := operands_of_branch hwf
    exact h.runs_branch (text' := text') hcap huncond (holds := fun x b => decide (x ≤ b)) rfl rfl rfl rfl
  | other d a b => exact h.runs_other hcap ⟨0, d, a, b, .inl rfl⟩
  | otherReserved k d a b => exact h.runs_other hcap ⟨k, d, a, b, .inr rfl⟩

end SequentialReading

end Sys2Proof.Machine

/-! The ALU at stage 2 (R131, R171 to R177): the result each row latches, where the operands have values. -/

namespace Sys2Proof.Machine

set_option autoImplicit false

section ShiftResults

/-! ### What the shifts answer (R175, R176) -/

/-- For an amount that is not negative the result of `slli` is the formula of R175. -/
theorem shiftLeftBy_natCast (xlen : Option Nat) (x : Int) (k : Nat) :
    shiftLeftBy xlen x k = some (wrap xlen (x * 2 ^ k)) := by
  rw [shiftLeftBy, if_pos (Int.natCast_nonneg k), Int.toNat_natCast, shiftLeft_eq, Nat.cast_pow, Nat.cast_ofNat]

/-- For an amount that is not negative the result of `slri` is the floor of R176. -/
theorem shiftRightBy_natCast (x : Int) (k : Nat) : shiftRightBy x k = some (Int.fdiv x (2 ^ k)) := by
  have hpow : (0 : Int) ≤ 2 ^ k := by positivity
  rw [shiftRightBy, if_pos (Int.natCast_nonneg k), Int.toNat_natCast, shiftRight_eq, Nat.cast_pow, Nat.cast_ofNat,
    Int.fdiv_eq_ediv_of_nonneg x hpow]

/-- No result is stated for a negative amount (U1). -/
theorem shiftLeftBy_of_neg {k : Int} (hk : k < 0) (xlen : Option Nat) (x : Int) : shiftLeftBy xlen x k = none :=
  if_neg (Int.not_le.2 hk)

theorem shiftRightBy_of_neg {k : Int} (hk : k < 0) (x : Int) : shiftRightBy x k = none :=
  if_neg (Int.not_le.2 hk)

/-- An amount of at least the width leaves no bit of the value: `2^n` divides the product (R175). -/
theorem wrap_mul_pow_of_width_le {n k : Nat} (h : n ≤ k) (x : Int) : wrap (some n) (x * 2 ^ k) = 0 := by
  have hzero : shiftLeft (some n) x k = 0 := if_pos h
  rwa [shiftLeft_eq, Nat.cast_pow, Nat.cast_ofNat] at hzero

/-- A divisor beyond the signed range leaves the sign of the value only (R176). -/
theorem fdiv_pow_of_inRange {n k : Nat} (hn : 1 ≤ n) {x : Int} (hx : InRange (some n) x) (hk : n - 1 ≤ k) :
    Int.fdiv x (2 ^ k) = if 0 ≤ x then 0 else -1 := by
  obtain ⟨hlo, hhi⟩ := (inRange_iff hn x).1 hx
  have hpow : ((2 ^ (n - 1) : Nat) : Int) ≤ 2 ^ k := by exact_mod_cast Nat.pow_le_pow_right two_pos hk
  rw [Int.fdiv_eq_ediv_of_nonneg x (by positivity)]
  split
  · next hpos => exact Int.ediv_eq_zero_of_lt hpos (by omega)
  · next hneg => exact Int.ediv_eq_neg_one_of_neg_of_le (by omega) (by omega)

end ShiftResults

section AluStageTwo

/-! ### Stage 2 of the ALU rows (R131, R171 to R176) -/

variable {s : State} {d : Decoded} {i : Instr} {x y : Int}

/-- A row with one source whose value is there completes with its formula (R131, R171). -/
theorem exec_of_aluOne {f : Int → Option Int} (hi : stage2Of i = aluOne f) (hp : s.point = .atExecute)
    (hd : s.s2In = some d) (hx : d.op1V = some x) : exec i s = .next (s.finishWith d (f x)) := by
  simp only [exec_eq_stage2Of hp hd, hi, aluOne, hx]

/-- A row with two sources whose values are there completes with its formula, at the machine's width (R131, R172 to
R176). -/
theorem exec_of_aluTwo {f : Option Nat → Int → Int → Option Int} (hi : stage2Of i = aluTwo f)
    (hp : s.point = .atExecute) (hd : s.s2In = some d) (hx : d.op1V = some x) (hy : d.op2V = some y) :
    exec i s = .next (s.finishWith d (f s.cfg.xlen x y)) := by
  simp only [exec_eq_stage2Of hp hd, hi, aluTwo, hx, hy]

/-- Completion with a stated result writes the two latches of stage 2 and nothing else (R131). -/
theorem finishWith_some (s : State) (d : Decoded) (v : Int) :
    s.finishWith d (some v) = { s with s2In := none, s2Out := some { d with res := some v } } := rfl

/-- Completion without a stated result uses up the free value of the moment (entry 5). -/
theorem finishWith_none (s : State) (d : Decoded) : s.finishWith d none =
    { s with s2In := none, s2Out := some { d with res := some s.free }, freeCtr := s.freeCtr + 1 } := rfl

theorem exec_slli (dst op1 op2 : Operand) (hp : s.point = .atExecute) (hd : s.s2In = some d) (hx : d.op1V = some x)
    (hy : d.op2V = some y) : exec (.slli dst op1 op2) s = .next (s.finishWith d (shiftLeftBy s.cfg.xlen x y)) :=
  exec_of_aluTwo (f := shiftLeftBy) rfl hp hd hx hy

theorem exec_slri (dst op1 op2 : Operand) (hp : s.point = .atExecute) (hd : s.s2In = some d) (hx : d.op1V = some x)
    (hy : d.op2V = some y) : exec (.slri dst op1 op2) s = .next (s.finishWith d (shiftRightBy x y)) :=
  exec_of_aluTwo (f := fun _ => shiftRightBy) rfl hp hd hx hy

end AluStageTwo

section AluObligations

/-- Settles O23: at an amount that is not negative both shifts state their result. -/
theorem shiftsCompleteWithPowersOfTwo : Obligations.ShiftsCompleteWithPowersOfTwo := by
  intro dst op1 op2 s d x k hp hd hx hk
  constructor
  · rw [exec_slli dst op1 op2 hp hd hx hk, shiftLeftBy_natCast, finishWith_some]
  · rw [exec_slri dst op1 op2 hp hd hx hk, shiftRightBy_natCast, finishWith_some]

/-- Settles O24: at such amounts the formulas of O23 have the value 0, or one by the sign. -/
theorem longShiftsLeaveZeroOrTheSign : Obligations.LongShiftsLeaveZeroOrTheSign := by
  intro dst op1 op2 s d n k x hwidth hn hrange hp hd hx hk
  rw [hwidth] at hrange
  obtain ⟨hslli, hslri⟩ := shiftsCompleteWithPowersOfTwo dst op1 op2 s d x k hp hd hx hk
  refine ⟨fun hlong => ⟨_, hslli, ?_⟩, fun hlong => ⟨_, hslri, ?_⟩⟩
  · simp only [hwidth, wrap_mul_pow_of_width_le hlong]
  · simp only [fdiv_pow_of_inRange hn hrange hlong]

/-- Settles O21: the three rows state their result for all values. -/
theorem sumsAndDifferencesComplete : Obligations.SumsAndDifferencesComplete := by
  intro dst op1 op2 s d x y hp hd hx hy
  refine ⟨?_, ?_, ?_⟩
  · exact exec_of_aluTwo (f := fun n x y => some (wrap n (x + y))) rfl hp hd hx hy
  · exact exec_of_aluTwo (f := fun n x y => some (wrap n (x + y))) rfl hp hd hx hy
  · exact exec_of_aluTwo (f := fun n x y => some (wrap n (x - y))) rfl hp hd hx hy

/-- Settles O22: `li` is the one row with one source. -/
theorem loadImmediateCopies : Obligations.LoadImmediateCopies :=
  fun _ _ _ _ _ _ hp hd hx => exec_of_aluOne (f := some) rfl hp hd hx

/-- Settles O25: neither shift states a result, so the completion takes the free value. -/
theorem negativeShiftAmountGivesAFreeValue : Obligations.NegativeShiftAmountGivesAFreeValue := by
  intro dst op1 op2 i s d x y hi hp hd hx hy hneg
  refine ⟨free_inRange s, ?_⟩
  rcases hi with rfl | rfl
  · rw [exec_slli dst op1 op2 hp hd hx hy, shiftLeftBy_of_neg hneg, finishWith_none]
  · rw [exec_slri dst op1 op2 hp hd hx hy, shiftRightBy_of_neg hneg, finishWith_none]

end AluObligations

end Sys2Proof.Machine

/-! Loads and stores at stage 2 (R190 to R192): the first visit, the countdown, and the access on the last visit. -/

namespace Sys2Proof.Machine

set_option autoImplicit false

section MemoryStageTwo

/-! ### The accesses (R191, R192) -/

theorem loadAccess_of_address {d : Decoded} {a : Int} (ha : d.op1V = some a) (s : State) :
    loadAccess d s = .next (s.finish { d with memV := some (s.memRead a), res := some (s.memRead a) }) := by
  simp only [loadAccess, ha]

theorem storeAccess_of_values {d : Decoded} {a v : Int} (ha : d.op1V = some a) (hv : d.dstV = some v) (s : State) :
    storeAccess d s = .next ((s.memWrite a v).finish d) := by
  simp only [storeAccess, ha, hv]

/-- Completion moves latches only: every cell reads as before (R131). -/
@[simp] theorem finish_memRead (s : State) (d : Decoded) (a : Int) : (s.finish d).memRead a = s.memRead a := rfl

/-! ### The visits (R190) -/

variable {s : State} {d : Decoded} {i : Instr} {access : Decoded → State → Out}

theorem exec_of_first_visit (hi : stage2Of i = lsuVisit access) (hp : s.point = .atExecute) (hd : s.s2In = some d)
    (hstalled : d.stalled = false) :
    exec i s = .next ({ s with lsuCnt := s.cfg.lsuDelay }.peek { d with stalled := true }) := by
  rw [exec_eq_stage2Of hp hd, hi, lsuVisit_of_first hstalled]

theorem exec_of_counting_visit (hi : stage2Of i = lsuVisit access) (hp : s.point = .atExecute)
    (hd : s.s2In = some d) (hstalled : d.stalled = true) (hcnt : 2 ≤ s.lsuCnt) :
    exec i s = .next ({ s with lsuCnt := s.lsuCnt - 1 }.peek d) := by
  obtain ⟨n, hn⟩ := Nat.exists_eq_add_of_le' hcnt
  rw [exec_eq_stage2Of hp hd, hi, lsuVisit_of_counting hstalled hn, hn]
  rfl

theorem exec_of_last_visit (hi : stage2Of i = lsuVisit access) (hp : s.point = .atExecute) (hd : s.s2In = some d)
    (hstalled : d.stalled = true) (hcnt : s.lsuCnt = 1) :
    exec i s = access { d with stalled := false } { s with lsuCnt := 0 } := by
  rw [exec_eq_stage2Of hp hd, hi, lsuVisit_of_last hstalled hcnt]

end MemoryStageTwo

section MemoryObligations

/-- Settles O28: the last visit performs the store, and a read finds what the write left in each cell. -/
theorem storeCompletesInItsCell : Obligations.StoreCompletesInItsCell := by
  intro dst op1 op2 s d a v hm hp hd hstalled hcnt ha hv
  have hread (b : Int) : ({ s with lsuCnt := 0 }.memWrite a v).memRead b = if b = a then v else s.memRead b :=
    memRead_memWrite (s := { s with lsuCnt := 0 }) hm a b v
  refine ⟨({ s with lsuCnt := 0 }.memWrite a v).finish { d with stalled := false }, ?_, ?_, fun b hb => ?_,
    memory_wf_writeCell hm a v, rfl, rfl, rfl, rfl⟩
  · rw [exec_of_last_visit rfl hp hd hstalled hcnt]
    exact storeAccess_of_values (d := { d with stalled := false }) ha hv _
  · rw [finish_memRead, hread, if_pos rfl]
  · rw [finish_memRead, hread, if_neg hb]

/-- Settles O26: both rows visit stage 2 in the same way, whatever access they will perform. -/
theorem memoryInstructionsCountDown : Obligations.MemoryInstructionsCountDown := by
  intro dst op1 op2 i s d hrow hp hd
  obtain ⟨access, hi⟩ : ∃ access, stage2Of i = lsuVisit access := by
    rcases hrow with rfl | rfl
    · exact ⟨loadAccess, rfl⟩
    · exact ⟨storeAccess, rfl⟩
  exact ⟨exec_of_first_visit hi hp hd, exec_of_counting_visit hi hp hd⟩

/-- Settles O27: the last visit performs the load, which changes no cell. -/
theorem loadCompletesWithTheCell : Obligations.LoadCompletesWithTheCell := by
  intro dst op1 op2 s d a hp hd hstalled hcnt ha
  refine ⟨{ s with lsuCnt := 0 }.finish
    { d with stalled := false, memV := some (s.memRead a), res := some (s.memRead a) }, ?_, rfl, rfl, rfl,
    fun _ => rfl, rfl⟩
  rw [exec_of_last_visit rfl hp hd hstalled hcnt]
  exact loadAccess_of_address (d := { d with stalled := false }) ha _

end MemoryObligations

end Sys2Proof.Machine

/-! The commits of the control rows (R201, R202, R205): a jump writes its target, and so does a branch where the
parameter or its reservation of `pc` says that it jumps. -/

namespace Sys2Proof.Machine

set_option autoImplicit false

section ControlCommits

/-! ### The two writes of a jump (R201, R202) -/

/-- The target into the register that an operand names, then into `pc`. -/
def State.jumpTo (s : State) (o : Operand) (target : Int) : State := (s.writeNamed o target).write (.known .pc) target

theorem reg_jumpTo (s : State) (o : Operand) (target : Int) (q : Reg) :
    (s.jumpTo o target).reg q = if q = .pc ∨ o = .reg (.known q) then wrap s.cfg.xlen target else s.reg q := by
  by_cases hpc : q = .pc
  · simp [State.jumpTo, reg_write, knownReg, hpc]
  · simp [State.jumpTo, reg_write, reg_writeNamed, namedReg_eq_some_iff, knownReg, hpc, Ne.symm hpc]

theorem jumpTo_eq (s : State) (o : Operand) (target : Int) :
    s.jumpTo o target = { s with regs := (s.jumpTo o target).regs } := by
  rw [State.jumpTo, write_eq, writeNamed_eq]

/-- What is seen of a jump that commits, whatever row makes it (R129, R201, R202). -/
theorem jumpTo_retire (s : State) (o : Operand) (target : Int) (d : Decoded) :
    (∀ q, ((s.jumpTo o target).retire d).reg q =
      if q = .pc ∨ o = .reg (.known q) then wrap s.cfg.xlen target else s.reg q) ∧
    SameMemory s ((s.jumpTo o target).retire d) ∧ RetiredFrom d s ((s.jumpTo o target).retire d) :=
  ⟨reg_jumpTo s o target, retire_of_regs (jumpTo_eq s o target) d⟩

/-! ### The two commit actions -/

variable {s : State} {d : Decoded} {i : Instr} {dst op1 op2 : Operand} {target : Int}

theorem ckJal_of_target (h : d.op1V = some target) (dst : Operand) (s : State) :
    ckJal dst d s = .next ((s.jumpTo dst target).retire d) := by
  simp only [ckJal, h, State.jumpTo]

theorem ckBranch_of_jump (hjump : s.cfg.brWbUncond = true ∨ pcName ∈ d.reserved) (h : s.targetOf op2 = some target)
    (op1 : Operand) : ckBranch op1 op2 d s = .next ((s.jumpTo op1 target).retire d) := by
  simp [ckBranch, hjump, h, State.jumpTo]

theorem ckBranch_of_no_jump (hjump : ¬(s.cfg.brWbUncond = true ∨ pcName ∈ d.reserved)) (op1 op2 : Operand) :
    ckBranch op1 op2 d s = .next (s.retire d) := by
  simp [ckBranch, hjump]

/-- Both branches commit alike: the condition was decided at the admission (R126, R202). -/
theorem exec_of_branch_commit (hi : i = .bge dst op1 op2 ∨ i = .ble dst op1 op2) (hp : s.point = .atCommit)
    (hd : s.s3In = some d) : exec i s = ckBranch op1 op2 d s := by
  rw [exec_eq_commitOf hp hd]
  rcases hi with rfl | rfl <;> rfl

end ControlCommits

section ControlObligations

/-- Settles O33: `jal` jumps to its first source, and `dst` is the operand it writes besides `pc`. -/
theorem jumpCommitsItsTargetAndNoLink : Obligations.JumpCommitsItsTargetAndNoLink := by
  intro dst op1 op2 s d target hp hd htarget
  refine ⟨(s.jumpTo dst target).retire d, ?_, jumpTo_retire s dst target d⟩
  rw [exec_eq_commitOf hp hd]
  exact ckJal_of_target htarget dst s

/-- Settles O34: a literal names no register, so a branch that jumps writes `pc` alone. -/
theorem branchCommitsByTheParameter : Obligations.BranchCommitsByTheParameter := by
  refine ⟨fun dst op2 v target text i s d hi htarget hp hd => ?_, fun s => ⟨targetOf_operandOf s, targetOf_label s⟩⟩
  rw [exec_of_branch_commit hi hp hd]
  by_cases hjump : s.cfg.brWbUncond = true ∨ pcName ∈ d.reserved
  · obtain ⟨hreg, hframe⟩ := jumpTo_retire s (.imm v text) target d
    refine ⟨_, ckBranch_of_jump hjump htarget _, fun _ q => ?_, fun hoff hfree => ?_, hframe⟩
    · simpa using hreg q
    · exact absurd hjump (by simp [hoff, hfree])
  · exact ⟨_, ckBranch_of_no_jump hjump _ op2, fun h => absurd h hjump, fun _ _ _ => rfl, retire_of_regs rfl d⟩

/-- Settles O35: `op1` is the operand that a branch writes besides `pc`, as `dst` is for `jal`. -/
theorem branchOverwritesTheRegisterOfOpOne : Obligations.BranchOverwritesTheRegisterOfOpOne := by
  intro dst op2 n target i s d hi htarget hp hd hjump
  rw [exec_of_branch_commit hi hp hd]
  obtain ⟨hreg, hframe⟩ := jumpTo_retire s (.reg n) target d
  exact ⟨_, ckBranch_of_jump hjump htarget _, fun q => by simpa using hreg q, hframe⟩

end ControlObligations

end Sys2Proof.Machine

/-! Progress (R230, R232): under a well-formed program every step of a cycle finds the instruction and the values it
uses, so a run never stops; and a run that has ended holds its state (R247). -/

namespace Sys2Proof.Machine

set_option autoImplicit false

section OutsideACycle

/-! ### Steps that run no cycle (R140, R247, R263) -/

theorem step_of_rst {s : State} (hlegal : s.cfg.legal = true) (hrst : s.rst = true) : step s = .next s.toReset := by
  simp only [step, driverStep, hlegal, hrst, if_true]

theorem step_of_ended {s : State} (hlegal : s.cfg.legal = true) (hrst : s.rst = false) (hended : s.ended = true) :
    step s = .next s := by
  simp only [step, driverStep, hlegal, hrst, hended, if_true, Bool.false_eq_true, if_false]

/-- A run ends without a program, drained, or capped (R140, R233). -/
theorem ended_iff (s : State) : s.ended = true ↔ s.size = 0 ∨ s.emptyPipe = true ∨ s.cfg.cycleCap ≤ s.cycle := by
  simp only [State.ended, Bool.or_eq_true, decide_eq_true_eq, or_assoc]

/-- Settles O38: the driver calls no cycle at any of the three ends. -/
theorem endedRunHoldsItsState : Obligations.EndedRunHoldsItsState :=
  fun s hlegal hrst hend => step_of_ended hlegal hrst ((ended_iff s).2 hend)

end OutsideACycle

section Answers

/-! ### Actions that find their values answer a next state -/

variable {d : Decoded} {i : Instr}

theorem aluOne_answers (h1 : d.op1V.isSome = true) (f : Int → Option Int) (s : State) :
    ∃ t, aluOne f d s = .next t := by
  obtain ⟨x, hx⟩ := Option.isSome_iff_exists.1 h1
  simp only [aluOne, hx]
  exact ⟨_, rfl⟩

theorem aluTwo_answers (h1 : d.op1V.isSome = true) (h2 : d.op2V.isSome = true)
    (f : Option Nat → Int → Int → Option Int) (s : State) : ∃ t, aluTwo f d s = .next t := by
  obtain ⟨x, hx⟩ := Option.isSome_iff_exists.1 h1
  obtain ⟨y, hy⟩ := Option.isSome_iff_exists.1 h2
  simp only [aluTwo, hx, hy]
  exact ⟨_, rfl⟩

/-- The visits before the last one use no value (R190). -/
theorem lsuVisit_answers {access : Decoded → State → Out}
    (haccess : ∀ u, ∃ t, access { d with stalled := false } u = .next t) (s : State) :
    ∃ t, lsuVisit access d s = .next t := by
  unfold lsuVisit
  split
  · split
    · exact haccess _
    · exact ⟨_, rfl⟩
  · exact ⟨_, rfl⟩

/-- No admission needs a value (R126). -/
theorem admissionOf_answers (i : Instr) (s : State) : ∃ t, admissionOf i s = .next t := by
  cases i <;> exact ⟨_, rfl⟩

/-- The stage 2 work of a well-formed instruction uses only operands that `EVAL` accepts (R100, R130, R190). -/
theorem stage2Of_answers (hwf : i.wf = true) (hread : ValuesRead i d) (s : State) :
    ∃ t, stage2Of i d s = .next t := by
  obtain ⟨hdst, hop1, hop2⟩ := hread
  cases i with
  | add | addi | sub | slli | slri =>
    simp only [Instr.wf, Bool.and_eq_true] at hwf
    obtain ⟨⟨-, h1⟩, h2⟩ := hwf
    unfold stage2Of
    exact aluTwo_answers (hop1 h1) (hop2 h2) _ s
  | li => exact aluOne_answers (hop1 (Bool.and_eq_true_iff.1 hwf).2) _ s
  | lw =>
    obtain ⟨a, ha⟩ := Option.isSome_iff_exists.1 (hop1 (Bool.and_eq_true_iff.1 hwf).2)
    exact lsuVisit_answers (fun u => ⟨_, loadAccess_of_address (d := { d with stalled := false }) ha u⟩) s
  | sw =>
    simp only [Instr.wf, Bool.and_eq_true] at hwf
    obtain ⟨⟨h0, -⟩, h1⟩ := hwf
    obtain ⟨a, ha⟩ := Option.isSome_iff_exists.1 (hop1 h1)
    obtain ⟨v, hv⟩ := Option.isSome_iff_exists.1 (hdst h0)
    exact lsuVisit_answers (fun u => ⟨_, storeAccess_of_values (d := { d with stalled := false }) ha hv u⟩) s
  | jal | bge | ble | other | otherReserved => exact ⟨_, rfl⟩

/-- A branch with a label that resolves commits, whether it jumps or not (R202, R205). -/
theorem ckBranch_answers (op1 : Operand) (t : Int) (text : Token) (d : Decoded) (s : State) :
    ∃ u, ckBranch op1 (.label (some t) text) d s = .next u := by
  by_cases hjump : s.cfg.brWbUncond = true ∨ pcName ∈ d.reserved
  · exact ⟨_, ckBranch_of_jump hjump (targetOf_label s (some t) text) op1⟩
  · exact ⟨_, ckBranch_of_no_jump hjump op1 _⟩

/-- The commit of a well-formed instruction uses its result, its first source or its label (R100, R129). -/
theorem commitOf_answers (hwf : i.wf = true) (hread : ValuesRead i d) (hres : i.wb = true → d.res.isSome = true)
    (s : State) : ∃ t, commitOf i d s = .next t := by
  cases i with
  | add | addi | li | lw | slli | slri | sub =>
    obtain ⟨v, hv⟩ := Option.isSome_iff_exists.1 (hres rfl)
    exact ⟨_, ckWb_of_result hv _ s⟩
  | sw | other | otherReserved => exact ⟨_, rfl⟩
  | jal =>
    obtain ⟨-, hop1, -⟩ := hread
    obtain ⟨v, hv⟩ := Option.isSome_iff_exists.1 (hop1 (Bool.and_eq_true_iff.1 hwf).2)
    exact ⟨_, ckJal_of_target hv _ s⟩
  | bge | ble =>
    obtain ⟨v, text, t, text', rfl, rfl⟩ := operands_of_branch hwf
    exact ckBranch_answers _ t text' d s

/-- What stage 1 reads has every value that `EVAL` says is there (R100, R132). -/
theorem valuesRead_withOperands (s : State) (i : Instr) (d : Decoded) : ValuesRead i (s.withOperands i d) := by
  have hval : ∀ o : Operand, o.eval = true → (s.val o).isSome = true :=
    fun o ho => Option.isSome_iff_exists.2 (val_of_eval ho s)
  exact ⟨hval _, hval _, hval _⟩

end Answers

section Supplies

/-! ### What every step of a cycle relies on -/

variable {s t : State} {d : Decoded} {i : Instr}

/-- The commit of `d` finds its instruction and the values it uses (R129). -/
abbrev State.Committable (s : State) (d : Decoded) : Prop :=
  ∃ i, s.instrAt d.idx = some i ∧ ValuesRead i d ∧ (i.wb = true → d.res.isSome = true)

/-- The invariant of the latched data with stage 3, which is empty between cycles only, for a well-formed program. -/
structure Supplied (s : State) : Prop extends DataInv s where
  program : s.ProgramWf
  stage3 : ∀ d, s.s3In = some d → s.Committable d

/-- An instruction of a well-formed program is well-formed (R100). -/
theorem State.ProgramWf.instrAt (h : s.ProgramWf) {idx : Int} (hi : s.instrAt idx = some i) :
    ∃ x, s.fetch idx = some x ∧ s.decode x = .ok i ∧ i.wf = true := by
  unfold State.instrAt at hi
  split at hi
  · cases hi
  · next x hx =>
    split at hi
    · next j hj =>
      cases hi
      exact ⟨x, hx, hj, h.candidate hx hj⟩
    · cases hi

/-- A slot of a well-formed program has an instruction (R100, R107). -/
theorem State.ProgramWf.decodes (h : s.ProgramWf) {a : Int} {x : Slot} (hx : s.fetch a = some x) :
    ∃ i, s.decode x = .ok i := by
  have hmem : x ∈ s.ib := by
    unfold State.fetch at hx
    split at hx
    · exact List.mem_of_getElem? hx
    · cases hx
  have hslot := h x hmem
  unfold slotWf at hslot
  split at hslot
  · next i hi => exact ⟨i, hi⟩
  · cases hslot

theorem toReset_dataInv (s : State) : DataInv s.toReset where
  stage1 _ h := nomatch h
  stage1Out _ h := nomatch h
  stage2 _ h := nomatch h
  stage2Out _ h := nomatch h

/-- Step N3 moves an instruction whose stage 2 work is done, since stage 2 is empty while nothing counts down (R122,
R143 (c)). -/
theorem PipeInv.supplied (h : PipeInv s) (hwf : s.ProgramWf) (hdata : DataInv s) :
    Supplied (Machine.stepN3 s) := by
  rcases stepN3_cases s with ⟨d, -, hcnt, hd, hs⟩ | ⟨-, hs⟩
  · have hin : s.s2In = none := by
      rcases h.settled with ⟨e, -, hpos, -⟩ | ⟨hin, -⟩
      · exact absurd hcnt hpos.ne'
      · exact hin
    obtain ⟨i, hi, hread, hres⟩ := hdata.stage2Out d hd
    rw [hs]
    refine ⟨⟨hdata.stage1, hdata.stage1Out, hdata.stage2, nofun⟩, hwf, fun e he => ?_⟩
    cases he
    exact ⟨i, hi, hread, hres hin⟩
  · rw [hs]
    exact ⟨hdata, hwf, fun d hd => by cases hd.symm.trans h.stage3Empty⟩

theorem Supplied.stepN2 (h : Supplied s) : Supplied (Machine.stepN2 s) := by
  rcases stepN2_cases s with ⟨d, -, hd, hs⟩ | ⟨-, hs⟩
  · rw [hs]
    refine ⟨⟨h.stage1, nofun, fun e he => ?_, fun e he => ?_⟩, h.program, h.stage3⟩
    · cases he
      exact h.stage1Out d hd
    · obtain ⟨i, hi, hread, -⟩ := h.stage2Out e he
      exact ⟨i, hi, hread, nofun⟩
  · rw [hs]
    exact h

theorem Supplied.nextCycle (h : Supplied s) : Supplied s.nextCycle :=
  ⟨⟨h.stage1, h.stage1Out, h.stage2, h.stage2Out⟩, h.program, h.stage3⟩

theorem Supplied.emit (h : Supplied s) (e : Event) : Supplied (s.emit e) :=
  ⟨⟨h.stage1, h.stage1Out, h.stage2, h.stage2Out⟩, h.program, h.stage3⟩

/-- Step N1 admits the instruction of a slot, or nothing (R124). -/
theorem Supplied.stepN1 (h : Supplied s) : ∃ t, stepN1 s = .next t ∧ Supplied t := by
  have hanswer : ∃ t, Machine.stepN1 s = .next t := by
    by_cases hheld : s.HeldBack
    · exact ⟨s, stepN1_of_heldBack hheld⟩
    · simp only [State.HeldBack, not_or, not_not] at hheld
      obtain ⟨hfree, hslot, -⟩ := hheld
      obtain ⟨x, hx⟩ := Option.ne_none_iff_exists'.1 hslot
      obtain ⟨i, hi⟩ := h.program.decodes hx
      rw [stepN1_of_candidate hfree hx]
      cases hb : s.blocked i with
      | true => exact ⟨s, considerSlot_of_blocked hi hb⟩
      | false =>
        rw [considerSlot_of_ok hi hb]
        obtain ⟨u, hu⟩ := admissionOf_answers i { s with point := .atAdmission }
        exact ⟨_, callAt_of_exec ((exec_eq_admissionOf rfl i).trans hu)⟩
  obtain ⟨t, ht⟩ := hanswer
  refine ⟨t, ht, ?_⟩
  rcases stepN1_admits ht with rfl | ⟨x, i, rl, regs, fc, -, hx, hi, -, -, -, rfl⟩
  · exact h
  · refine ⟨⟨fun d hd => ?_, h.stage1Out, h.stage2, h.stage2Out⟩, h.program, h.stage3⟩
    cases hd
    exact Option.isSome_of_eq_some (instrAt_of (s := s) hx hi)

/-- Step P3 commits an instruction whose result is there, or nothing (R129). -/
theorem Supplied.stepP3 (h : Supplied s) : ∃ t, stepP3 s = .next t ∧ Supplied t := by
  have hanswer : ∃ t, Machine.stepP3 s = .next t := by
    cases hd : s.s3In with
    | none => exact ⟨s, stepP3_of_empty hd⟩
    | some d =>
      obtain ⟨i, hinstr, hread, hres⟩ := h.stage3 d hd
      obtain ⟨x, hx, hi, hwf⟩ := h.program.instrAt hinstr
      obtain ⟨u, hu⟩ := commitOf_answers hwf hread hres { s with point := .atCommit }
      rw [stepP3_of_latched hd hx hi]
      exact ⟨_, callAt_of_exec ((exec_eq_commitOf (s := { s with point := .atCommit }) rfl hd i).trans hu)⟩
  obtain ⟨t, ht⟩ := hanswer
  refine ⟨t, ht, ?_⟩
  rcases stepP3_commits ht with ⟨-, rfl⟩ | ⟨d, x, i, regs, -, -, -, rfl⟩
  · exact h
  · exact ⟨⟨h.stage1, h.stage1Out, h.stage2, h.stage2Out⟩, h.program, nofun⟩

/-- What stage 2 shows after its work is the instruction it holds, with the values stage 1 has read; it has left stage 2
with a result where it writes back, or it is still there (R130, R131, R190). -/
theorem stepP2_shows (hd : s.s2In = some d) (hi : s.instrAt d.idx = some i) (h : stepP2 s = .next t) :
    ∃ e, t.s2Out = some e ∧ e.idx = d.idx ∧ (ValuesRead i d → ValuesRead i e) ∧
      (t.s2In = some e ∨ t.s2In = none ∧ (i.wb = true → e.res.isSome = true)) := by
  rcases stepP2_executes h with ⟨hnone, -⟩ | ⟨d', x, i', hd', hx, hi', hwork⟩
  · cases hd.symm.trans hnone
  · cases hd.symm.trans hd'
    cases hi.symm.trans (instrAt_of hx hi')
    rcases hwork with ⟨-, r, fc, hres, -, rfl⟩ | ⟨-, ⟨-, rfl⟩ | ⟨-, -, rfl⟩ | ⟨-, -, -, a, -, rfl⟩ |
      ⟨-, -, hst, a, v, -, -, rfl⟩⟩
    · exact ⟨_, rfl, rfl, id, .inr ⟨rfl, hres⟩⟩
    · exact ⟨_, rfl, rfl, id, .inl rfl⟩
    · exact ⟨_, rfl, rfl, id, .inl rfl⟩
    · exact ⟨_, rfl, rfl, id, .inr ⟨rfl, fun _ => rfl⟩⟩
    · obtain ⟨dst, op1, op2, rfl⟩ := instr_eq_sw_of_st hst
      exact ⟨_, rfl, rfl, id, .inr ⟨rfl, nofun⟩⟩

/-- Step P2 works on an instruction whose operands are there, or on nothing (R130). -/
theorem Supplied.stepP2 (h : Supplied s) : ∃ t, stepP2 s = .next t ∧ Supplied t := by
  cases hd : s.s2In with
  | none => exact ⟨s, stepP2_of_empty hd, h⟩
  | some d =>
    obtain ⟨i, hinstr, hread⟩ := h.stage2 d hd
    obtain ⟨x, hx, hi, hwf⟩ := h.program.instrAt hinstr
    obtain ⟨u, hu⟩ := stage2Of_answers hwf hread { s with point := .atExecute }
    obtain ⟨t, ht⟩ : ∃ t, Machine.stepP2 s = .next t := by
      rw [stepP2_of_latched hd hx hi]
      exact ⟨_, callAt_of_exec ((exec_eq_stage2Of (s := { s with point := .atExecute }) rfl hd i).trans hu)⟩
    obtain ⟨e, hout, hidx, hkeeps, hin⟩ := stepP2_shows hd hinstr ht
    have hshown : s.instrAt e.idx = some i := hidx ▸ hinstr
    refine ⟨t, ht, ?_⟩
    rw [stepP2_frame ht]
    refine ⟨⟨h.stage1, h.stage1Out, fun f hf => ?_, fun f hf => ?_⟩, h.program, h.stage3⟩
    · rcases hin with hstays | ⟨hleft, -⟩
      · cases hf.symm.trans hstays
        exact ⟨i, hshown, hkeeps hread⟩
      · cases hf.symm.trans hleft
    · cases hf.symm.trans hout
      refine ⟨i, hshown, hkeeps hread, fun hnone => ?_⟩
      rcases hin with hstays | ⟨-, hres⟩
      · cases hstays.symm.trans hnone
      · exact hres

/-- Step P1 reads the operands of an instruction, or nothing (R132). -/
theorem Supplied.stepP1 (h : Supplied s) : ∃ t, stepP1 s = .next t ∧ Supplied t := by
  have hanswer : ∃ t, Machine.stepP1 s = .next t := by
    by_cases hidle : s.s1In = none ∨ s.s1Out ≠ none
    · exact ⟨s, stepP1_of_idle hidle⟩
    · simp only [not_or, not_not] at hidle
      obtain ⟨hsome, hout⟩ := hidle
      obtain ⟨d, hd⟩ := Option.ne_none_iff_exists'.1 hsome
      obtain ⟨i, hinstr⟩ := Option.isSome_iff_exists.1 (h.stage1 d hd)
      obtain ⟨x, hx, hi, -⟩ := h.program.instrAt hinstr
      have hread := latchOperands_of_latched (s := { s with point := .atOperands }) hd i.dst i.op1 i.op2
      rw [stepP1_of_latched hd hout hx hi]
      exact ⟨_, callAt_of_exec ((exec_eq_latchOperands rfl i).trans hread)⟩
  obtain ⟨t, ht⟩ := hanswer
  refine ⟨t, ht, ?_⟩
  rcases stepP1_reads ht with ⟨-, rfl⟩ | ⟨d, x, i, -, -, hx, hi, rfl⟩
  · exact h
  · refine ⟨⟨nofun, fun e he => ?_, h.stage2, h.stage2Out⟩, h.program, h.stage3⟩
    cases he
    exact ⟨i, instrAt_of (s := s) hx hi, valuesRead_withOperands s i d⟩

/-- Each step of a cycle leaves what the next one relies on (R120). -/
theorem Supplied.clockCycle (hwf : s.ProgramWf) (hpipe : PipeInv s) (hdata : DataInv s) :
    ∃ t, clockCycle s = .next t ∧ Supplied t := by
  have hmoved : Supplied (Machine.stepN2 (Machine.stepN3 s)) := (hpipe.supplied hwf hdata).stepN2
  obtain ⟨n, hn, hsn⟩ := (hmoved.nextCycle.emit (.clk false)).stepN1
  obtain ⟨p, hp, hsp⟩ := (hsn.emit (.clk true)).stepP3
  obtain ⟨q, hq, hsq⟩ := hsp.stepP2
  obtain ⟨t, ht, hst⟩ := hsq.stepP1
  refine ⟨t, ?_, hst⟩
  rw [← stepN2_nextCycle_emit, ← stepN3_nextCycle_emit] at hn
  simp only [Machine.clockCycle, negedge, posedge, hn, hp, hq, ht, andThen_of_next]

end Supplies

section Progress

/-! ### Steps and runs of a well-formed program -/

/-- Settles O50: reset and the end of a run need no value, and in a cycle each step finds what it uses. -/
theorem wellFormedProgramsNeverStop : Obligations.WellFormedProgramsNeverStop := by
  intro s hlegal hwf hpipe hdata
  have hstep : ∃ t, step s = .next t ∧ DataInv t := by
    cases hrst : s.rst with
    | true => exact ⟨s.toReset, step_of_rst hlegal hrst, toReset_dataInv s⟩
    | false =>
      cases hended : s.ended with
      | true => exact ⟨s, step_of_ended hlegal hrst hended, hdata⟩
      | false =>
        obtain ⟨t, ht, hsupplied⟩ := Supplied.clockCycle hwf hpipe hdata
        exact ⟨t, (step_of_running ⟨hlegal, hrst, hended⟩).trans ht, hsupplied.toDataInv⟩
  obtain ⟨t, ht, hdata'⟩ := hstep
  exact ⟨t, ht, pipelineInvariantIsKept s t hpipe ht, hdata'⟩

/-- A run of a well-formed program goes on from every state that meets the invariants: its steps keep them, and the
program and the parameters with them. -/
theorem runFor_answers (k : Nat) {s : State} (hlegal : s.cfg.legal = true) (hwf : s.ProgramWf) (hpipe : PipeInv s)
    (hdata : DataInv s) : ∃ t, runFor k s = .next t := by
  induction k generalizing s with
  | zero => exact ⟨s, rfl⟩
  | succ k ih =>
    obtain ⟨u, hu, hpipe', hdata'⟩ := wellFormedProgramsNeverStop s hlegal hwf hpipe hdata
    obtain ⟨hib, hlbl, hcfg, -⟩ := programAndParametersAreReadOnly s u hu
    have hwf' : u.ProgramWf := by
      rw [State.ProgramWf, hib, hlbl, hcfg]
      exact hwf
    rw [runFor_succ, hu]
    exact ih (hcfg ▸ hlegal) hwf' hpipe' hdata'

/-- A loaded machine is at reset, where no invariant asks for anything (R260). -/
theorem runFor_of_loadSlots {c : Config} {ib : List Slot} {lbl : List (Token × Nat)} {s : State}
    (h : loadSlots c ib lbl = .ok s) (k : Nat) : ∃ t, runFor k s = .next t := by
  obtain ⟨hlegal, -, hwf, rfl⟩ := loadSlots_ok_iff.1 h
  have hreset : (State.resetWith c ib lbl).toReset = State.resetWith c ib lbl := rfl
  exact runFor_answers k hlegal hwf (hreset ▸ toReset_pipeInv _) (hreset ▸ toReset_dataInv _)

/-- Settles O51: both loaders hand their slots to `loadSlots`. -/
theorem loadedProgramsRunOn : Obligations.LoadedProgramsRunOn := by
  intro c rs ws s k h
  rcases h with h | h
  · exact runFor_of_loadSlots h k
  · exact runFor_of_loadSlots h k

end Progress

end Sys2Proof.Machine

/-! The reset pin (R263): a step under `rst` is a reset, and it leaves the pin as it is. -/

namespace Sys2Proof.Machine

set_option autoImplicit false

section ResetPin

/-- The pin is an input, which reset does not drive (R263). -/
@[simp] theorem toReset_rst (s : State) : s.toReset.rst = s.rst := rfl

/-- Settles O37: the step is a reset, and the pin it leaves at 1 holds the machine there in the next one. -/
theorem resetPinHoldsTheMachine : Obligations.ResetPinHoldsTheMachine := fun s hlegal hrst =>
  ⟨step_of_rst hlegal hrst, (toReset_rst s).trans hrst⟩

end ResetPin

end Sys2Proof.Machine
